-- ==== Sys2Proof/Word.lean ====
section
/-! DEFINITION. The value types of 00_scope.md R9 and R10. -/

namespace Sys2Proof

/-- `u8` (R9). -/
abbrev Byte := BitVec 8

/-- `u16` (R9). -/
abbrev Half := BitVec 16

/-- `u32` (R9). -/
abbrev Word := BitVec 32

/-- `Bytes`: a finite sequence of bytes, first byte first; also the wire order (R10). -/
abbrev Bytes := List Byte

end Sys2Proof
end

