-- ==== Sys2Proof/Config.lean ====
section
/-! DEFINITION. What an implementation fixes (00_scope.md R7) and the free values (R12; 93_implementation_defined.md
U9, U10, U12, U13). An `opaque` constant has no body: nothing can be proved of its value. -/

namespace Sys2Proof

/-- The size parameters of R7 that commands compare with. A block carries them unchanged for its whole life. -/
structure Params where
  /-- ENC_MAX_PAYLOAD: the encoder's policy limit (R141). -/
  encMaxPayload : Nat
  /-- RX_MAX_CAP: the largest receiver capacity (R201, R208). -/
  rxMaxCap : Nat
  /-- RB_MAX_CAP: the largest ring capacity (R251). -/
  rbMaxCap : Nat
  deriving DecidableEq, Repr

namespace Config

/-- CRC_POLY (R7, R120). -/
def crcPoly : Half := 0x1021

/-- CRC_SEED (R7, R120). -/
def crcSeed : Half := 0xFFFF

/-- HDR0, HDR1, TAIL0, TAIL1 (R7, R80). -/
def hdr0 : Byte := 0x55
def hdr1 : Byte := 0xAA
def tail0 : Byte := 0xAA
def tail1 : Byte := 0x55

/-- FRAME_OVERHEAD (R7, R82). -/
def frameOverhead : Nat := 9

/-- RB_PLACEHOLDER (R7, R261, D22), a constant here; 93_implementation_defined.md U4 calls it a parameter of this default
(DEDUCED, log 16). -/
def rbPlaceholder : Byte := 0x2E

/-- RB_PRINTABLE: the first and the last printable byte (R7, R261, D22), constants here like the placeholder (log 16). -/
def rbPrintableLo : Byte := 0x20
def rbPrintableHi : Byte := 0x7E

/-- The default of ENC_MAX_PAYLOAD (R7, R141). -/
def encMaxPayloadDefault : Nat := 108

/-- The open choices behind the parameters below (log 6). -/
opaque decCountChoice : Byte
opaque rxCountChoice : Byte
opaque rbCountChoice : Byte
opaque encMaxPayloadChoice : Half
opaque rxMaxCapChoice : Word
opaque rbMaxCapChoice : Word

/-- N_DEC, N_RX, N_RB: open, in 1 to 256 (R7). -/
def nDec : Nat := decCountChoice.toNat + 1
def nRx : Nat := rxCountChoice.toNat + 1
def nRb : Nat := rbCountChoice.toNat + 1

/-- The machine's parameters: RX_MAX_CAP and RB_MAX_CAP open in 1 to 2^32 - 1, ENC_MAX_PAYLOAD open (R7) and at
most WIRE_MAX_PAYLOAD, without which a frame could not carry its length (R80; DEDUCED, log 6). -/
def params : Params where
  encMaxPayload := encMaxPayloadChoice.toNat
  rxMaxCap := max 1 rxMaxCapChoice.toNat
  rbMaxCap := max 1 rbMaxCapChoice.toNat

/-- The open answer to the draw with index `i`, where no answer was supplied from outside (R12; log 4). -/
opaque freeAnswer (i : Nat) : Nat

/-- The unspecified byte at offset `off` of the `i`-th new store (R34, R37, R165; D23; log 7). -/
opaque freeByte (i off : Nat) : Byte

end Config
end Sys2Proof
end

