-- ==== Sys2Proof/Syntax.lean ====
section
/-! DEFINITION. The 20 commands of 30_encoding.md R90, one constructor each, with the operands of their formats (R88).
`inst` is the header's INST byte; CRC and ENC commands have none, because theirs must be 0x00 (R87). -/

namespace Sys2Proof

inductive Instr where
  /-- CRC16 data (R122). -/
  | crc16 (data : Bytes)
  /-- CRC16_CONT c, data (R121). -/
  | crc16Cont (c : Half) (data : Bytes)
  /-- ENCODE t, data (R140). -/
  | encode (t : Byte) (data : Bytes)
  /-- DEC_RESET d (R160). -/
  | decReset (inst : Byte)
  /-- DEC_PARSE d, b (R161). -/
  | decParse (inst : Byte) (b : Byte)
  /-- DEC_STATUS d (R172). -/
  | decStatus (inst : Byte)
  /-- DEC_READ d (R173). -/
  | decRead (inst : Byte)
  /-- RX_INIT r, h (R200). -/
  | rxInit (inst : Byte) (h : Word)
  /-- RX_APPEND r, data (R204). -/
  | rxAppend (inst : Byte) (data : Bytes)
  /-- RX_QUERY r (R203). -/
  | rxQuery (inst : Byte)
  /-- RX_DESTROY r (R202). -/
  | rxDestroy (inst : Byte)
  /-- RB_INIT b, c (R250). -/
  | rbInit (inst : Byte) (c : Word)
  /-- RB_WRITE b, data (R253). -/
  | rbWrite (inst : Byte) (data : Bytes)
  /-- RB_READ b, m (R255). -/
  | rbRead (inst : Byte) (m : Word)
  /-- RB_FREE_SPACE b (R257). -/
  | rbFreeSpace (inst : Byte)
  /-- RB_USED_SPACE b (R258). -/
  | rbUsedSpace (inst : Byte)
  /-- RB_IS_EMPTY b (R259). -/
  | rbIsEmpty (inst : Byte)
  /-- RB_IS_FULL b (R260). -/
  | rbIsFull (inst : Byte)
  /-- RB_DUMP b (R261). -/
  | rbDump (inst : Byte)
  /-- RB_DESTROY b (R252). -/
  | rbDestroy (inst : Byte)
  deriving DecidableEq, Repr

end Sys2Proof
end

