-- ==== Sys2Proof/WellFormed.lean ====
section
/-! DEFINITION. The commands that a command string can spell: the `n` field is a u32, so a data operand has at most
2^32 - 1 bytes (30_encoding.md R88; 92_eei_decisions.md D29). Every other operand's range is its type. -/

namespace Sys2Proof

/-- A byte string whose length the u32 field `n` can carry (R88, D29). -/
abbrev fitsLengthField (data : Bytes) : Bool := decide (data.length < 2 ^ 32)

/-- One check per constructor: the data operand's length, where there is one. -/
def Instr.wf : Instr → Bool
  | .crc16 data => fitsLengthField data
  | .crc16Cont _ data => fitsLengthField data
  | .encode _ data => fitsLengthField data
  | .decReset _ => true
  | .decParse _ _ => true
  | .decStatus _ => true
  | .decRead _ => true
  | .rxInit _ _ => true
  | .rxAppend _ data => fitsLengthField data
  | .rxQuery _ => true
  | .rxDestroy _ => true
  | .rbInit _ _ => true
  | .rbWrite _ data => fitsLengthField data
  | .rbRead _ _ => true
  | .rbFreeSpace _ => true
  | .rbUsedSpace _ => true
  | .rbIsEmpty _ => true
  | .rbIsFull _ => true
  | .rbDump _ => true
  | .rbDestroy _ => true

end Sys2Proof
end

