-- ==== Sys2Proof/Decode.lean ====
section
/-! DEFINITION. The command interface's encoding (30_encoding.md R87 to R92): byte-order helpers, the opcode map, a
decoder that is total on byte strings and rejects by name in the order of 60_exceptions.md R304, an encoder written
from the same table, and the reading of a numbered opcode-table word. -/

namespace Sys2Proof

/-! ## Byte order (20_memory.md R60 to R62; 30_encoding.md R89) -/

/-- `lo8(v) = v[7:0]` (R9). -/
def lo8 (v : Half) : Byte := BitVec.ofNat 8 v.toNat

/-- `hi8(v) = v[15:8]` (R9). -/
def hi8 (v : Half) : Byte := BitVec.ofNat 8 (v.toNat / 2 ^ 8)

/-- A u16 as bytes, the byte holding bits 7:0 first (R60). -/
def le16 (v : Half) : Bytes := [lo8 v, hi8 v]

/-- A u32 as bytes, the byte holding bits 7:0 first (R62, R88). -/
def le32 (v : Word) : Bytes :=
  [BitVec.ofNat 8 v.toNat, BitVec.ofNat 8 (v.toNat / 2 ^ 8), BitVec.ofNat 8 (v.toNat / 2 ^ 16),
   BitVec.ofNat 8 (v.toNat / 2 ^ 24)]

/-- `byte2 | byte3<<8` (R89). -/
def u16OfBytes (b0 b1 : Byte) : Half := BitVec.ofNat 16 (b0.toNat + 2 ^ 8 * b1.toNat)

/-- `byte2 | byte3<<8 | byte4<<16 | byte5<<24` (R89). -/
def u32OfBytes (b0 b1 b2 b3 : Byte) : Word :=
  BitVec.ofNat 32 (b0.toNat + 2 ^ 8 * b1.toNat + 2 ^ 16 * b2.toNat + 2 ^ 24 * b3.toNat)

/-! ## The opcode map (R90) -/

/-- The mnemonics of R90. -/
inductive Mnemonic where
  | crc16 | crc16Cont | encode
  | decReset | decParse | decStatus | decRead
  | rxInit | rxAppend | rxQuery | rxDestroy
  | rbInit | rbWrite | rbRead | rbFreeSpace | rbUsedSpace | rbIsEmpty | rbIsFull | rbDump | rbDestroy
  deriving DecidableEq, Repr

/-- The formats of R88. -/
inductive Format where
  | n | b | w | d | cd | td
  deriving DecidableEq, Repr

/-- One row of R90: the opcode, the format, and whether INST is reserved (must be 0x00). -/
structure OpcodeRow where
  mnemonic : Mnemonic
  opc : Byte
  format : Format
  instReserved : Bool
  deriving DecidableEq, Repr

/-- R90's table, in its order. -/
def opcodeMap : List OpcodeRow :=
  [⟨.crc16, 0x01, .d, true⟩, ⟨.crc16Cont, 0x02, .cd, true⟩, ⟨.encode, 0x10, .td, true⟩,
   ⟨.decReset, 0x20, .n, false⟩, ⟨.decParse, 0x21, .b, false⟩, ⟨.decStatus, 0x22, .n, false⟩,
   ⟨.decRead, 0x23, .n, false⟩, ⟨.rxInit, 0x30, .w, false⟩, ⟨.rxAppend, 0x31, .d, false⟩,
   ⟨.rxQuery, 0x32, .n, false⟩] ++
  [⟨.rxDestroy, 0x33, .n, false⟩, ⟨.rbInit, 0x40, .w, false⟩, ⟨.rbWrite, 0x41, .d, false⟩,
   ⟨.rbRead, 0x42, .w, false⟩, ⟨.rbFreeSpace, 0x43, .n, false⟩, ⟨.rbUsedSpace, 0x44, .n, false⟩,
   ⟨.rbIsEmpty, 0x45, .n, false⟩, ⟨.rbIsFull, 0x46, .n, false⟩, ⟨.rbDump, 0x47, .n, false⟩,
   ⟨.rbDestroy, 0x48, .n, false⟩]

/-- The row an OPC byte selects, if any (R90). -/
def rowOfOpc (opc : Byte) : Option OpcodeRow := opcodeMap.find? fun row => row.opc == opc

/-! ## Operands of a format (R88, R89): the bytes after the header, or `none` where their number is wrong -/

/-- Format N: no operand. -/
def operandN : Bytes → Option Unit
  | [] => some ()
  | _ => none

/-- Format B: `b`. -/
def operandB : Bytes → Option Byte
  | [b] => some b
  | _ => none

/-- Format W: `v`. -/
def operandW : Bytes → Option Word
  | [b0, b1, b2, b3] => some (u32OfBytes b0 b1 b2 b3)
  | _ => none

/-- Format D: `n`, then exactly n bytes of `data`. -/
def operandD : Bytes → Option Bytes
  | b0 :: b1 :: b2 :: b3 :: data => if data.length = (u32OfBytes b0 b1 b2 b3).toNat then some data else none
  | _ => none

/-- Format CD: `c`, then format D's operands. -/
def operandCD : Bytes → Option (Half × Bytes)
  | c0 :: c1 :: rest => (operandD rest).map fun data => (u16OfBytes c0 c1, data)
  | _ => none

/-- Format TD: `t`, then format D's operands. -/
def operandTD : Bytes → Option (Byte × Bytes)
  | t :: rest => (operandD rest).map fun data => (t, data)
  | _ => none

/-! ## The decoder -/

/-- The names under which a command string is rejected (60_exceptions.md R303). Raised by `decode`; safe: the spec
itself refuses these strings. -/
inductive Reject where
  /-- BAD_LENGTH: shorter than 2 bytes, or not its format's total length. -/
  | badLength
  /-- RESERVED_OPC: one of the 236 reserved OPC values. -/
  | reservedOpc
  /-- NONZERO_INST: a CRC or ENC command whose INST is not 0x00. -/
  | nonzeroInst
  deriving DecidableEq, Repr

/-- The command of a mnemonic whose header is `inst` and whose operand bytes are `body` (R88, R90). -/
def instrOfBody (inst : Byte) (body : Bytes) : Mnemonic → Option Instr
  | .crc16 => (operandD body).map .crc16
  | .crc16Cont => (operandCD body).map fun p => .crc16Cont p.1 p.2
  | .encode => (operandTD body).map fun p => .encode p.1 p.2
  | .decReset => (operandN body).map fun _ => .decReset inst
  | .decParse => (operandB body).map (.decParse inst)
  | .decStatus => (operandN body).map fun _ => .decStatus inst
  | .decRead => (operandN body).map fun _ => .decRead inst
  | .rxInit => (operandW body).map (.rxInit inst)
  | .rxAppend => (operandD body).map (.rxAppend inst)
  | .rxQuery => (operandN body).map fun _ => .rxQuery inst
  | .rxDestroy => (operandN body).map fun _ => .rxDestroy inst
  | .rbInit => (operandW body).map (.rbInit inst)
  | .rbWrite => (operandD body).map (.rbWrite inst)
  | .rbRead => (operandW body).map (.rbRead inst)
  | .rbFreeSpace => (operandN body).map fun _ => .rbFreeSpace inst
  | .rbUsedSpace => (operandN body).map fun _ => .rbUsedSpace inst
  | .rbIsEmpty => (operandN body).map fun _ => .rbIsEmpty inst
  | .rbIsFull => (operandN body).map fun _ => .rbIsFull inst
  | .rbDump => (operandN body).map fun _ => .rbDump inst
  | .rbDestroy => (operandN body).map fun _ => .rbDestroy inst

/-- Decodes a command string, with the checks 1 to 4 of R304 in that order. -/
def decode (cmd : Bytes) : Except Reject Instr :=
  match cmd with
  | opc :: inst :: body =>
    match rowOfOpc opc with
    | none => .error .reservedOpc
    | some row =>
      if row.instReserved = true ∧ inst ≠ 0 then .error .nonzeroInst
      else
        match instrOfBody inst body row.mnemonic with
        | some i => .ok i
        | none => .error .badLength
  | _ => .error .badLength

/-! ## The encoder -/

/-- Format D's operand bytes: `n`, then `data` (R88). -/
def encodeD (data : Bytes) : Bytes := le32 (BitVec.ofNat 32 data.length) ++ data

/-- The command string of a command (R87, R88, R90). -/
def encode : Instr → Bytes
  | .crc16 data => [0x01, 0x00] ++ encodeD data
  | .crc16Cont c data => [0x02, 0x00] ++ le16 c ++ encodeD data
  | .encode t data => [0x10, 0x00, t] ++ encodeD data
  | .decReset inst => [0x20, inst]
  | .decParse inst b => [0x21, inst, b]
  | .decStatus inst => [0x22, inst]
  | .decRead inst => [0x23, inst]
  | .rxInit inst h => [0x30, inst] ++ le32 h
  | .rxAppend inst data => [0x31, inst] ++ encodeD data
  | .rxQuery inst => [0x32, inst]
  | .rxDestroy inst => [0x33, inst]
  | .rbInit inst c => [0x40, inst] ++ le32 c
  | .rbWrite inst data => [0x41, inst] ++ encodeD data
  | .rbRead inst m => [0x42, inst] ++ le32 m
  | .rbFreeSpace inst => [0x43, inst]
  | .rbUsedSpace inst => [0x44, inst]
  | .rbIsEmpty inst => [0x45, inst]
  | .rbIsFull inst => [0x46, inst]
  | .rbDump inst => [0x47, inst]
  | .rbDestroy inst => [0x48, inst]

/-! ## Words numbered as the opcode table numbers them -/

/-- The low `k` bytes of `w`, byte 0 first: bit 0 of `w` is bit 0 of the first byte (R87). -/
def bytesOfNat : Nat → Nat → Bytes
  | 0, _ => []
  | k + 1, w => BitVec.ofNat 8 w :: bytesOfNat k (w / 2 ^ 8)

/-- The value of the 4 bytes of `cmd` at offset `o`, absent bytes read as 0: the `n` field of R92. -/
def lengthFieldAt (cmd : Bytes) (o : Nat) : Nat :=
  (u32OfBytes (cmd.getD o 0) (cmd.getD (o + 1) 0) (cmd.getD (o + 2) 0) (cmd.getD (o + 3) 0)).toNat

/-- The total length of the command that begins with `cmd` (R88, R92). -/
def totalLength (cmd : Bytes) : Format → Nat
  | .n => 2
  | .b => 3
  | .w => 6
  | .d => 6 + lengthFieldAt cmd 2
  | .cd => 8 + lengthFieldAt cmd 4
  | .td => 7 + lengthFieldAt cmd 3

/-- The command string whose first `nbits` bits are `w`, every bit above them 0, up to its format's length (log 13). -/
def tableBytes (nbits w : Nat) : Bytes :=
  let cmd := bytesOfNat (nbits / 8) w
  match rowOfOpc (cmd.getD 0 0) with
  | none => cmd
  | some row => cmd ++ List.replicate (totalLength cmd row.format - cmd.length) 0

/-- The command this decoder reads from an opcode-table word. -/
def decodeTableWord (nbits w : Nat) : Option Instr :=
  match decode (tableBytes nbits w) with
  | .ok i => some i
  | .error _ => none

end Sys2Proof
end

