-- ==== Sys2Proof/Machine/State.lean ====
section
/-! DEFINITION. The state of the block (10_state.md R20 to R41), the reasons it stops (60_exceptions.md R302, R303), and
power-on (70_reset_and_hazards.md R330, R331). -/

namespace Sys2Proof.Machine

/-! ## Stop reasons -/

/-- The fault reasons of R302. A fault is a host's breach of contract; the block records the reason in `faulted` and
stops (R13, R316; log 2). Each is the spec's own behaviour: safe. -/
inductive Fault where
  /-- BAD_INSTANCE: raised by every DEC, RX and RB command whose INST is at or above its unit's count. Safe. -/
  | badInstance
  /-- NOT_LIVE: raised by every DEC command but DEC_RESET, and every RX and RB command but the inits, on an instance
  that is not live. Safe. -/
  | notLive
  /-- ALREADY_LIVE: raised by RX_INIT and RB_INIT on a live instance. Safe. -/
  | alreadyLive
  /-- NO_FRAME: raised by DEC_READ when `out_valid` is 0. Safe. -/
  | noFrame
  deriving DecidableEq, Repr

/-- The refusal reasons. -/
inductive Refusal where
  /-- A command string that spells no command, under the decoder's name for it (R303). Raised by the step; the block
  records it in `refused` and stops. Safe: the spec's own behaviour. -/
  | malformed (why : Reject)
  /-- An instruction without a meaning in this model, by its mnemonic. Raised by a refused arm of `exec`; none is
  left. Safe. -/
  | notModelled (mnemonic : String)
  deriving DecidableEq, Repr

/-! ## Byte stores (20_memory.md R63; R11) -/

/-- A byte store addressed from 0. `cells` lists the bytes written, at strictly rising offsets below `size`. An offset
not listed has been written by nothing and reads as the free byte `Config.freeByte fill offset` (log 7). -/
structure Memory where
  size : Nat
  fill : Nat
  cells : List Host.Cell
  deriving DecidableEq, Repr

/-- Strictly rising keys. -/
def risingKeys : List Host.Cell → Bool
  | [] => true
  | [_] => true
  | c :: d :: rest => decide (c.1 < d.1) && risingKeys (d :: rest)

/-- The canonical form of a byte store (log 7). -/
def Memory.wf (m : Memory) : Bool := risingKeys m.cells && m.cells.all fun c => decide (c.1 < m.size)

/-! ## The decoder (R26 to R30) -/

/-- The ten states of R27, in its order. -/
inductive DecState where
  | waitH1 | waitH2 | waitType | waitLen1 | waitLen2 | payload | waitCrc1 | waitCrc2 | waitT1 | waitT2
  deriving DecidableEq, Repr

/-- A decoder record (R26), without the `live` bit that only a standalone instance has. -/
structure Dec where
  st : DecState
  typ : Byte
  len : Half
  cur : Half
  crcRx : Half
  /-- The payload buffer: a store of `len` bytes, or absent (R29). -/
  pay : Option Memory
  outValid : Bool
  deriving DecidableEq, Repr

/-- The fields of R30: after DEC_RESET and after every failure. Also the model's power-on values, which the spec leaves
unspecified but for `pay` and `out_valid` (R331; DESIGN CHOICE, log 8). -/
def Dec.reset : Dec where
  st := .waitH1
  typ := 0
  len := 0
  cur := 0
  crcRx := 0
  pay := none
  outValid := false

/-- A standalone decoder instance (R22, R23, R26). -/
structure DecUnit where
  live : Bool
  dec : Dec
  deriving DecidableEq, Repr

/-! ## The receiver (R31 to R34) -/

/-- A receiver instance. `dec` is its private decoder (R31, R39). -/
structure Rx where
  live : Bool
  cap : Nat
  wp : Nat
  pp : Nat
  /-- A store of `cap` bytes, absent while the instance is not live (R331). -/
  buf : Option Memory
  dec : Dec
  deriving DecidableEq, Repr

/-! ## The ring buffer (R35 to R37) -/

/-- A ring buffer instance. -/
structure Rb where
  live : Bool
  cap : Nat
  head : Nat
  tail : Nat
  length : Nat
  /-- A store of `cap` bytes, absent while the instance is not live (R331). -/
  store : Option Memory
  deriving DecidableEq, Repr

/-! ## Power-on values of the instances (R330, R331; log 8) -/

def DecUnit.powerOn : DecUnit := ⟨false, Dec.reset⟩

def Rx.powerOn : Rx := ⟨false, 0, 0, 0, none, Dec.reset⟩

def Rb.powerOn : Rb := ⟨false, 0, 0, 0, 0, none⟩

/-! ## The block -/

/-- The environment's side of the draws of R12: answers supplied from outside, oldest first, and the number of draws
made, which indexes the free values once no answer is left (log 4). -/
structure Env where
  answers : List Nat
  count : Nat
  deriving DecidableEq, Repr

/-- The whole state. `decs`, `rxs` and `rbs` hold the instances 0, 1, ... of each unit, so N_DEC, N_RX and N_RB are
their lengths (R22; log 6). -/
structure State where
  /-- The commands the host has issued and the block has not yet taken, in issue order (R6, R70; log 1). -/
  pending : List Bytes
  /-- The responses returned so far, in order (R93, R75; log 3). -/
  out : List Bytes
  /-- The mark `faulted` with its reason (R40, R302). -/
  faulted : Option Fault
  /-- The mark `refused` with its reason (R40, R303). -/
  refused : Option Refusal
  decs : List DecUnit
  rxs : List Rx
  rbs : List Rb
  env : Env
  /-- The parameters of R7, which no step writes (log 6). -/
  par : Params
  deriving DecidableEq, Repr

/-- Power-on (R41, R330, R331): no instance live, both marks 0, nothing issued and nothing answered. -/
def State.reset : State where
  pending := []
  out := []
  faulted := none
  refused := none
  decs := List.replicate Config.nDec DecUnit.powerOn
  rxs := List.replicate Config.nRx Rx.powerOn
  rbs := List.replicate Config.nRb Rb.powerOn
  env := ⟨[], 0⟩
  par := Config.params

end Sys2Proof.Machine
end

