-- ==== Sys2Proof/Machine/Ops.lean ====
section
/-! DEFINITION. The named operations over the state: byte stores, draws, instances, responses, and stopping the block.
Taking a fault or a refusal is one operation each, `raiseFault` and `raiseRefusal`; there is no return from either
(60_exceptions.md R308, R309, R316). -/

namespace Sys2Proof.Machine

/-! ## Byte stores (00_scope.md R11; 20_memory.md R65) -/

/-- A store of `n` bytes of unspecified value, its bytes the free values of index `fill` (R34, R37, R165; log 7). -/
def Memory.new (n fill : Nat) : Memory := ⟨n, fill, []⟩

/-- What an offset that no cell lists reads as (log 7). -/
def Memory.unlisted (m : Memory) (a : Nat) : Byte := Config.freeByte m.fill a

/-- The byte at offset `a`: MemRead of one byte (R11). -/
def Memory.read (m : Memory) (a : Nat) : Byte :=
  match m.cells.lookup a with
  | some b => b
  | none => m.unlisted a

/-- Puts a cell at its place in the rising order, over an older cell of the same offset. -/
def insertCell (a : Nat) (b : Byte) : List Host.Cell → List Host.Cell
  | [] => [(a, b)]
  | c :: rest =>
    if a < c.1 then (a, b) :: c :: rest
    else if a = c.1 then (a, b) :: rest
    else c :: insertCell a b rest

/-- MemWrite of one byte (R11). Outside the store, where R11 gives it no meaning and no command reaches it, nothing
is written (log 10). -/
def Memory.write (m : Memory) (a : Nat) (b : Byte) : Memory :=
  if a < m.size then { m with cells := insertCell a b m.cells } else m

/-- MemRead(store, a, n) (R11), in increasing offset order (R65). -/
def Memory.readBytes (m : Memory) (a : Nat) : Nat → Bytes
  | 0 => []
  | n + 1 => m.read a :: m.readBytes (a + 1) n

/-- MemWrite(store, a, |bs|, bs) (R11), in increasing offset order (R65). -/
def Memory.writeBytes (m : Memory) (a : Nat) : Bytes → Memory
  | [] => m
  | b :: bs => (m.write a b).writeBytes (a + 1) bs

/-- A store that may be absent; an absent one is a store of size 0. -/
def storeOf (m : Option Memory) : Memory := m.getD ⟨0, 0, []⟩

/-- MemRead from an instance's store. -/
def loadBytes (m : Option Memory) (a n : Nat) : Bytes := (storeOf m).readBytes a n

/-- MemWrite to an instance's store. -/
def storeBytes (m : Option Memory) (a : Nat) (bs : Bytes) : Option Memory := m.map fun x => x.writeBytes a bs

/-- `store[0 : n] <- store[start : start + n]` (43_receiver.md R206, R217). -/
def moveToFront (m : Option Memory) (start n : Nat) : Option Memory := storeBytes m 0 (loadBytes m start n)

/-! ## Draws (R12; log 4) -/

/-- The answer to the next draw: the oldest supplied one, else the open one of this index. -/
def Env.answer (e : Env) : Nat :=
  match e.answers with
  | a :: _ => a
  | [] => Config.freeAnswer e.count

/-- The environment after one draw. -/
def Env.advance (e : Env) : Env := ⟨e.answers.tail, e.count + 1⟩

/-- `draw Alloc(site, n)`: true exactly where the request is one the site can grant and the answer is not 0
(R12, R201, R251). -/
def Env.grants (e : Env) (grantable : Bool) : Bool := grantable && e.answer != 0

/-- The environment after the bytes of a new store are drawn; the store's index is `count` before. -/
def Env.afterNew (e : Env) : Env := { e with count := e.count + 1 }

/-! ## Single updates of the block -/

/-- Appends a response (30_encoding.md R93; log 3). -/
def State.respond (s : State) (r : Bytes) : State := { s with out := s.out ++ [r] }

/-- Sets the environment of draws. -/
def State.setEnv (s : State) (e : Env) : State := { s with env := e }

/-- Sets decoder instance `inst`. -/
def State.setDec (s : State) (inst : Byte) (d : DecUnit) : State := { s with decs := s.decs.set inst.toNat d }

/-- Sets receiver instance `inst`. -/
def State.setRx (s : State) (inst : Byte) (r : Rx) : State := { s with rxs := s.rxs.set inst.toNat r }

/-- Sets ring buffer instance `inst`. -/
def State.setRb (s : State) (inst : Byte) (b : Rb) : State := { s with rbs := s.rbs.set inst.toNat b }

/-- Removes the oldest issued command. -/
def State.takeCommand (s : State) : State := { s with pending := s.pending.tail }

/-- Decoder instance `inst`, absent at or above N_DEC (10_state.md R22). -/
def State.decAt (s : State) (inst : Byte) : Option DecUnit := s.decs[inst.toNat]?

/-- Receiver instance `inst`, absent at or above N_RX. -/
def State.rxAt (s : State) (inst : Byte) : Option Rx := s.rxs[inst.toNat]?

/-- Ring buffer instance `inst`, absent at or above N_RB. -/
def State.rbAt (s : State) (inst : Byte) : Option Rb := s.rbs[inst.toNat]?

/-! ## Stopping (R13, R40, R94, R302, R303, R316; log 2) -/

/-- `raise Fault(reason)`: the sticky mark with its reason; no response, no event, the units as they were. -/
def State.raiseFault (s : State) (why : Fault) : State := { s with faulted := some why }

/-- `raise Refuse(reason)`. -/
def State.raiseRefusal (s : State) (why : Refusal) : State := { s with refused := some why }

/-- Either mark is 1: no command executes (R40, R316). -/
def State.stopped (s : State) : Bool := s.faulted.isSome || s.refused.isSome

/-! ## Instance and liveness checks, in the order 5, 6 of R304 -/

/-- Checks INST against N_DEC (R302 BAD_INSTANCE). -/
def onDec (inst : Byte) (s : State) (f : DecUnit → State) : State :=
  match s.decAt inst with
  | none => s.raiseFault .badInstance
  | some d => f d

/-- Checks INST, then `live` (R302 NOT_LIVE). -/
def onLiveDec (inst : Byte) (s : State) (f : Dec → State) : State :=
  onDec inst s fun d => if d.live then f d.dec else s.raiseFault .notLive

/-- Checks INST against N_RX. -/
def onRx (inst : Byte) (s : State) (f : Rx → State) : State :=
  match s.rxAt inst with
  | none => s.raiseFault .badInstance
  | some r => f r

/-- Checks INST, then `live`. -/
def onLiveRx (inst : Byte) (s : State) (f : Rx → State) : State :=
  onRx inst s fun r => if r.live then f r else s.raiseFault .notLive

/-- Checks INST, then that the instance is not live (R302 ALREADY_LIVE). -/
def onNewRx (inst : Byte) (s : State) (f : Rx → State) : State :=
  onRx inst s fun r => if r.live then s.raiseFault .alreadyLive else f r

/-- Checks INST against N_RB. -/
def onRb (inst : Byte) (s : State) (f : Rb → State) : State :=
  match s.rbAt inst with
  | none => s.raiseFault .badInstance
  | some b => f b

/-- Checks INST, then `live`. -/
def onLiveRb (inst : Byte) (s : State) (f : Rb → State) : State :=
  onRb inst s fun b => if b.live then f b else s.raiseFault .notLive

/-- Checks INST, then that the instance is not live. -/
def onNewRb (inst : Byte) (s : State) (f : Rb → State) : State :=
  onRb inst s fun b => if b.live then s.raiseFault .alreadyLive else f b

end Sys2Proof.Machine
end

