-- ==== Sys2Proof/Machine/Flags.lean ====
section
/-! DEFINITION. The block's Boolean indications (10_state.md R38), the decoder's state codes (R27) and the status codes
(60_exceptions.md R300). There is no condition-code register. -/

namespace Sys2Proof.Machine

/-- The statuses of R300. -/
inductive Status where
  | ok | allocError | payloadTooLarge | insufficientSpace | invalidCapacity
  deriving DecidableEq, Repr

/-- R300's codes. -/
def Status.code : Status → Byte
  | .ok => 0
  | .allocError => 1
  | .payloadTooLarge => 2
  | .insufficientSpace => 3
  | .invalidCapacity => 4

/-- R27's codes. -/
def DecState.code : DecState → Byte
  | .waitH1 => 0
  | .waitH2 => 1
  | .waitType => 2
  | .waitLen1 => 3
  | .waitLen2 => 4
  | .payload => 5
  | .waitCrc1 => 6
  | .waitCrc2 => 7
  | .waitT1 => 8
  | .waitT2 => 9

/-- A Boolean indication as a response byte: 0 or 1 (30_encoding.md R93). -/
def flagByte (b : Bool) : Byte := if b then 1 else 0

/-- `length == 0` (44_ringbuffer.md R259). -/
def Rb.isEmpty (b : Rb) : Bool := b.length == 0

/-- `length == capacity` (R260). -/
def Rb.isFull (b : Rb) : Bool := b.length == b.cap

/-- `capacity - length` (R257). -/
def Rb.freeSpace (b : Rb) : Nat := b.cap - b.length

end Sys2Proof.Machine
end

