-- ==== Sys2Proof/Machine/Operands.lean ====
section
/-! DEFINITION. The byte layouts of responses and frame events (30_encoding.md R93, R95). The operand forms of commands
(R88, R89) are the operand functions of Sys2Proof/Decode.lean; every operand is unsigned and taken as it stands. -/

namespace Sys2Proof.Machine

/-- A count or cursor as a u32 field; exact because each is below 2^32 (00_scope.md R15; log 14). -/
def u32Field (n : Nat) : Bytes := le32 (BitVec.ofNat 32 n)

/-- One frame event (R95, R215). -/
structure FrameEvent where
  typ : Byte
  len : Half
  payload : Bytes
  deriving DecidableEq, Repr

/-- `typ` (u8), `len` (u16), then the payload bytes (R95). -/
def FrameEvent.bytes (ev : FrameEvent) : Bytes := [ev.typ] ++ le16 ev.len ++ ev.payload

/-- A response of a STATUS byte alone. -/
def statusResponse (st : Status) : Bytes := [st.code]

/-- CRC16, CRC16_CONT: `crc`. -/
def crcResponse (c : Half) : Bytes := [Status.ok.code] ++ le16 c

/-- ENCODE with STATUS OK, and RB_READ: `n`, then n bytes. -/
def bytesResponse (bs : Bytes) : Bytes := [Status.ok.code] ++ u32Field bs.length ++ bs

/-- DEC_PARSE: `result`, 0 pending, 1 complete. -/
def parseResponse (complete : Bool) : Bytes := [Status.ok.code, flagByte complete]

/-- DEC_STATUS: `st`, `out_valid`. -/
def decStatusResponse (st : DecState) (outValid : Bool) : Bytes := [Status.ok.code, st.code, flagByte outValid]

/-- DEC_READ: `typ`, `len`, then the payload: one frame event's bytes. -/
def decReadResponse (ev : FrameEvent) : Bytes := [Status.ok.code] ++ ev.bytes

/-- RX_APPEND: `dropped`, `count`, then the frame events in order. -/
def appendResponse (dropped : Nat) (events : List FrameEvent) : Bytes :=
  [Status.ok.code] ++ u32Field dropped ++ u32Field events.length ++ (events.map FrameEvent.bytes).flatten

/-- RX_QUERY: `wp`, `pp`, `cap`. -/
def rxQueryResponse (wp pp cap : Nat) : Bytes := [Status.ok.code] ++ u32Field wp ++ u32Field pp ++ u32Field cap

/-- RB_FREE_SPACE, RB_USED_SPACE: `v`. -/
def countResponse (v : Nat) : Bytes := [Status.ok.code] ++ u32Field v

/-- RB_IS_EMPTY, RB_IS_FULL: `flag`. -/
def flagResponse (b : Bool) : Bytes := [Status.ok.code, flagByte b]

/-- RB_DUMP: `cap`, `head`, `tail`, `length`, then the rendered bytes. -/
def dumpResponse (cap head tail length : Nat) (text : Bytes) : Bytes :=
  [Status.ok.code] ++ u32Field cap ++ u32Field head ++ u32Field tail ++ u32Field length ++ text

end Sys2Proof.Machine
end

