-- ==== Sys2Proof/Machine/Crc.lean ====
section
/-! DEFINITION. The CRC unit (40_crc.md): the byte step, the two folds, and CRC16 and CRC16_CONT. -/

namespace Sys2Proof.Machine

/-- One of the eight rounds of R120: shift left, and XOR the polynomial where the top bit was set. -/
def crcRound (c : Half) : Half := if c.msb then (c <<< 1) ^^^ Config.crcPoly else c <<< 1

/-- `k` rounds. -/
def crcRounds : Nat → Half → Half
  | 0, c => c
  | k + 1, c => crcRounds k (crcRound c)

/-- `crc_step` (R120): one byte, most significant bit first. -/
def crcStep (c : Half) (b : Byte) : Half := crcRounds 8 (c ^^^ (b.zeroExtend 16 <<< 8))

/-- `crc16_cont` (R120, R121). -/
def crc16Cont (c : Half) (d : Bytes) : Half := d.foldl crcStep c

/-- `crc16` (R120, R122). -/
def crc16 (d : Bytes) : Half := crc16Cont Config.crcSeed d

/-- CRC16 (R122). -/
def execCrc16 (data : Bytes) (s : State) : Host.Outcome State Fault Refusal :=
  .next (s.respond (crcResponse (crc16 data)))

/-- CRC16_CONT (R121). -/
def execCrc16Cont (c : Half) (data : Bytes) (s : State) : Host.Outcome State Fault Refusal :=
  .next (s.respond (crcResponse (crc16Cont c data)))

end Sys2Proof.Machine
end

