-- ==== Sys2Proof/Machine/Encoder.lean ====
section
/-! DEFINITION. The encoder unit (41_encoder.md): the wire frame and ENCODE. -/

namespace Sys2Proof.Machine

/-- The five bytes before the payload: header, type, length (30_encoding.md R80). -/
def frameHeader (t : Byte) (len : Half) : Bytes := [Config.hdr0, Config.hdr1, t] ++ le16 len

/-- The CRC of a frame, over everything before it and never over the tail (R81, R125). -/
def frameCrc (t : Byte) (len : Half) (payload : Bytes) : Half := crc16 (frameHeader t len ++ payload)

/-- The wire frame of type `t` and payload `payload` (R80, R143). -/
def wireFrame (t : Byte) (payload : Bytes) : Bytes :=
  frameHeader t (BitVec.ofNat 16 payload.length) ++ payload ++
    le16 (frameCrc t (BitVec.ofNat 16 payload.length) payload) ++ [Config.tail0, Config.tail1]

/-- ENCODE (R140): the limit before any draw (R304), then the ENC draw (R142), then the frame. -/
def execEncode (t : Byte) (data : Bytes) (s : State) : Host.Outcome State Fault Refusal :=
  .next <|
    if s.par.encMaxPayload < data.length then s.respond (statusResponse .payloadTooLarge)
    else if s.env.grants true then
      (s.setEnv s.env.advance).respond (bytesResponse (wireFrame t data))
    else (s.setEnv s.env.advance).respond (statusResponse .allocError)

end Sys2Proof.Machine
end

