-- ==== Sys2Proof/Machine/Decoder.lean ====
section
/-! DEFINITION. The decoder unit (42_decoder.md): the ten-state step, and DEC_RESET, DEC_PARSE, DEC_STATUS, DEC_READ. -/

namespace Sys2Proof.Machine

/-- What one decoder step leaves: the decoder, the environment after its draws, and the result. -/
structure DecStep where
  dec : Dec
  env : Env
  complete : Bool
  deriving DecidableEq, Repr

/-- `v | (zext_16(b) << 8)` (R164, R167; log 15). -/
def withHighByte (v : Half) (b : Byte) : Half := v ||| (b.zeroExtend 16 <<< 8)

/-- A step that draws nothing and reports pending. -/
def pendingStep (d : Dec) (e : Env) : DecStep := ⟨d, e, false⟩

/-- `fail(d)` (R170): every field as after a reset; the byte is consumed and nothing is reported. -/
def failStep (e : Env) : DecStep := pendingStep Dec.reset e

/-- The payload buffer's draw and store (R165). `d` holds the complete nonzero length. -/
def allocPayload (d : Dec) (e : Env) : DecStep :=
  if e.grants true then
    pendingStep { d with pay := some (Memory.new d.len.toNat e.advance.count), st := .payload } e.advance.afterNew
  else failStep e.advance

/-- The second length byte (R164): `len` and `cur`, then an empty payload, for which
nothing is allocated, or the allocation. -/
def finishLength (d : Dec) (b : Byte) (e : Env) : DecStep :=
  let d' := { d with len := withHighByte d.len b, cur := 0 }
  if d'.len = 0 then pendingStep { d' with pay := some (Memory.new 0 0), st := .waitCrc1 } e
  else allocPayload d' e

/-- One payload byte (R166). -/
def takePayload (d : Dec) (b : Byte) : Dec :=
  { d with
    pay := storeBytes d.pay d.cur.toNat [b]
    cur := d.cur + 1
    st := if d.cur + 1 = d.len then .waitCrc1 else .payload }

/-- The payload of a decoder record, `pay[0 : len]`. -/
def Dec.payload (d : Dec) : Bytes := loadBytes d.pay 0 d.len.toNat

/-- The CRC recomputed from the reconstructed header, continued with the payload (R169). -/
def Dec.calcCrc (d : Dec) : Half := crc16Cont (crc16 (frameHeader d.typ d.len)) d.payload

/-- The frame a decoder record holds, as an event (R95). -/
def Dec.frame (d : Dec) : FrameEvent := ⟨d.typ, d.len, d.payload⟩

/-- The second tail byte and the CRC check (R169, R171). -/
def finishFrame (d : Dec) (b : Byte) (e : Env) : DecStep :=
  if b = Config.tail1 then
    if d.calcCrc = d.crcRx then ⟨{ d with st := .waitH1, outValid := true }, e, true⟩ else failStep e
  else failStep e

/-- `dec_step(d, b)` (R162 to R170): one arm per state, each consuming exactly the byte `b`. -/
def decStep (d : Dec) (b : Byte) (e : Env) : DecStep :=
  match d.st with
  | .waitH1 => pendingStep (if b = Config.hdr0 then { d with st := .waitH2 } else d) e
  | .waitH2 => pendingStep { d with st := if b = Config.hdr1 then .waitType else .waitH1 } e
  | .waitType => pendingStep { d with typ := b, st := .waitLen1 } e
  | .waitLen1 => pendingStep { d with len := b.zeroExtend 16, st := .waitLen2 } e
  | .waitLen2 => finishLength d b e
  | .payload => pendingStep (takePayload d b) e
  | .waitCrc1 => pendingStep { d with crcRx := b.zeroExtend 16, st := .waitCrc2 } e
  | .waitCrc2 => pendingStep { d with crcRx := withHighByte d.crcRx b, st := .waitT1 } e
  | .waitT1 => if b = Config.tail0 then pendingStep { d with st := .waitT2 } e else failStep e
  | .waitT2 => finishFrame d b e

/-- A DEC_PARSE first ends the previous completion's window (R161, R334). -/
def Dec.closeWindow (d : Dec) : Dec := if d.outValid then Dec.reset else d

/-- DEC_RESET (R160): makes the decoder live and rewrites every field; it draws nothing. -/
def execDecReset (inst : Byte) (s : State) : Host.Outcome State Fault Refusal :=
  .next <| onDec inst s fun _ => (s.setDec inst ⟨true, Dec.reset⟩).respond (statusResponse .ok)

/-- DEC_PARSE (R161). -/
def execDecParse (inst : Byte) (b : Byte) (s : State) : Host.Outcome State Fault Refusal :=
  .next <| onLiveDec inst s fun d =>
    let r := decStep d.closeWindow b s.env
    ((s.setDec inst ⟨true, r.dec⟩).setEnv r.env).respond (parseResponse r.complete)

/-- DEC_STATUS (R172). -/
def execDecStatus (inst : Byte) (s : State) : Host.Outcome State Fault Refusal :=
  .next <| onLiveDec inst s fun d => s.respond (decStatusResponse d.st d.outValid)

/-- DEC_READ (R173): faults NO_FRAME where no completed frame is readable. -/
def execDecRead (inst : Byte) (s : State) : Host.Outcome State Fault Refusal :=
  .next <| onLiveDec inst s fun d =>
    if d.outValid then s.respond (decReadResponse d.frame) else s.raiseFault .noFrame

end Sys2Proof.Machine
end

