-- ==== Sys2Proof/Machine/Receiver.lean ====
section
/-! DEFINITION. The receiver unit (43_receiver.md): RX_INIT, RX_DESTROY, RX_QUERY, and RX_APPEND's five steps. -/

namespace Sys2Proof.Machine

/-! ## Life cycle -/

/-- The receiver after a successful RX_INIT with hint `h` (R200, R34); `fill` indexes the buffer's unspecified bytes. -/
def Rx.fresh (h fill : Nat) : Rx := ⟨true, h, 0, 0, some (Memory.new h fill), Dec.reset⟩

/-- RX_INIT (R200): ALREADY_LIVE, then INVALID_CAPACITY, then the RX_INIT draw, false above RX_MAX_CAP (R201). -/
def execRxInit (inst : Byte) (h : Word) (s : State) : Host.Outcome State Fault Refusal :=
  .next <| onNewRx inst s fun _ =>
    if h = 0 then s.respond (statusResponse .invalidCapacity)
    else if s.env.grants (decide (h.toNat ≤ s.par.rxMaxCap)) then
      ((s.setRx inst (Rx.fresh h.toNat s.env.advance.count)).setEnv s.env.advance.afterNew).respond
        (statusResponse .ok)
    else (s.setEnv s.env.advance).respond (statusResponse .allocError)

/-- A receiver after RX_DESTROY (R202): not live, the buffer and the private payload buffer released (log 9). -/
def Rx.released (r : Rx) : Rx := { r with live := false, buf := none, dec := { r.dec with pay := none } }

/-- RX_DESTROY (R202). -/
def execRxDestroy (inst : Byte) (s : State) : Host.Outcome State Fault Refusal :=
  .next <| onLiveRx inst s fun r => (s.setRx inst r.released).respond (statusResponse .ok)

/-- RX_QUERY (R203). -/
def execRxQuery (inst : Byte) (s : State) : Host.Outcome State Fault Refusal :=
  .next <| onLiveRx inst s fun r => s.respond (rxQueryResponse r.wp r.pp r.cap)

/-! ## RX_APPEND, steps 1 and 2: room -/

/-- A receiver with room made for the bytes of an append: what is still to be written, and how many bytes of the
append were discarded. -/
structure Room where
  rx : Rx
  env : Env
  data : Bytes
  dropped : Nat
  deriving DecidableEq, Repr

/-- Step 1a (R206): the already-decoded prefix is discarded. -/
def Rx.compact (r : Rx) : Rx :=
  if 0 < r.pp then
    { r with buf := moveToFront r.buf r.pp (r.wp - r.pp), wp := r.wp - r.pp, pp := 0 }
  else r

/-- The least number of doublings, at most `fuel`, after which `cap` holds `need` bytes. -/
def doublingsUpTo : Nat → Nat → Nat → Nat
  | 0, _, _ => 0
  | fuel + 1, cap, need => if need ≤ cap then 0 else doublingsUpTo fuel (cap * 2) need + 1

/-- Step 1b's `k` (R207): the least k with `cap * 2^k ≥ need`, for `1 ≤ cap < need`. -/
def growthTarget (cap need : Nat) : Nat := doublingsUpTo need cap need

/-- The largest j at most k with `cap * 2^j ≤ maxCap`, 0 where there is none. -/
def growthLimit (cap maxCap : Nat) : Nat → Nat
  | 0 => 0
  | k + 1 => if cap * 2 ^ (k + 1) ≤ maxCap then k + 1 else growthLimit cap maxCap k

/-- Step 1c's draw (R208): an answer picks any j with `j ≤ k` and `cap * 2^j ≤ maxCap` (log 5). -/
def growthDraw (e : Env) (cap maxCap k : Nat) : Nat := min e.answer (growthLimit cap maxCap k)

/-- The store after growth to `size` bytes: `buf[0 : wp]` kept at the same offsets, the rest unspecified (R76). -/
def grownStore (m : Option Memory) (wp size fill : Nat) : Option Memory :=
  some ((Memory.new size fill).writeBytes 0 (loadBytes m 0 wp))

/-- Step 1c (R208): `j` doublings; `j = 0` leaves the store as it is. -/
def Rx.grow (r : Rx) (j fill : Nat) : Rx :=
  if j = 0 then r else { r with cap := r.cap * 2 ^ j, buf := grownStore r.buf r.wp (r.cap * 2 ^ j) fill }

/-- What an append leaves when only part of it fits (R209, R210): the tail of the data is discarded. -/
def Room.clip (m : Room) : Room :=
  let fit := m.rx.cap - m.rx.wp
  { m with data := m.data.take fit, dropped := m.dropped + (m.data.length - fit) }

/-- Steps 1b to 1d (R207 to R209), on a receiver that still lacks room. -/
def growRoom (maxCap : Nat) (r : Rx) (data : Bytes) (e : Env) : Room :=
  let k := growthTarget r.cap (r.wp + data.length)
  let j := growthDraw e r.cap maxCap k
  let grown : Room := ⟨r.grow j e.advance.count, e.advance.afterNew, data, 0⟩
  if j < k then grown.clip else grown

/-- Step 1 (R205 to R209). -/
def makeRoom (maxCap : Nat) (r : Rx) (data : Bytes) (e : Env) : Room :=
  if r.wp + data.length ≤ r.cap then ⟨r, e, data, 0⟩
  else if r.compact.wp + data.length ≤ r.compact.cap then ⟨r.compact, e, data, 0⟩
  else growRoom maxCap r.compact data e

/-- Step 2 (R210): the defensive re-check, with clipping. -/
def Room.recheck (m : Room) : Room := if m.rx.cap < m.rx.wp + m.data.length then m.clip else m

/-! ## RX_APPEND, steps 3 to 5: write, scan, compact -/

/-- Step 3 (R211). -/
def Rx.put (r : Rx) (data : Bytes) : Rx :=
  { r with buf := storeBytes r.buf r.wp data, wp := r.wp + data.length }

/-- The scan in progress: events in emission order, and the frame-end marker (R204, R215). -/
structure Scan where
  rx : Rx
  env : Env
  events : List FrameEvent
  marker : Nat
  deriving DecidableEq, Repr

/-- `start` of R213: the offset of the first byte of the frame whose last byte is at `pp`, negative where it has left
the buffer. Exact on Int. -/
def frameStart (pp : Nat) (len : Half) : Int := (pp + 1 : Int) - (len.toNat + Config.frameOverhead : Nat)

/-- The completion bound check (R213): start and end within `[0, wp]`. -/
def frameInBuffer (pp wp : Nat) (len : Half) : Bool :=
  decide (0 ≤ frameStart pp len) && decide (frameStart pp len ≤ wp) && decide ((0 : Int) ≤ pp + 1) &&
    decide ((pp + 1 : Int) ≤ wp)

/-- The next byte the scan feeds to the decoder. -/
def Rx.scanned (r : Rx) : Byte := (storeOf r.buf).read r.pp

/-- A completion (R213 to R216): a frame event and the marker where the frame lies in the buffer; the decoder reset
in any case. `d` is the decoder that reports complete. -/
def Scan.deliver (c : Scan) (d : Dec) (e : Env) : Scan :=
  let r := { c.rx with dec := Dec.reset, pp := c.rx.pp + 1 }
  if frameInBuffer c.rx.pp c.rx.wp d.len then ⟨r, e, c.events ++ [d.frame], c.rx.pp + 1⟩
  else ⟨r, e, c.events, c.marker⟩

/-- One turn of the scan loop (R212). -/
def Scan.turn (c : Scan) : Scan :=
  let r := decStep c.rx.dec c.rx.scanned c.env
  if r.complete then c.deliver r.dec r.env
  else { c with rx := { c.rx with dec := r.dec, pp := c.rx.pp + 1 }, env := r.env }

/-- `n` turns of the scan loop. -/
def Scan.turns : Nat → Scan → Scan
  | 0, c => c
  | n + 1, c => Scan.turns n c.turn

/-- Step 4 (R212): `while pp < wp`, so `wp - pp` turns. -/
def scanAll (r : Rx) (e : Env) : Scan := Scan.turns (r.wp - r.pp) ⟨r, e, [], 0⟩

/-- Step 5 (R217): the bytes up to the end of the last delivered frame are removed. -/
def Rx.dropPrefix (r : Rx) (marker : Nat) : Rx :=
  if 0 < marker then
    { r with buf := moveToFront r.buf marker (r.wp - marker), wp := r.wp - marker, pp := r.pp - marker }
  else r

/-- Steps 3 to 5 on the bytes that fit. -/
def Room.parse (m : Room) : Scan :=
  let c := scanAll (m.rx.put m.data) m.env
  { c with rx := c.rx.dropPrefix c.marker }

/-- RX_APPEND (R204). -/
def execRxAppend (inst : Byte) (data : Bytes) (s : State) : Host.Outcome State Fault Refusal :=
  .next <| onLiveRx inst s fun r =>
    let room := (makeRoom s.par.rxMaxCap r data s.env).recheck
    let c := room.parse
    ((s.setRx inst c.rx).setEnv c.env).respond (appendResponse room.dropped c.events)

end Sys2Proof.Machine
end

