-- ==== Sys2Proof/Machine/Ring.lean ====
section
/-! DEFINITION. The ring buffer unit (44_ringbuffer.md): RB_INIT, RB_WRITE, RB_READ, the queries, RB_DUMP, RB_DESTROY. -/

namespace Sys2Proof.Machine

/-- The ring after a successful RB_INIT with capacity `c` (R250, R37). -/
def Rb.fresh (c fill : Nat) : Rb := ⟨true, c, 0, 0, 0, some (Memory.new c fill)⟩

/-- RB_INIT (R250): ALREADY_LIVE, then INVALID_CAPACITY, then the RB_INIT draw, false above RB_MAX_CAP (R251). -/
def execRbInit (inst : Byte) (c : Word) (s : State) : Host.Outcome State Fault Refusal :=
  .next <| onNewRb inst s fun _ =>
    if c = 0 then s.respond (statusResponse .invalidCapacity)
    else if s.env.grants (decide (c.toNat ≤ s.par.rbMaxCap)) then
      ((s.setRb inst (Rb.fresh c.toNat s.env.advance.count)).setEnv s.env.advance.afterNew).respond
        (statusResponse .ok)
    else (s.setEnv s.env.advance).respond (statusResponse .allocError)

/-- An accepted write (R253, R254): one span up to the end of the store, one from offset 0. -/
def Rb.enqueue (b : Rb) (data : Bytes) : Rb :=
  let first := min data.length (b.cap - b.head)
  { b with
    store := storeBytes (storeBytes b.store b.head (data.take first)) 0 (data.drop first)
    head := (b.head + data.length) % b.cap
    length := b.length + data.length }

/-- RB_WRITE (R253): all or nothing. -/
def execRbWrite (inst : Byte) (data : Bytes) (s : State) : Host.Outcome State Fault Refusal :=
  .next <| onLiveRb inst s fun b =>
    if b.freeSpace < data.length then s.respond (statusResponse .insufficientSpace)
    else (s.setRb inst (b.enqueue data)).respond (statusResponse .ok)

/-- The `n` oldest bytes (R255, R256): one span up to the end of the store, one from offset 0. -/
def Rb.oldest (b : Rb) (n : Nat) : Bytes :=
  let first := min n (b.cap - b.tail)
  loadBytes b.store b.tail first ++ loadBytes b.store 0 (n - first)

/-- The ring after a read of `n` bytes (R255). -/
def Rb.dequeue (b : Rb) (n : Nat) : Rb := { b with tail := (b.tail + n) % b.cap, length := b.length - n }

/-- RB_READ (R255): clamped to the bytes held. -/
def execRbRead (inst : Byte) (m : Word) (s : State) : Host.Outcome State Fault Refusal :=
  .next <| onLiveRb inst s fun b =>
    let n := min m.toNat b.length
    (s.setRb inst (b.dequeue n)).respond (bytesResponse (b.oldest n))

/-- RB_FREE_SPACE (R257). -/
def execRbFreeSpace (inst : Byte) (s : State) : Host.Outcome State Fault Refusal :=
  .next <| onLiveRb inst s fun b => s.respond (countResponse b.freeSpace)

/-- RB_USED_SPACE (R258). -/
def execRbUsedSpace (inst : Byte) (s : State) : Host.Outcome State Fault Refusal :=
  .next <| onLiveRb inst s fun b => s.respond (countResponse b.length)

/-- RB_IS_EMPTY (R259). -/
def execRbIsEmpty (inst : Byte) (s : State) : Host.Outcome State Fault Refusal :=
  .next <| onLiveRb inst s fun b => s.respond (flagResponse b.isEmpty)

/-- RB_IS_FULL (R260). -/
def execRbIsFull (inst : Byte) (s : State) : Host.Outcome State Fault Refusal :=
  .next <| onLiveRb inst s fun b => s.respond (flagResponse b.isFull)

/-- A byte of the dump (R261): itself where printable, else the placeholder, both as R261 fixes them (log 16). -/
def render (x : Byte) : Byte :=
  if Config.rbPrintableLo ≤ x ∧ x ≤ Config.rbPrintableHi then x else Config.rbPlaceholder

/-- The whole store rendered, in offset order (R261). -/
def Rb.text (b : Rb) : Bytes := (loadBytes b.store 0 b.cap).map render

/-- RB_DUMP (R261). -/
def execRbDump (inst : Byte) (s : State) : Host.Outcome State Fault Refusal :=
  .next <| onLiveRb inst s fun b => s.respond (dumpResponse b.cap b.head b.tail b.length b.text)

/-- A ring after RB_DESTROY (R252): not live, the store released (log 9). -/
def Rb.released (b : Rb) : Rb := { b with live := false, store := none }

/-- RB_DESTROY (R252). -/
def execRbDestroy (inst : Byte) (s : State) : Host.Outcome State Fault Refusal :=
  .next <| onLiveRb inst s fun b => (s.setRb inst b.released).respond (statusResponse .ok)

end Sys2Proof.Machine
end

