-- ==== Sys2Proof/Machine/Dispatch.lean ====
section
/-! DEFINITION. One arm per command of 30_encoding.md R90. -/

namespace Sys2Proof.Machine

def exec (i : Instr) (s : State) : Host.Outcome State Fault Refusal :=
  match i with
  | .crc16 data => Sys2Proof.Machine.execCrc16 data s
  | .crc16Cont c data => Sys2Proof.Machine.execCrc16Cont c data s
  | .encode t data => Sys2Proof.Machine.execEncode t data s
  | .decReset inst => Sys2Proof.Machine.execDecReset inst s
  | .decParse inst b => Sys2Proof.Machine.execDecParse inst b s
  | .decStatus inst => Sys2Proof.Machine.execDecStatus inst s
  | .decRead inst => Sys2Proof.Machine.execDecRead inst s
  | .rxInit inst h => Sys2Proof.Machine.execRxInit inst h s
  | .rxAppend inst data => Sys2Proof.Machine.execRxAppend inst data s
  | .rxQuery inst => Sys2Proof.Machine.execRxQuery inst s
  | .rxDestroy inst => Sys2Proof.Machine.execRxDestroy inst s
  | .rbInit inst c => Sys2Proof.Machine.execRbInit inst c s
  | .rbWrite inst data => Sys2Proof.Machine.execRbWrite inst data s
  | .rbRead inst m => Sys2Proof.Machine.execRbRead inst m s
  | .rbFreeSpace inst => Sys2Proof.Machine.execRbFreeSpace inst s
  | .rbUsedSpace inst => Sys2Proof.Machine.execRbUsedSpace inst s
  | .rbIsEmpty inst => Sys2Proof.Machine.execRbIsEmpty inst s
  | .rbIsFull inst => Sys2Proof.Machine.execRbIsFull inst s
  | .rbDump inst => Sys2Proof.Machine.execRbDump inst s
  | .rbDestroy inst => Sys2Proof.Machine.execRbDestroy inst s

end Sys2Proof.Machine
end

