-- ==== Sys2Proof/Machine/Step.lean ====
section
/-! DEFINITION. One step of the block: the oldest issued command, from acceptance to its response (00_scope.md R6, R13;
20_memory.md R66, R70). -/

namespace Sys2Proof.Machine

/-- With no command issued the block waits (log 1). A stopped block ignores the command (60_exceptions.md R316). A
command string that spells no command is refused (R303); one that spells a command is executed. -/
def step (s : State) : Host.Outcome State Fault Refusal :=
  match s.pending with
  | [] => .next s
  | cmd :: _ =>
    if s.stopped then .next s.takeCommand
    else
      match decode cmd with
      | .ok i => exec i s.takeCommand
      | .error why => .next (s.takeCommand.raiseRefusal (.malformed why))

/-- The host issues, ahead of all others, the command whose bits are `w` (log 1, log 13). -/
def State.withFetchWord (s : State) (nbits w : Nat) : State := { s with pending := tableBytes nbits w :: s.pending }

end Sys2Proof.Machine
end

