-- ==== Sys2Proof/Safety.lean ====
section
/-! DEFINITION. The terms in which statements about runs are made: the invariants of 10_state.md R28, R32, R36 and
43_receiver.md R218, the contents of a ring, a decoder fed with bytes, and a sequence of issued commands. -/

namespace Sys2Proof

/-! ## Which unit and instance a command addresses (30_encoding.md R87, R90) -/

/-- The instance of a DEC command. -/
def Instr.decInst : Instr → Option Byte
  | .decReset k | .decParse k _ | .decStatus k | .decRead k => some k
  | .crc16 _ | .crc16Cont _ _ | .encode _ _ | .rxInit _ _ | .rxAppend _ _ | .rxQuery _ | .rxDestroy _
  | .rbInit _ _ | .rbWrite _ _ | .rbRead _ _ | .rbFreeSpace _ | .rbUsedSpace _ | .rbIsEmpty _ | .rbIsFull _
  | .rbDump _ | .rbDestroy _ => none

/-- The instance of an RX command. -/
def Instr.rxInst : Instr → Option Byte
  | .rxInit k _ | .rxAppend k _ | .rxQuery k | .rxDestroy k => some k
  | .crc16 _ | .crc16Cont _ _ | .encode _ _ | .decReset _ | .decParse _ _ | .decStatus _ | .decRead _
  | .rbInit _ _ | .rbWrite _ _ | .rbRead _ _ | .rbFreeSpace _ | .rbUsedSpace _ | .rbIsEmpty _ | .rbIsFull _
  | .rbDump _ | .rbDestroy _ => none

/-- The instance of an RB command. -/
def Instr.rbInst : Instr → Option Byte
  | .rbInit k _ | .rbWrite k _ | .rbRead k _ | .rbFreeSpace k | .rbUsedSpace k | .rbIsEmpty k | .rbIsFull k
  | .rbDump k | .rbDestroy k => some k
  | .crc16 _ | .crc16Cont _ _ | .encode _ _ | .decReset _ | .decParse _ _ | .decStatus _ | .decRead _
  | .rxInit _ _ | .rxAppend _ _ | .rxQuery _ | .rxDestroy _ => none

/-- The init commands of R23: they do not fault NOT_LIVE. -/
def Instr.isInit : Instr → Bool
  | .decReset _ | .rxInit _ _ | .rbInit _ _ => true
  | .crc16 _ | .crc16Cont _ _ | .encode _ _ | .decParse _ _ | .decStatus _ | .decRead _ | .rxAppend _ _
  | .rxQuery _ | .rxDestroy _ | .rbWrite _ _ | .rbRead _ _ | .rbFreeSpace _ | .rbUsedSpace _ | .rbIsEmpty _
  | .rbIsFull _ | .rbDump _ | .rbDestroy _ => false

/-- The query commands of 20_memory.md R67. -/
def Instr.isQuery : Instr → Bool
  | .crc16 _ | .crc16Cont _ _ | .decStatus _ | .decRead _ | .rxQuery _ | .rbFreeSpace _ | .rbUsedSpace _
  | .rbIsEmpty _ | .rbIsFull _ | .rbDump _ => true
  | .encode _ _ | .decReset _ | .decParse _ _ | .rxInit _ _ | .rxAppend _ _ | .rxDestroy _ | .rbInit _ _
  | .rbWrite _ _ | .rbRead _ _ | .rbDestroy _ => false

namespace Machine

/-! ## Invariants -/

/-- A present, canonical store of `n` bytes. -/
def HasStore (m : Option Memory) (n : Nat) : Prop := ∃ x, m = some x ∧ x.wf = true ∧ x.size = n

/-- The states in which a payload buffer is held (10_state.md R28, R29). -/
def DecState.holdsPayload : DecState → Bool
  | .payload | .waitCrc1 | .waitCrc2 | .waitT1 | .waitT2 => true
  | .waitH1 | .waitH2 | .waitType | .waitLen1 | .waitLen2 => false

/-- The invariants of R28 for a live decoder; with them what `len` and `crc_rx` hold after their first byte (R164,
R167) and that a readable frame has a correct CRC (R169, R171). -/
structure Dec.Inv (d : Dec) : Prop where
  payloadCursor : d.st = .payload → d.cur.toNat < d.len.toNat
  cursorAtEnd : d.st.holdsPayload = true → d.st ≠ .payload → d.cur = d.len
  window : d.outValid = true → d.st = .waitH1 ∧ d.cur = d.len ∧ d.calcCrc = d.crcRx
  payPresent : d.st.holdsPayload = true ∨ d.outValid = true → HasStore d.pay d.len.toNat
  payAbsent : d.st.holdsPayload = false → d.outValid = false → d.pay = none
  lenLowByte : d.st = .waitLen2 → d.len.toNat < 2 ^ 8
  crcLowByte : d.st = .waitCrc2 → d.crcRx.toNat < 2 ^ 8

/-- A live standalone decoder meets R28; one that was never reset holds no buffer and no frame (R331). -/
structure DecUnit.Inv (u : DecUnit) : Prop where
  ofLive : u.live = true → u.dec.Inv
  ofDead : u.live = false → u.dec.pay = none ∧ u.dec.outValid = false

/-- R31, R32 and R218 for a live receiver; a receiver that is not live holds no store (R202, R331). -/
structure Rx.Inv (maxCap : Nat) (r : Rx) : Prop where
  capRange : r.live = true → 1 ≤ r.cap ∧ r.cap ≤ maxCap
  cursors : r.live = true → r.pp = r.wp ∧ r.wp ≤ r.cap
  buffer : r.live = true → HasStore r.buf r.cap
  decoder : r.live = true → r.dec.Inv ∧ r.dec.outValid = false
  ofDead : r.live = false → r.buf = none ∧ r.dec.pay = none

/-- R35 and R36 for a live ring; a ring that is not live holds no store (R252, R331). -/
structure Rb.Inv (maxCap : Nat) (b : Rb) : Prop where
  capRange : b.live = true → 1 ≤ b.cap ∧ b.cap ≤ maxCap
  offsets : b.live = true → b.head < b.cap ∧ b.tail < b.cap ∧ b.length ≤ b.cap
  headOfTail : b.live = true → b.head = (b.tail + b.length) % b.cap
  backing : b.live = true → HasStore b.store b.cap
  ofDead : b.live = false → b.store = none

/-- The ranges of R7's parameters. -/
structure ParamsInv (p : Params) : Prop where
  enc : p.encMaxPayload < 2 ^ 16
  rx : 1 ≤ p.rxMaxCap ∧ p.rxMaxCap < 2 ^ 32
  rb : 1 ≤ p.rbMaxCap ∧ p.rbMaxCap < 2 ^ 32

/-- The invariant of the block: parameters and instance counts in R7's ranges, every instance as above, and at most
one of the two marks set (R13). -/
structure State.Inv (s : State) : Prop where
  params : ParamsInv s.par
  counts : (1 ≤ s.decs.length ∧ s.decs.length ≤ 256) ∧ (1 ≤ s.rxs.length ∧ s.rxs.length ≤ 256) ∧
    (1 ≤ s.rbs.length ∧ s.rbs.length ≤ 256)
  decoders : ∀ u ∈ s.decs, u.Inv
  receivers : ∀ r ∈ s.rxs, r.Inv s.par.rxMaxCap
  rings : ∀ b ∈ s.rbs, b.Inv s.par.rbMaxCap
  oneMark : s.faulted = none ∨ s.refused = none

/-! ## What a ring holds (44_ringbuffer.md R254, R256) -/

/-- The unread bytes, oldest first: `store[(tail + i) mod cap]` for i below `length`. -/
def Rb.contents (b : Rb) : Bytes :=
  (List.range b.length).map fun i => (storeOf b.store).read ((b.tail + i) % b.cap)

/-! ## A decoder fed with bytes (30_encoding.md R97 DEC_FEED) -/

/-- A decoder, its draws, and the results so far, in order. -/
structure Feed where
  dec : Dec
  env : Env
  results : List Bool

/-- One DEC_PARSE (42_decoder.md R161). -/
def Feed.byte (f : Feed) (b : Byte) : Feed :=
  let r := decStep f.dec.closeWindow b f.env
  ⟨r.dec, r.env, f.results ++ [r.complete]⟩

/-- The bytes of `bs`, one DEC_PARSE each, in order. -/
def Feed.bytes (f : Feed) (bs : Bytes) : Feed := bs.foldl Feed.byte f

/-! ## A host's commands (10_state.md R21) -/

/-- The block after the host has issued `is`, in order, to a block with nothing pending. -/
def State.issue (s : State) (is : List Instr) : State := { s with pending := is.map encode }

/-- The block after it has taken every one of the issued commands `is`. -/
def State.afterCommands (s : State) (is : List Instr) : Host.Outcome State Fault Refusal :=
  Host.Core.run Sys2Proof.core is.length (s.issue is)

/-! ## The history of a ring (44_ringbuffer.md R263) -/

/-- A data-path command of a ring. -/
inductive RingOp where
  | write (data : Bytes)
  | read (m : Word)

/-- A ring's block with the concatenation of the accepted writes' data and of the reads' bytes. -/
structure RingHistory where
  state : State
  written : Bytes
  got : Bytes

/-- One command of instance `k`. A write counts as accepted where its response says OK; the bytes of a read are those
of its response, after STATUS and `n`. -/
def RingHistory.after (k : Byte) (h : RingHistory) : RingOp → RingHistory
  | .write data =>
    match exec (.rbWrite k data) h.state with
    | .next t => ⟨t, if t.out = h.state.out ++ [[0]] then h.written ++ data else h.written, h.got⟩
    | .fault _ | .refused _ => h
  | .read m =>
    match exec (.rbRead k m) h.state with
    | .next t => ⟨t, h.written, h.got ++ (t.out.getLastD []).drop 5⟩
    | .fault _ | .refused _ => h

end Machine
end Sys2Proof
end

