-- ==== Sys2Proof/Certificates/Slice0/Obligations.lean ====
section
/-! DEFINITION. The statements for the provers. Responses are spelled in bytes (30_encoding.md R93), states as record
updates. `{ s with out := s.out ++ [r] }` reads "answers `r` and changes nothing else" (log 3), and
`{ s with faulted := some why }` "faults" (log 2). -/

open Sys2Proof Sys2Proof.Machine

/-! ## How a command on an instance answers (60_exceptions.md R302, R304) -/

/-- On every state: BAD_INSTANCE where decoder `k` does not exist, NOT_LIVE where it is not live, else `after`. -/
def Sys2Proof.AnswersOnLiveDec (i : Instr) (k : Byte) (after : State → Dec → State) : Prop :=
  ∀ s : State,
    (s.decAt k = none → exec i s = .next { s with faulted := some .badInstance }) ∧
    (∀ u, s.decAt k = some u → u.live = false → exec i s = .next { s with faulted := some .notLive }) ∧
    (∀ d, s.decAt k = some ⟨true, d⟩ → exec i s = .next (after s d))

/-- The same for receiver `k`. -/
def Sys2Proof.AnswersOnLiveRx (i : Instr) (k : Byte) (after : State → Rx → State) : Prop :=
  ∀ s : State,
    (s.rxAt k = none → exec i s = .next { s with faulted := some .badInstance }) ∧
    (∀ r, s.rxAt k = some r → r.live = false → exec i s = .next { s with faulted := some .notLive }) ∧
    (∀ r, s.rxAt k = some r → r.live = true → exec i s = .next (after s r))

/-- The same for ring buffer `k`. -/
def Sys2Proof.AnswersOnLiveRb (i : Instr) (k : Byte) (after : State → Rb → State) : Prop :=
  ∀ s : State,
    (s.rbAt k = none → exec i s = .next { s with faulted := some .badInstance }) ∧
    (∀ b, s.rbAt k = some b → b.live = false → exec i s = .next { s with faulted := some .notLive }) ∧
    (∀ b, s.rbAt k = some b → b.live = true → exec i s = .next (after s b))

/-! ## CRC unit (40_crc.md) -/

/-- R120: eight rounds on the byte XORed into the high half, each `(c << 1) mod 2^16`, XORed with 0x1021 where bit 15
was set, written on numbers; and the fold over a byte string from its first byte. -/
def Obligations.CrcStepIsEightMsbFirstRounds : Prop :=
  (∀ (c : Half) (b : Byte),
    (crcStep c b).toNat =
      (fun n : Nat => if 2 ^ 15 ≤ n then (2 * n % 2 ^ 16) ^^^ 0x1021 else 2 * n % 2 ^ 16)^[8]
        (c.toNat ^^^ (2 ^ 8 * b.toNat))) ∧
  (∀ c, crc16Cont c [] = c) ∧
  (∀ c b d, crc16Cont c (b :: d) = crc16Cont (crcStep c b) d) ∧
  (∀ d, crc16 d = crc16Cont 0xFFFF d)

/-- R121, R122: both CRC commands answer OK and the CRC, low byte first, and change nothing. -/
def Obligations.CrcCommandsAnswerTheCrc : Prop :=
  ∀ (c : Half) (data : Bytes) (s : State),
    exec (.crc16Cont c data) s = .next { s with out := s.out ++ [[0] ++ le16 (crc16Cont c data)] } ∧
    exec (.crc16 data) s = .next { s with out := s.out ++ [[0] ++ le16 (crc16Cont 0xFFFF data)] }

/-- R123, R124 (the spec's derived laws), at the commands: CRC16_CONT from the CRC of A over B answers as over A ‖ B. -/
def Obligations.CrcContinuesOverSpans : Prop :=
  ∀ (c : Half) (a b : Bytes) (s : State),
    exec (.crc16Cont (crc16Cont c a) b) s = exec (.crc16Cont c (a ++ b)) s ∧
    exec (.crc16Cont (crc16 a) b) s = exec (.crc16 (a ++ b)) s ∧
    exec (.crc16Cont 0xFFFF a) s = exec (.crc16 a) s

/-! ## Encoder unit (41_encoder.md) -/

/-- R140, R142, R144: above the limit PAYLOAD_TOO_LARGE with no draw; else one draw, and ALLOC_ERROR on a false answer;
else OK, n + 9 and the frame. Every type byte is accepted. `answer` is the draw's (log 4). -/
def Obligations.EncodeAnswersFrameOrStatus : Prop :=
  ∀ (t : Byte) (data : Bytes) (s : State),
    (s.par.encMaxPayload < data.length →
      exec (.encode t data) s = .next { s with out := s.out ++ [[2]] }) ∧
    (data.length ≤ s.par.encMaxPayload → s.env.answer = 0 →
      exec (.encode t data) s = .next { s with env := s.env.advance, out := s.out ++ [[1]] }) ∧
    (data.length ≤ s.par.encMaxPayload → s.env.answer ≠ 0 →
      exec (.encode t data) s =
        .next { s with
          env := s.env.advance
          out := s.out ++ [[0] ++ le32 (BitVec.ofNat 32 (data.length + 9)) ++ wireFrame t data] })

/-- R80, R81: the frame of a payload of length L, byte by byte. -/
def Obligations.WireFrameLayout : Prop :=
  ∀ (t : Byte) (p : Bytes), p.length ≤ 65535 →
    let f := wireFrame t p
    let crc := crc16 (f.take (5 + p.length))
    f.length = p.length + 9 ∧
    f[0]? = some 0x55 ∧ f[1]? = some 0xAA ∧ f[2]? = some t ∧
    f[3]?.map BitVec.toNat = some (p.length % 2 ^ 8) ∧ f[4]?.map BitVec.toNat = some (p.length / 2 ^ 8) ∧
    (∀ i < p.length, f[5 + i]? = p[i]?) ∧
    f[5 + p.length]?.map BitVec.toNat = some (crc.toNat % 2 ^ 8) ∧
    f[6 + p.length]?.map BitVec.toNat = some (crc.toNat / 2 ^ 8) ∧
    f[7 + p.length]? = some 0xAA ∧ f[8 + p.length]? = some 0x55

/-! ## Decoder unit (42_decoder.md) -/

/-- R160: DEC_RESET makes the decoder live and writes every field, whether or not it was live; it draws nothing. -/
def Obligations.DecResetWritesEveryField : Prop :=
  ∀ (k : Byte) (s : State),
    (s.decAt k = none → exec (.decReset k) s = .next { s with faulted := some .badInstance }) ∧
    (∀ u, s.decAt k = some u →
      exec (.decReset k) s =
        .next { s with
          decs := s.decs.set k.toNat
            ⟨true, { st := .waitH1, typ := 0, len := 0, cur := 0, crcRx := 0, pay := none, outValid := false }⟩
          out := s.out ++ [[0]] })

/-- R332: a second DEC_RESET changes nothing but the responses; neither draws, and both answer OK. -/
def Obligations.DecResetIsIdempotent : Prop :=
  ∀ (k : Byte) (s : State), (s.decAt k).isSome = true →
    ∃ t, exec (.decReset k) s = .next t ∧ t.env = s.env ∧ t.out = s.out ++ [[0]] ∧
      exec (.decReset k) t = .next { t with out := t.out ++ [[0]] }

/-- R161: DEC_PARSE ends a previous completion's window, runs one decoder step, and answers its result. -/
def Obligations.DecParseFeedsOneByte : Prop :=
  ∀ (k b : Byte), AnswersOnLiveDec (.decParse k b) k fun s d =>
    let r := decStep (if d.outValid = true then Dec.reset else d) b s.env
    { s with
      decs := s.decs.set k.toNat ⟨true, r.dec⟩
      env := r.env
      out := s.out ++ [[0, if r.complete = true then 1 else 0]] }

/-- R162 to R165: the arms of the header, type and length states. In WAIT_LEN2 `len` holds the first length byte, so it
is below 2^8 (Dec.Inv, log 15). A new payload buffer has `len` bytes, none of them written (log 4, log 7). -/
def Obligations.DecoderHeaderAndLengthArms : Prop :=
  ∀ (d : Dec) (b : Byte) (e : Env),
    (d.st = .waitH1 → b = 0x55 → decStep d b e = ⟨{ d with st := .waitH2 }, e, false⟩) ∧
    (d.st = .waitH1 → b ≠ 0x55 → decStep d b e = ⟨d, e, false⟩) ∧
    (d.st = .waitH2 → b = 0xAA → decStep d b e = ⟨{ d with st := .waitType }, e, false⟩) ∧
    (d.st = .waitH2 → b ≠ 0xAA → decStep d b e = ⟨{ d with st := .waitH1 }, e, false⟩) ∧
    (d.st = .waitType → decStep d b e = ⟨{ d with typ := b, st := .waitLen1 }, e, false⟩) ∧
    (d.st = .waitLen1 →
      decStep d b e = ⟨{ d with len := BitVec.ofNat 16 b.toNat, st := .waitLen2 }, e, false⟩) ∧
    (d.st = .waitLen2 → d.len.toNat < 2 ^ 8 →
      let n := d.len.toNat + 256 * b.toNat
      let d' : Dec := { d with len := BitVec.ofNat 16 n, cur := 0 }
      (n = 0 → ∃ m : Memory, m.size = 0 ∧ decStep d b e = ⟨{ d' with pay := some m, st := .waitCrc1 }, e, false⟩) ∧
      (n ≠ 0 → e.answer ≠ 0 → ∃ m : Memory, m.size = n ∧ m.cells = [] ∧
        (decStep d b e).dec = { d' with pay := some m, st := .payload } ∧ (decStep d b e).complete = false ∧
        (decStep d b e).env.answers = e.answers.tail) ∧
      (n ≠ 0 → e.answer = 0 →
        decStep d b e =
          ⟨{ st := .waitH1, typ := 0, len := 0, cur := 0, crcRx := 0, pay := none, outValid := false },
            e.advance, false⟩))

/-- R166 to R170: the arms of the payload, CRC and tail states, and the completion. `fail` leaves every field as after a
reset, with the byte consumed. In WAIT_CRC2 `crc_rx` holds the first CRC byte (Dec.Inv, log 15). -/
def Obligations.DecoderPayloadCrcAndTailArms : Prop :=
  ∀ (d : Dec) (b : Byte) (e : Env),
    let failed : DecStep :=
      ⟨{ st := .waitH1, typ := 0, len := 0, cur := 0, crcRx := 0, pay := none, outValid := false }, e, false⟩
    let crc := crc16Cont (crc16 [0x55, 0xAA, d.typ, lo8 d.len, hi8 d.len]) (loadBytes d.pay 0 d.len.toNat)
    (∀ m, d.st = .payload → d.pay = some m → d.cur.toNat < d.len.toNat →
      decStep d b e =
        ⟨{ d with
            pay := some (m.write d.cur.toNat b)
            cur := BitVec.ofNat 16 (d.cur.toNat + 1)
            st := if d.cur.toNat + 1 = d.len.toNat then .waitCrc1 else .payload }, e, false⟩) ∧
    (d.st = .waitCrc1 →
      decStep d b e = ⟨{ d with crcRx := BitVec.ofNat 16 b.toNat, st := .waitCrc2 }, e, false⟩) ∧
    (d.st = .waitCrc2 → d.crcRx.toNat < 2 ^ 8 →
      decStep d b e =
        ⟨{ d with crcRx := BitVec.ofNat 16 (d.crcRx.toNat + 256 * b.toNat), st := .waitT1 }, e, false⟩) ∧
    (d.st = .waitT1 → b = 0xAA → decStep d b e = ⟨{ d with st := .waitT2 }, e, false⟩) ∧
    (d.st = .waitT1 → b ≠ 0xAA → decStep d b e = failed) ∧
    (d.st = .waitT2 → b = 0x55 → crc = d.crcRx →
      decStep d b e = ⟨{ d with st := .waitH1, outValid := true }, e, true⟩) ∧
    (d.st = .waitT2 → b = 0x55 → crc ≠ d.crcRx → decStep d b e = failed) ∧
    (d.st = .waitT2 → b ≠ 0x55 → decStep d b e = failed)

/-- R166, the frame: in the payload state DEC_PARSE stores its byte at offset `cur` of the payload buffer; every other
byte of the buffer, the type, the length, the received CRC and `out_valid` are as before. -/
def Obligations.PayloadByteIsStoredAtCursor : Prop :=
  ∀ (k b : Byte) (s : State) (d : Dec) (m : Memory),
    s.decAt k = some ⟨true, d⟩ → d.st = .payload → d.outValid = false → d.pay = some m →
    m.size = d.len.toNat → d.cur.toNat < d.len.toNat →
    ∃ t d' m', exec (.decParse k b) s = .next t ∧ t.decAt k = some ⟨true, d'⟩ ∧ d'.pay = some m' ∧
      m'.read d.cur.toNat = b ∧ (∀ a, a ≠ d.cur.toNat → m'.read a = m.read a) ∧ m'.size = m.size ∧
      d'.typ = d.typ ∧ d'.len = d.len ∧ d'.crcRx = d.crcRx ∧ d'.outValid = false ∧ t.env = s.env

/-- R172: DEC_STATUS answers the state's code, numbered as R27 numbers the states, and `out_valid`. -/
def Obligations.DecStatusReportsStateCode : Prop :=
  ([DecState.waitH1, .waitH2, .waitType, .waitLen1, .waitLen2, .payload, .waitCrc1, .waitCrc2, .waitT1,
    .waitT2].map DecState.code = [0, 1, 2, 3, 4, 5, 6, 7, 8, 9]) ∧
  ∀ k : Byte, AnswersOnLiveDec (.decStatus k) k fun s d =>
    { s with out := s.out ++ [[0, d.st.code, if d.outValid = true then 1 else 0]] }

/-- R173: DEC_READ answers the completed frame, and faults NO_FRAME where there is none. -/
def Obligations.DecReadAnswersCompletedFrame : Prop :=
  ∀ k : Byte, AnswersOnLiveDec (.decRead k) k fun s d =>
    if d.outValid = true then
      { s with out := s.out ++ [[0, d.typ] ++ le16 d.len ++ loadBytes d.pay 0 d.len.toNat] }
    else { s with faulted := some .noFrame }

/-- R334: a completed frame is readable until the next DEC_PARSE or DEC_RESET of its decoder: after either, DEC_READ
faults NO_FRAME, and after any other command it still answers the frame. -/
def Obligations.ReadWindowClosesAtNextCommand : Prop :=
  ∀ (k b : Byte) (s : State) (d : Dec), s.decAt k = some ⟨true, d⟩ → d.outValid = true →
    exec (.decRead k) s =
      .next { s with out := s.out ++ [[0, d.typ] ++ le16 d.len ++ loadBytes d.pay 0 d.len.toNat] } ∧
    (∃ t, exec (.decParse k b) s = .next t ∧ exec (.decRead k) t = .next { t with faulted := some .noFrame }) ∧
    (∃ t, exec (.decReset k) s = .next t ∧ exec (.decRead k) t = .next { t with faulted := some .noFrame }) ∧
    (∀ (i : Instr) (t : State), (∀ c, i ≠ .decParse k c) → i ≠ .decReset k → exec i s = .next t →
      t.decAt k = s.decAt k ∧
      exec (.decRead k) t =
        .next { t with out := t.out ++ [[0, d.typ] ++ le16 d.len ++ loadBytes d.pay 0 d.len.toNat] })

/-- The whole machine and R162's corner case (R175, which the spec derives): after a stray first header byte the header
of the very next frame is lost, through any state of the other fields. -/
def Obligations.StrayHeaderByteLosesNextHeader : Prop :=
  ∀ (d : Dec) (e : Env), d.st = .waitH1 → d.outValid = false →
    (Feed.mk d e []).bytes [0x55, 0x55, 0xAA] = ⟨d, e, [false, false, false]⟩

/-- R145: the bytes of a frame, fed one DEC_PARSE each to a decoder in its reset state, answer pending for all but the
last and complete for the last, and DEC_READ then answers its type, length and payload. The premise on the draw
is R145's last sentence; the payload may have any length the wire carries. -/
def Obligations.DecodingAFrameGivesItBack : Prop :=
  ∀ (k t : Byte) (p : Bytes) (s : State), p.length ≤ 65535 → s.pending = [] → s.stopped = false →
    s.decAt k = some ⟨true, Dec.reset⟩ → (p = [] ∨ s.env.answer ≠ 0) →
    ∃ u, s.afterCommands ((wireFrame t p).map (Instr.decParse k) ++ [.decRead k]) = .next u ∧
      u.out = s.out ++ List.replicate (p.length + 8) [0, 0] ++ [[0, 1]] ++
        [[0, t] ++ le16 (BitVec.ofNat 16 p.length) ++ p] ∧
      u.stopped = false

/-- R176 (which the spec derives): when a decoder fed from its reset state reports complete, the last bytes fed are a
wire frame with a correct CRC, of the type and payload the decoder then holds. -/
def Obligations.CompletionMeansAWholeFrameArrived : Prop :=
  ∀ (e : Env) (bs : Bytes),
    let f := (Feed.mk Dec.reset e []).bytes bs
    f.results.getLast? = some true →
      f.dec.outValid = true ∧ wireFrame f.dec.typ f.dec.payload <:+ bs ∧ f.dec.payload.length = f.dec.len.toNat

/-! ## Receiver unit (43_receiver.md) -/

/-- R200, R201: ALREADY_LIVE on a live receiver; INVALID_CAPACITY for a zero hint, with no draw; ALLOC_ERROR on a false
draw, which a hint above RX_MAX_CAP always gives; else a live, empty receiver of capacity h with an unwritten buffer.
How the state holds draws and unwritten bytes is log 4 and log 7. -/
def Obligations.RxInitCreatesReceiver : Prop :=
  ∀ (k : Byte) (h : Word) (s : State),
    (s.rxAt k = none → exec (.rxInit k h) s = .next { s with faulted := some .badInstance }) ∧
    (∀ r, s.rxAt k = some r → r.live = true →
      exec (.rxInit k h) s = .next { s with faulted := some .alreadyLive }) ∧
    (∀ r, s.rxAt k = some r → r.live = false → h = 0 →
      exec (.rxInit k h) s = .next { s with out := s.out ++ [[4]] }) ∧
    (∀ r, s.rxAt k = some r → r.live = false → h ≠ 0 → (s.env.answer = 0 ∨ s.par.rxMaxCap < h.toNat) →
      exec (.rxInit k h) s = .next { s with env := s.env.advance, out := s.out ++ [[1]] }) ∧
    (∀ r, s.rxAt k = some r → r.live = false → h ≠ 0 → s.env.answer ≠ 0 → h.toNat ≤ s.par.rxMaxCap →
      ∃ fill count, exec (.rxInit k h) s =
        .next { s with
          rxs := s.rxs.set k.toNat
            { live := true, cap := h.toNat, wp := 0, pp := 0, buf := some ⟨h.toNat, fill, []⟩
              dec := { st := .waitH1, typ := 0, len := 0, cur := 0, crcRx := 0, pay := none, outValid := false } }
          env := ⟨s.env.answers.tail, count⟩
          out := s.out ++ [[0]] })

/-- R202: RX_DESTROY clears `live` and releases the buffer and the private payload buffer. That the other fields, which
lose meaning, keep their values is the model's choice (log 9). -/
def Obligations.RxDestroyReleases : Prop :=
  ∀ k : Byte, AnswersOnLiveRx (.rxDestroy k) k fun s r =>
    { s with
      rxs := s.rxs.set k.toNat { r with live := false, buf := none, dec := { r.dec with pay := none } }
      out := s.out ++ [[0]] }

/-- R203: RX_QUERY answers the cursors and the capacity. -/
def Obligations.RxQueryAnswersCursors : Prop :=
  ∀ k : Byte, AnswersOnLiveRx (.rxQuery k) k fun s r =>
    { s with
      out := s.out ++ [[0] ++ le32 (BitVec.ofNat 32 r.wp) ++ le32 (BitVec.ofNat 32 r.pp) ++
        le32 (BitVec.ofNat 32 r.cap)] }

/-- R204: RX_APPEND makes room, writes what fits, scans, compacts, and answers the dropped count and the events. What
the steps do is stated below. -/
def Obligations.RxAppendRunsItsSteps : Prop :=
  ∀ (k : Byte) (data : Bytes), AnswersOnLiveRx (.rxAppend k data) k fun s r =>
    let room := (makeRoom s.par.rxMaxCap r data s.env).recheck
    let c := scanAll (room.rx.put room.data) room.env
    { s with
      rxs := s.rxs.set k.toNat (c.rx.dropPrefix c.marker)
      env := c.env
      out := s.out ++ [[0] ++ le32 (BitVec.ofNat 32 room.dropped) ++ le32 (BitVec.ofNat 32 c.events.length) ++
        (c.events.map fun ev => [ev.typ] ++ le16 ev.len ++ ev.payload).flatten] }

/-- R205 to R209: step 1, on a receiver whose cursors are in order. `w` is what compaction leaves buffered. Compaction
writes no offset from `w` on; growth replaces the store. `growthDraw` is R208's draw, one of the allowed counts for
every answer; that it takes the oldest answer, and how the answer picks the count, are the model's (log 4, log 5). -/
def Obligations.StepOneMakesRoom : Prop :=
  ∀ (maxCap : Nat) (r : Rx) (data : Bytes) (e : Env),
    HasStore r.buf r.cap → r.pp ≤ r.wp → r.wp ≤ r.cap → 1 ≤ r.cap → r.cap ≤ maxCap →
    let m := makeRoom maxCap r data e
    let w := r.wp - r.pp
    (r.wp + data.length ≤ r.cap → m = ⟨r, e, data, 0⟩) ∧
    (r.cap < r.wp + data.length →
      m.rx.live = r.live ∧ m.rx.dec = r.dec ∧ m.rx.pp = 0 ∧ m.rx.wp = w ∧
      loadBytes m.rx.buf 0 w = loadBytes r.buf r.pp w ∧
      (w + data.length ≤ r.cap → m.rx.cap = r.cap ∧ m.env = e ∧ m.data = data ∧ m.dropped = 0 ∧
        ∀ a, w ≤ a → (storeOf m.rx.buf).read a = (storeOf r.buf).read a) ∧
      (r.cap < w + data.length →
        ∃ k j, 1 ≤ k ∧ w + data.length ≤ r.cap * 2 ^ k ∧ (∀ i, 1 ≤ i → i < k → r.cap * 2 ^ i < w + data.length) ∧
          j = growthDraw e r.cap maxCap k ∧ m.env.answers = e.answers.tail ∧ j ≤ k ∧ r.cap * 2 ^ j ≤ maxCap ∧ m.rx.cap = r.cap * 2 ^ j ∧ HasStore m.rx.buf (r.cap * 2 ^ j) ∧
          (j = k → m.data = data ∧ m.dropped = 0) ∧
          (j < k → m.data = data.take (r.cap * 2 ^ j - w) ∧ m.dropped = data.length - (r.cap * 2 ^ j - w))))

/-- R208: the growth draw gives only counts j at most k with `cap * 2^j` within RX_MAX_CAP, and some answer gives
each of them. How an answer picks j is the model's choice (log 5). -/
def Obligations.GrowthDrawsExactlyTheAllowedCounts : Prop :=
  ∀ (cap maxCap k : Nat), cap ≤ maxCap →
    (∀ e : Env, growthDraw e cap maxCap k ≤ k ∧ cap * 2 ^ growthDraw e cap maxCap k ≤ maxCap) ∧
    (∀ j, j ≤ k → cap * 2 ^ j ≤ maxCap → ∃ e : Env, growthDraw e cap maxCap k = j)

/-- R210: the re-check clips what does not fit, and after step 1 there is nothing to clip. -/
def Obligations.RecheckClipsAndNeverFires : Prop :=
  (∀ m : Room, m.rx.cap < m.rx.wp + m.data.length →
    m.recheck =
      { m with
        data := m.data.take (m.rx.cap - m.rx.wp)
        dropped := m.dropped + (m.data.length - (m.rx.cap - m.rx.wp)) }) ∧
  (∀ m : Room, m.rx.wp + m.data.length ≤ m.rx.cap → m.recheck = m) ∧
  (∀ (maxCap : Nat) (r : Rx) (data : Bytes) (e : Env),
    r.pp ≤ r.wp → r.wp ≤ r.cap → 1 ≤ r.cap →
    (makeRoom maxCap r data e).rx.wp + (makeRoom maxCap r data e).data.length ≤ (makeRoom maxCap r data e).rx.cap)

/-- R211, and its frame: step 3 writes the bytes at `wp` and advances it; every other byte of the buffer, and every other
field, is as before. -/
def Obligations.StepThreeWritesAtWritePosition : Prop :=
  ∀ (r : Rx) (m : Memory) (data : Bytes), r.buf = some m → r.wp + data.length ≤ m.size →
    ∃ m', r.put data = { r with buf := some m', wp := r.wp + data.length } ∧ m'.size = m.size ∧
      (∀ i, i < data.length → some (m'.read (r.wp + i)) = data[i]?) ∧
      (∀ a, (a < r.wp ∨ r.wp + data.length ≤ a) → m'.read a = m.read a)

/-- R212 to R216: the scan is `wp - pp` turns; one turn feeds the byte at `pp` to the decoder and advances `pp`. A
completion whose frame starts in the buffer gives one event and moves the marker, any other gives none; both reset
the decoder. The buffer is not written. -/
def Obligations.ScanTurnFeedsOneByte : Prop :=
  (∀ (r : Rx) (e : Env), scanAll r e = Scan.turn^[r.wp - r.pp] ⟨r, e, [], 0⟩) ∧
  ∀ (c : Scan) (m : Memory), c.rx.buf = some m → c.rx.pp < c.rx.wp →
    let st := decStep c.rx.dec (m.read c.rx.pp) c.env
    let blank : Dec :=
      { st := .waitH1, typ := 0, len := 0, cur := 0, crcRx := 0, pay := none, outValid := false }
    (st.complete = false →
      c.turn = ⟨{ c.rx with dec := st.dec, pp := c.rx.pp + 1 }, st.env, c.events, c.marker⟩) ∧
    (st.complete = true → (st.dec.len.toNat + 9 : Int) ≤ c.rx.pp + 1 →
      c.turn = ⟨{ c.rx with dec := blank, pp := c.rx.pp + 1 }, st.env,
        c.events ++ [⟨st.dec.typ, st.dec.len, loadBytes st.dec.pay 0 st.dec.len.toNat⟩], c.rx.pp + 1⟩) ∧
    (st.complete = true → (c.rx.pp + 1 : Int) < st.dec.len.toNat + 9 →
      c.turn = ⟨{ c.rx with dec := blank, pp := c.rx.pp + 1 }, st.env, c.events, c.marker⟩)

/-- R217, and its frame: step 5 moves the bytes after the marker to offset 0, writes no other offset, and takes the
marker from both cursors; with no frame delivered nothing moves. -/
def Obligations.StepFiveRemovesDeliveredPrefix : Prop :=
  ∀ (r : Rx) (marker : Nat), HasStore r.buf r.cap → marker ≤ r.wp → r.wp ≤ r.cap →
    (marker = 0 → r.dropPrefix marker = r) ∧
    (r.dropPrefix marker).wp = r.wp - marker ∧ (r.dropPrefix marker).pp = r.pp - marker ∧
    (r.dropPrefix marker).cap = r.cap ∧ (r.dropPrefix marker).live = r.live ∧
    (r.dropPrefix marker).dec = r.dec ∧ HasStore (r.dropPrefix marker).buf r.cap ∧
    loadBytes (r.dropPrefix marker).buf 0 (r.wp - marker) = loadBytes r.buf marker (r.wp - marker) ∧
    (∀ a, r.wp - marker ≤ a → (storeOf (r.dropPrefix marker).buf).read a = (storeOf r.buf).read a)

/-- R219 (which the spec derives), and RX_APPEND's frame on memory: an append without capacity pressure leaves in the
buffer the bytes that arrived after the end of the last frame it delivered, which is where the scan's marker stands
(R215), and all of them where it delivered none, where also every byte buffered before reads as before. Offsets past
both the bytes left and the appended bytes read as before in any case. -/
def Obligations.BufferHoldsBytesAfterLastFrame : Prop :=
  ∀ (k : Byte) (data : Bytes) (s : State) (r : Rx) (m : Memory), s.Inv → s.rxAt k = some r → r.live = true →
    r.buf = some m → r.wp + data.length ≤ r.cap →
    let events := (scanAll (r.put data) s.env).events
    let removed := (scanAll (r.put data) s.env).marker
    ∃ t r' m', exec (.rxAppend k data) s = .next t ∧ t.rxAt k = some r' ∧ r'.buf = some m' ∧
      t.out = s.out ++ [appendResponse 0 events] ∧ r'.cap = r.cap ∧ r'.pp = r'.wp ∧
      removed ≤ r.wp + data.length ∧ r'.wp = r.wp + data.length - removed ∧
      m'.readBytes 0 r'.wp = (m.readBytes 0 r.wp ++ data).drop removed ∧
      (∀ a, (r'.wp ≤ a ∧ a < r.wp) ∨ r.wp + data.length ≤ a → m'.read a = m.read a) ∧
      (events = [] → removed = 0 ∧ ∀ a, a < r.wp → m'.read a = m.read a) ∧
      (events ≠ [] → 0 < removed)

/-- R204's corner case: appending no bytes answers dropped 0, count 0, and changes nothing. -/
def Obligations.AppendOfNothingChangesNothing : Prop :=
  ∀ (k : Byte) (s : State) (r : Rx), s.Inv → s.rxAt k = some r → r.live = true →
    exec (.rxAppend k []) s = .next { s with out := s.out ++ [[0, 0, 0, 0, 0, 0, 0, 0, 0]] }

/-- R222 (which the spec derives), for one append: a receiver looking for a header, with room for the whole frame,
delivers it as exactly one event and is empty afterwards. -/
def Obligations.WholeFrameIsDelivered : Prop :=
  ∀ (k t : Byte) (p : Bytes) (s : State) (r : Rx), s.Inv → s.rxAt k = some r → r.live = true →
    r.dec.st = .waitH1 → p.length ≤ 65535 → r.wp + (p.length + 9) ≤ r.cap → (p = [] ∨ s.env.answer ≠ 0) →
    ∃ u r', exec (.rxAppend k (wireFrame t p)) s = .next u ∧ u.rxAt k = some r' ∧
      u.out = s.out ++ [appendResponse 0 [⟨t, BitVec.ofNat 16 p.length, p⟩]] ∧
      r'.wp = 0 ∧ r'.pp = 0 ∧ r'.cap = r.cap ∧ r'.dec.st = .waitH1

/-- Without capacity pressure, two appends do what one append of the concatenation does: the same events in the same
order, the same cursors, decoder and draws, and the same buffered bytes (R222's ground; derived from R205 to R217). -/
def Obligations.SplittingAnAppendChangesNothing : Prop :=
  ∀ (k : Byte) (a b : Bytes) (s : State) (r : Rx), s.Inv → s.rxAt k = some r → r.live = true →
    r.wp + a.length + b.length ≤ r.cap →
    ∃ s1 s2 s12 ev1 ev2 r2 r12,
      exec (.rxAppend k a) s = .next s1 ∧ exec (.rxAppend k b) s1 = .next s2 ∧
      exec (.rxAppend k (a ++ b)) s = .next s12 ∧
      s1.out = s.out ++ [appendResponse 0 ev1] ∧ s2.out = s1.out ++ [appendResponse 0 ev2] ∧
      s12.out = s.out ++ [appendResponse 0 (ev1 ++ ev2)] ∧
      s2.rxAt k = some r2 ∧ s12.rxAt k = some r12 ∧ s2.env = s12.env ∧
      r2.wp = r12.wp ∧ r2.pp = r12.pp ∧ r2.cap = r12.cap ∧ r2.dec = r12.dec ∧
      loadBytes r2.buf 0 r2.wp = loadBytes r12.buf 0 r12.wp

/-- R222 (which the spec derives): a frame split into any non-empty pieces, appended one by one by issued commands, gives
exactly one event, with the last piece. The sufficient condition of R222 is the premise on the capacity. -/
def Obligations.FragmentsDeliverExactlyOneFrame : Prop :=
  ∀ (k t : Byte) (p : Bytes) (pieces : List Bytes) (s : State) (r : Rx), s.Inv → s.pending = [] →
    s.stopped = false → s.rxAt k = some r → r.live = true → r.dec.st = .waitH1 →
    p.length ≤ 65535 → pieces.flatten = wireFrame t p → (∀ x ∈ pieces, x ≠ []) →
    r.wp + (p.length + 9) ≤ r.cap → (p = [] ∨ s.env.answer ≠ 0) →
    ∃ u, s.afterCommands (pieces.map (Instr.rxAppend k)) = .next u ∧
      u.out = s.out ++ List.replicate (pieces.length - 1) (appendResponse 0 []) ++
        [appendResponse 0 [⟨t, BitVec.ofNat 16 p.length, p⟩]]

/-! ## Ring buffer unit (44_ringbuffer.md) -/

/-- R250, R251: as RX_INIT, with RB_MAX_CAP; an empty ring of capacity c with head and tail 0 (log 4, log 7). -/
def Obligations.RbInitCreatesRing : Prop :=
  ∀ (k : Byte) (c : Word) (s : State),
    (s.rbAt k = none → exec (.rbInit k c) s = .next { s with faulted := some .badInstance }) ∧
    (∀ b, s.rbAt k = some b → b.live = true →
      exec (.rbInit k c) s = .next { s with faulted := some .alreadyLive }) ∧
    (∀ b, s.rbAt k = some b → b.live = false → c = 0 →
      exec (.rbInit k c) s = .next { s with out := s.out ++ [[4]] }) ∧
    (∀ b, s.rbAt k = some b → b.live = false → c ≠ 0 → (s.env.answer = 0 ∨ s.par.rbMaxCap < c.toNat) →
      exec (.rbInit k c) s = .next { s with env := s.env.advance, out := s.out ++ [[1]] }) ∧
    (∀ b, s.rbAt k = some b → b.live = false → c ≠ 0 → s.env.answer ≠ 0 → c.toNat ≤ s.par.rbMaxCap →
      ∃ fill count, exec (.rbInit k c) s =
        .next { s with
          rbs := s.rbs.set k.toNat
            { live := true, cap := c.toNat, head := 0, tail := 0, length := 0, store := some ⟨c.toNat, fill, []⟩ }
          env := ⟨s.env.answers.tail, count⟩
          out := s.out ++ [[0]] })

/-- R253: RB_WRITE refuses more than the free space whole; else it writes one or two spans, advances `head` modulo the
capacity and increments `length`; `tail` is not written. -/
def Obligations.RbWriteIsAllOrNothing : Prop :=
  ∀ (k : Byte) (data : Bytes), AnswersOnLiveRb (.rbWrite k data) k fun s b =>
    if b.cap - b.length < data.length then { s with out := s.out ++ [[3]] }
    else
      let first := min data.length (b.cap - b.head)
      { s with
        rbs := s.rbs.set k.toNat { b with
          store := b.store.map fun m => (m.writeBytes b.head (data.take first)).writeBytes 0 (data.drop first)
          head := (b.head + data.length) % b.cap
          length := b.length + data.length }
        out := s.out ++ [[0]] }

/-- R254 (which the spec derives) and RB_WRITE's frame on memory: an accepted write stores `data[i]` at
`(head + i) mod cap`; every other offset of the store reads as before, and no stored offset held an unread byte. -/
def Obligations.RbWriteStoresFromHead : Prop :=
  ∀ (k : Byte) (data : Bytes) (s : State) (b : Rb) (m : Memory), s.Inv → s.rbAt k = some b → b.live = true →
    b.store = some m → data.length ≤ b.cap - b.length →
    ∃ t b' m', exec (.rbWrite k data) s = .next t ∧ t.rbAt k = some b' ∧ b'.store = some m' ∧
      (∀ i, i < data.length → some (m'.read ((b.head + i) % b.cap)) = data[i]?) ∧
      (∀ a, a < b.cap → (∀ i, i < data.length → a ≠ (b.head + i) % b.cap) → m'.read a = m.read a) ∧
      (∀ i j, i < data.length → j < b.length → (b.head + i) % b.cap ≠ (b.tail + j) % b.cap) ∧
      b'.live = true ∧ b'.cap = b.cap ∧ b'.tail = b.tail ∧ b'.contents = b.contents ++ data

/-- R255: RB_READ clamps to the bytes held, answers them from one or two spans, and advances `tail`; the store and
`head` are not written. -/
def Obligations.RbReadIsClamped : Prop :=
  ∀ (k : Byte) (m : Word), AnswersOnLiveRb (.rbRead k m) k fun s b =>
    let n := min m.toNat b.length
    let first := min n (b.cap - b.tail)
    { s with
      rbs := s.rbs.set k.toNat { b with tail := (b.tail + n) % b.cap, length := b.length - n }
      out := s.out ++ [[0] ++
        le32 (BitVec.ofNat 32 (loadBytes b.store b.tail first ++ loadBytes b.store 0 (n - first)).length) ++
        (loadBytes b.store b.tail first ++ loadBytes b.store 0 (n - first))] }

/-- R256 (which the spec derives): a read answers the n oldest unread bytes, in the order they were written, and leaves
the rest. -/
def Obligations.RbReadReturnsOldestBytes : Prop :=
  ∀ (k : Byte) (m : Word) (s : State) (b : Rb), s.Inv → s.rbAt k = some b → b.live = true →
    let n := min m.toNat b.length
    ∃ t b', exec (.rbRead k m) s = .next t ∧ t.rbAt k = some b' ∧
      t.out = s.out ++ [[0] ++ le32 (BitVec.ofNat 32 n) ++ b.contents.take n] ∧
      b'.contents = b.contents.drop n ∧ b'.store = b.store ∧ b'.head = b.head ∧ b'.cap = b.cap

/-- R257 to R260: the four queries. -/
def Obligations.RbQueriesAnswerOccupancy : Prop :=
  ∀ k : Byte,
    (AnswersOnLiveRb (.rbFreeSpace k) k fun s b =>
      { s with out := s.out ++ [[0] ++ le32 (BitVec.ofNat 32 (b.cap - b.length))] }) ∧
    (AnswersOnLiveRb (.rbUsedSpace k) k fun s b =>
      { s with out := s.out ++ [[0] ++ le32 (BitVec.ofNat 32 b.length)] }) ∧
    (AnswersOnLiveRb (.rbIsEmpty k) k fun s b =>
      { s with out := s.out ++ [[0, if b.length = 0 then 1 else 0]] }) ∧
    (AnswersOnLiveRb (.rbIsFull k) k fun s b =>
      { s with out := s.out ++ [[0, if b.length = b.cap then 1 else 0]] })

/-- R261: RB_DUMP answers the four values and the whole store in offset order, each byte as it is from 0x20 to 0x7E and
0x2E otherwise. -/
def Obligations.RbDumpRendersWholeStore : Prop :=
  ∀ k : Byte, AnswersOnLiveRb (.rbDump k) k fun s b =>
    { s with
      out := s.out ++ [[0] ++ le32 (BitVec.ofNat 32 b.cap) ++ le32 (BitVec.ofNat 32 b.head) ++
        le32 (BitVec.ofNat 32 b.tail) ++ le32 (BitVec.ofNat 32 b.length) ++
        (List.range b.cap).map fun i =>
          let x := (storeOf b.store).read i
          if 0x20 ≤ x.toNat ∧ x.toNat ≤ 0x7E then x else 0x2E] }

/-- R252: RB_DESTROY clears `live` and releases the store. That the other fields, which lose meaning, keep their values
is the model's choice (log 9). -/
def Obligations.RbDestroyReleases : Prop :=
  ∀ k : Byte, AnswersOnLiveRb (.rbDestroy k) k fun s b =>
    { s with rbs := s.rbs.set k.toNat { b with live := false, store := none }, out := s.out ++ [[0]] }

/-- R262 (which the spec derives): the values that RB_USED_SPACE and RB_FREE_SPACE answer add up to the capacity, each
exact in its u32 field; and a refused write leaves the block as it was but for its response. -/
def Obligations.UsedAndFreeAddUpToCapacity : Prop :=
  ∀ (k : Byte) (s : State) (b : Rb), s.Inv → s.rbAt k = some b → b.live = true →
    (∃ used free : Word,
      exec (.rbUsedSpace k) s = .next { s with out := s.out ++ [[0] ++ le32 used] } ∧
      exec (.rbFreeSpace k) s = .next { s with out := s.out ++ [[0] ++ le32 free] } ∧
      used.toNat + free.toNat = b.cap) ∧
    (∀ data : Bytes, b.cap - b.length < data.length →
      exec (.rbWrite k data) s = .next { s with out := s.out ++ [[3]] })

/-- R263: over any sequence of writes and reads of one ring, from an empty one, the bytes read are a prefix of the bytes
of the accepted writes. -/
def Obligations.RingIsFirstInFirstOut : Prop :=
  ∀ (k : Byte) (s : State) (b : Rb) (ops : List RingOp), s.Inv → s.rbAt k = some b → b.live = true → b.length = 0 →
    let h := ops.foldl (RingHistory.after k) ⟨s, [], []⟩
    h.got <+: h.written

/-! ## Faults, refusals, stopping (60_exceptions.md) -/

/-- R302: when each fault is raised, over all commands. A fault sets the mark with its reason; there is no response and
no other change. -/
def Obligations.EveryFaultAndItsCause : Prop :=
  ∀ (i : Instr) (s : State) (k : Byte),
    (i.decInst = some k → s.decAt k = none → exec i s = .next { s with faulted := some .badInstance }) ∧
    (i.rxInst = some k → s.rxAt k = none → exec i s = .next { s with faulted := some .badInstance }) ∧
    (i.rbInst = some k → s.rbAt k = none → exec i s = .next { s with faulted := some .badInstance }) ∧
    (∀ u, i.decInst = some k → i.isInit = false → s.decAt k = some u → u.live = false →
      exec i s = .next { s with faulted := some .notLive }) ∧
    (∀ r, i.rxInst = some k → i.isInit = false → s.rxAt k = some r → r.live = false →
      exec i s = .next { s with faulted := some .notLive }) ∧
    (∀ b, i.rbInst = some k → i.isInit = false → s.rbAt k = some b → b.live = false →
      exec i s = .next { s with faulted := some .notLive }) ∧
    (∀ r, i.rxInst = some k → i.isInit = true → s.rxAt k = some r → r.live = true →
      exec i s = .next { s with faulted := some .alreadyLive }) ∧
    (∀ b, i.rbInst = some k → i.isInit = true → s.rbAt k = some b → b.live = true →
      exec i s = .next { s with faulted := some .alreadyLive }) ∧
    (∀ d, i = .decRead k → s.decAt k = some ⟨true, d⟩ → d.outValid = false →
      exec i s = .next { s with faulted := some .noFrame })

/-- R91, with the order 1 to 4 of R304: which strings are refused under which name, and that every other string spells a
command. -/
def Obligations.RefusalsInCheckOrder : Prop :=
  (∀ cmd : Bytes, cmd.length < 2 → decode cmd = .error .badLength) ∧
  ∀ (opc inst : Byte) (body : Bytes),
    let cmd := opc :: inst :: body
    let fixedN : List Byte := [0x20, 0x22, 0x23, 0x32, 0x33, 0x43, 0x44, 0x45, 0x46, 0x47, 0x48]
    let known : List Byte := [0x01, 0x02, 0x10, 0x21, 0x30, 0x31, 0x40, 0x41, 0x42] ++ fixedN
    let n (o : Nat) : Nat :=
      (cmd.getD o 0).toNat + 2 ^ 8 * (cmd.getD (o + 1) 0).toNat + 2 ^ 16 * (cmd.getD (o + 2) 0).toNat +
        2 ^ 24 * (cmd.getD (o + 3) 0).toNat
    let total : Nat :=
      if opc ∈ fixedN then 2 else if opc = 0x21 then 3 else if opc = 0x30 ∨ opc = 0x40 ∨ opc = 0x42 then 6
      else if opc = 0x02 then 8 + n 4 else if opc = 0x10 then 7 + n 3 else 6 + n 2
    (opc ∉ known → decode cmd = .error .reservedOpc) ∧
    ((opc = 0x01 ∨ opc = 0x02 ∨ opc = 0x10) → inst ≠ 0 → decode cmd = .error .nonzeroInst) ∧
    (opc ∈ known → ((opc = 0x01 ∨ opc = 0x02 ∨ opc = 0x10) → inst = 0) → cmd.length ≠ total →
      decode cmd = .error .badLength) ∧
    (opc ∈ known → ((opc = 0x01 ∨ opc = 0x02 ∨ opc = 0x10) → inst = 0) → cmd.length = total →
      ∃ i, decode cmd = .ok i)

/-- R303: a refused command string sets the mark `refused` with its reason and changes no other state. -/
def Obligations.RefusedStringSetsTheMark : Prop :=
  ∀ (s : State) (cmd : Bytes) (rest : List Bytes) (why : Reject), s.pending = cmd :: rest → s.stopped = false →
    decode cmd = .error why → step s = .next { s with pending := rest, refused := some (.malformed why) }

/-- R316: while a mark is set, every later command is ignored; nothing but the list of issued commands changes, which is
the model's (log 2). -/
def Obligations.StoppedBlockIgnoresCommands : Prop :=
  ∀ (s : State), (s.faulted ≠ none ∨ s.refused ≠ none) →
    (s.pending = [] → step s = .next s) ∧
    (∀ cmd rest, s.pending = cmd :: rest → step s = .next { s with pending := rest })

/-- R13, R94: a command of a running block ends in exactly one way: one response and no mark; a fault, with no response
and no instance changed; or a refusal, likewise. -/
def Obligations.CommandEndsInOneOfThreeWays : Prop :=
  ∀ (s : State) (cmd : Bytes) (rest : List Bytes), s.pending = cmd :: rest → s.faulted = none → s.refused = none →
    ∃ t, step s = .next t ∧ t.pending = rest ∧ t.par = s.par ∧
      ((∃ r, t.out = s.out ++ [r] ∧ t.faulted = none ∧ t.refused = none) ∨
       (∃ why, t = { s with pending := rest, faulted := some why }) ∨
       (∃ why, t = { s with pending := rest, refused := some why }))

/-- R307: a command that answers an error status changes no instance. -/
def Obligations.ErrorStatusChangesNoInstance : Prop :=
  ∀ (i : Instr) (s t : State) (code : Byte) (fields : Bytes), exec i s = .next t →
    t.out = s.out ++ [code :: fields] → code ≠ 0 →
    fields = [] ∧ t.decs = s.decs ∧ t.rxs = s.rxs ∧ t.rbs = s.rbs ∧ t.faulted = s.faulted ∧ t.refused = s.refused

/-! ## Steps, encodings -/

/-- A step takes the oldest issued command (log 1) and, where the block is running and the string decodes, is `exec` of the
decoded command on the block without it; a string that is the encoding of a well-formed command decodes to it. -/
def Obligations.StepRunsTheDecodedCommand : Prop :=
  (∀ (s : State) (cmd : Bytes) (rest : List Bytes) (i : Instr), s.pending = cmd :: rest → s.stopped = false →
    decode cmd = .ok i → step s = exec i { s with pending := rest }) ∧
  (∀ (s : State) (rest : List Bytes) (i : Instr), s.pending = encode i :: rest → s.stopped = false → i.wf = true →
    step s = exec i { s with pending := rest })

/-- A word of the opcode table that decodes is the command that the next step runs (log 1, log 13). -/
def Obligations.TableWordIsTheNextCommand : Prop :=
  ∀ (s : State) (nbits w : Nat) (i : Instr), s.stopped = false → decodeTableWord nbits w = some i →
    step (s.withFetchWord nbits w) = exec i s

/-- Every well-formed command is the decoding of its encoding, whatever its operands (R87 to R92). -/
def Obligations.DecodeOfEncodeIsTheCommand : Prop :=
  ∀ i : Instr, i.wf = true → decode (encode i) = .ok i

/-- Every string that decodes is the encoding of the command it decodes to, which is well formed: a command has one
spelling (R87 to R92). -/
def Obligations.DecodedStringIsTheEncoding : Prop :=
  ∀ (cmd : Bytes) (i : Instr), decode cmd = .ok i → encode i = cmd ∧ i.wf = true

/-- R88, R89, with R90's opcodes: the string of each of the 20 commands, byte by byte, with every operand assembled from
its bytes. -/
def Obligations.EveryCommandHasItsEncoding : Prop :=
  ∀ (k b t c0 c1 v0 v1 v2 v3 : Byte) (data : Bytes),
    let c : Half := BitVec.ofNat 16 (c0.toNat + 2 ^ 8 * c1.toNat)
    let v : Word := BitVec.ofNat 32 (v0.toNat + 2 ^ 8 * v1.toNat + 2 ^ 16 * v2.toNat + 2 ^ 24 * v3.toNat)
    decode [0x20, k] = .ok (.decReset k) ∧
    decode [0x21, k, b] = .ok (.decParse k b) ∧
    decode [0x22, k] = .ok (.decStatus k) ∧
    decode [0x23, k] = .ok (.decRead k) ∧
    decode [0x30, k, v0, v1, v2, v3] = .ok (.rxInit k v) ∧
    decode [0x32, k] = .ok (.rxQuery k) ∧
    decode [0x33, k] = .ok (.rxDestroy k) ∧
    decode [0x40, k, v0, v1, v2, v3] = .ok (.rbInit k v) ∧
    decode [0x42, k, v0, v1, v2, v3] = .ok (.rbRead k v) ∧
    decode [0x43, k] = .ok (.rbFreeSpace k) ∧
    decode [0x44, k] = .ok (.rbUsedSpace k) ∧
    decode [0x45, k] = .ok (.rbIsEmpty k) ∧
    decode [0x46, k] = .ok (.rbIsFull k) ∧
    decode [0x47, k] = .ok (.rbDump k) ∧
    decode [0x48, k] = .ok (.rbDestroy k) ∧
    (data.length = v.toNat →
      decode ([0x01, 0x00, v0, v1, v2, v3] ++ data) = .ok (.crc16 data) ∧
      decode ([0x02, 0x00, c0, c1, v0, v1, v2, v3] ++ data) = .ok (.crc16Cont c data) ∧
      decode ([0x10, 0x00, t, v0, v1, v2, v3] ++ data) = .ok (.encode t data) ∧
      decode ([0x31, k, v0, v1, v2, v3] ++ data) = .ok (.rxAppend k data) ∧
      decode ([0x41, k, v0, v1, v2, v3] ++ data) = .ok (.rbWrite k data))

/-- R98's worked encodings and refusals. -/
def Obligations.WorkedEncodings : Prop :=
  decode [0x21, 0x00, 0x55] = .ok (.decParse 0 0x55) ∧
  decode [0x30, 0x00, 0x40, 0x00, 0x00, 0x00] = .ok (.rxInit 0 64) ∧
  decode [0x02, 0x00, 0x34, 0x12, 0x02, 0x00, 0x00, 0x00, 0x01, 0x02] = .ok (.crc16Cont 0x1234 [0x01, 0x02]) ∧
  decode [0x10, 0x00, 0x01, 0x02, 0x00, 0x00, 0x00, 0x68, 0x69] = .ok (.encode 1 [0x68, 0x69]) ∧
  decode [0x42, 0x02, 0x05, 0x00, 0x00, 0x00] = .ok (.rbRead 2 5) ∧
  decode [0x46, 0x00] = .ok (.rbIsFull 0) ∧
  decode [0x01, 0x05, 0x00, 0x00, 0x00, 0x00] = .error .nonzeroInst ∧
  decode [0x01, 0x00, 0x03, 0x00, 0x00, 0x00, 0xAA] = .error .badLength ∧
  decode [0x24, 0x00] = .error .reservedOpc

/-! ## The block -/

/-- R41, and the other power-on values that R331 gives: no instance is live, both marks are 0, no ring or receiver store
exists, and no standalone decoder holds a payload buffer or a readable frame. There are 1 to 256 instances of each unit
(R7; the counts are open constants, log 6). -/
def Obligations.PowerOnState : Prop :=
  State.reset.faulted = none ∧ State.reset.refused = none ∧
  (∀ u ∈ State.reset.decs, u.live = false ∧ u.dec.pay = none ∧ u.dec.outValid = false) ∧
  (∀ r ∈ State.reset.rxs, r.live = false ∧ r.buf = none) ∧
  (∀ b ∈ State.reset.rbs, b.live = false ∧ b.store = none) ∧
  (1 ≤ State.reset.decs.length ∧ State.reset.decs.length ≤ 256) ∧
  (1 ≤ State.reset.rxs.length ∧ State.reset.rxs.length ≤ 256) ∧
  (1 ≤ State.reset.rbs.length ∧ State.reset.rbs.length ≤ 256)

/-- The invariant of R28, R32, R36 and R218 (Sys2Proof/Safety.lean) holds at power-on, with the values of log 8 and the
parameters of log 6. -/
def Obligations.InvariantHoldsAtPowerOn : Prop := State.reset.Inv

/-- From every state that meets the invariant, a step gives a state that meets it (R28, R32, R36, R218; the canonical
form of a store is the model's, log 7). -/
def Obligations.StepKeepsInvariant : Prop :=
  ∀ s t : State, s.Inv → step s = .next t → t.Inv

/-- R67: the query commands change no state but the responses, where they do not fault; and issued again they answer the
same. -/
def Obligations.QueriesChangeNothing : Prop :=
  ∀ (i : Instr) (s : State), i.isQuery = true →
    (∃ r, exec i s = .next { s with out := s.out ++ [r] } ∧
      exec i { s with out := s.out ++ [r] } = .next { s with out := s.out ++ [r] ++ [r] }) ∨
    (∃ why, exec i s = .next { s with faulted := some why })

/-- R22 and the frame of every command: it changes at most the one instance it addresses, so every field and every stored
byte of every other instance is as before; the parameters, the issued commands, the mark `refused` and the instance
counts are as before; and only ENCODE, DEC_PARSE, RX_INIT, RX_APPEND and RB_INIT draw. -/
def Obligations.CommandChangesOnlyItsInstance : Prop :=
  ∀ (i : Instr) (s t : State), exec i s = .next t →
    t.pending = s.pending ∧ t.par = s.par ∧ t.refused = s.refused ∧
    t.decs.length = s.decs.length ∧ t.rxs.length = s.rxs.length ∧ t.rbs.length = s.rbs.length ∧
    (∀ k, i.decInst ≠ some k → t.decAt k = s.decAt k) ∧
    (∀ k, i.rxInst ≠ some k → t.rxAt k = s.rxAt k) ∧
    (∀ k, i.rbInst ≠ some k → t.rbAt k = s.rbAt k) ∧
    ((∀ ty d, i ≠ .encode ty d) → (∀ k b, i ≠ .decParse k b) → (∀ k h, i ≠ .rxInit k h) →
      (∀ k d, i ≠ .rxAppend k d) → (∀ k c, i ≠ .rbInit k c) → t.env = s.env)

/-- R75, R40: a response once given never changes, and a mark once set is never cleared, whatever the step. -/
def Obligations.ResponsesAndMarksAreKept : Prop :=
  ∀ s t : State, step s = .next t →
    s.out <+: t.out ∧ (∀ why, s.faulted = some why → t.faulted = some why) ∧
      (∀ why, s.refused = some why → t.refused = some why)
end

