-- ==== Sys2Proof/Laws/Bytes.lean ====
section
/-! SUPPORT. The byte-order helpers: splitting and assembling are inverse, and the high-byte OR is an addition. -/

namespace Sys2Proof

@[simp] theorem lo8_toNat (v : Half) : (lo8 v).toNat = v.toNat % 256 := by simp [lo8]

@[simp] theorem hi8_toNat (v : Half) : (hi8 v).toNat = v.toNat / 256 := by
  have := v.isLt
  simp only [hi8, BitVec.toNat_ofNat]
  omega

@[simp] theorem le16_length (v : Half) : (le16 v).length = 2 := rfl
@[simp] theorem le32_length (v : Word) : (le32 v).length = 4 := rfl

/-- R89's `c` of a split u16 is that u16. -/
@[simp] theorem u16OfBytes_split (v : Half) : u16OfBytes (lo8 v) (hi8 v) = v := by
  apply BitVec.eq_of_toNat_eq
  have := v.isLt
  simp only [u16OfBytes, BitVec.toNat_ofNat, lo8_toNat, hi8_toNat]
  omega

/-- R89's `v` and `n` of a split u32 is that u32. -/
@[simp] theorem u32OfBytes_split (v : Word) :
    u32OfBytes (BitVec.ofNat 8 v.toNat) (BitVec.ofNat 8 (v.toNat / 2 ^ 8)) (BitVec.ofNat 8 (v.toNat / 2 ^ 16))
      (BitVec.ofNat 8 (v.toNat / 2 ^ 24)) = v := by
  apply BitVec.eq_of_toNat_eq
  have := v.isLt
  simp only [u32OfBytes, BitVec.toNat_ofNat]
  omega

theorem u16OfBytes_toNat (a b : Byte) : (u16OfBytes a b).toNat = a.toNat + 256 * b.toNat := by
  have := a.isLt; have := b.isLt
  simp only [u16OfBytes, BitVec.toNat_ofNat]
  omega

theorem u32OfBytes_toNat (a b c d : Byte) :
    (u32OfBytes a b c d).toNat = a.toNat + 2 ^ 8 * b.toNat + 2 ^ 16 * c.toNat + 2 ^ 24 * d.toNat := by
  have := a.isLt; have := b.isLt; have := c.isLt; have := d.isLt
  simp only [u32OfBytes, BitVec.toNat_ofNat]
  omega

/-- Splitting an assembled u16 gives its bytes. -/
@[simp] theorem le16_u16OfBytes (a b : Byte) : le16 (u16OfBytes a b) = [a, b] := by
  have ha := a.isLt; have hb := b.isLt
  simp only [le16, List.cons.injEq, and_true]
  constructor <;> apply BitVec.eq_of_toNat_eq
  · rw [lo8_toNat, u16OfBytes_toNat]; omega
  · rw [hi8_toNat, u16OfBytes_toNat]; omega

/-- Splitting an assembled u32 gives its bytes. -/
@[simp] theorem le32_u32OfBytes (a b c d : Byte) : le32 (u32OfBytes a b c d) = [a, b, c, d] := by
  have ha := a.isLt; have hb := b.isLt; have hc := c.isLt; have hd := d.isLt
  simp only [le32, u32OfBytes_toNat, List.cons.injEq, and_true]
  refine ⟨?_, ?_, ?_, ?_⟩ <;> apply BitVec.eq_of_toNat_eq <;> rw [BitVec.toNat_ofNat] <;> omega

namespace Machine

/-- The OR of R164 and R167 adds 256 times the byte where the low byte alone is held (42_decoder.md R174). -/
theorem withHighByte_toNat {v : Half} (h : v.toNat < 2 ^ 8) (b : Byte) :
    (withHighByte v b).toNat = v.toNat + 256 * b.toNat := by
  have hb := b.isLt
  have hs : (b.zeroExtend 16 <<< 8 : Half).toNat = b.toNat <<< 8 := by
    simp only [BitVec.toNat_shiftLeft, BitVec.toNat_setWidth, Nat.shiftLeft_eq]
    omega
  rw [withHighByte, BitVec.toNat_or, hs, Nat.or_comm, ← Nat.shiftLeft_add_eq_or_of_lt h, Nat.shiftLeft_eq]
  omega

/-- Low byte then high byte of a u16 assemble to it (42_decoder.md R164, R167). -/
theorem withHighByte_split (v : Half) : withHighByte ((lo8 v).zeroExtend 16) (hi8 v) = v := by
  apply BitVec.eq_of_toNat_eq
  have hlt : ((lo8 v).zeroExtend 16 : Half).toNat = v.toNat % 256 := by
    simp only [BitVec.toNat_setWidth, lo8_toNat]; omega
  rw [withHighByte_toNat (by omega), hlt, hi8_toNat]
  omega

/-- The bytes that R164 and R167 accumulate are the split of what they accumulate to. -/
theorem le16_withHighByte (a b : Byte) : le16 (withHighByte (a.zeroExtend 16) b) = [a, b] := by
  have ha := a.isLt
  have : withHighByte (a.zeroExtend 16) b = u16OfBytes a b := by
    apply BitVec.eq_of_toNat_eq
    have hz : (a.zeroExtend 16 : Half).toNat = a.toNat := by simp only [BitVec.toNat_setWidth]; omega
    rw [withHighByte_toNat (by omega), u16OfBytes_toNat, hz]
  rw [this, le16_u16OfBytes]

end Machine
end Sys2Proof
end

