-- ==== Sys2Proof/Laws/State.lean ====
section
/-! SUPPORT. One lemma per field of State per update of Sys2Proof/Machine/Ops.lean, each true by rfl. -/

namespace Sys2Proof.Machine
namespace State

variable (s : State)

@[simp] theorem respond_pending (r : Bytes) : (s.respond r).pending = s.pending := rfl
@[simp] theorem respond_out (r : Bytes) : (s.respond r).out = s.out ++ [r] := rfl
@[simp] theorem respond_faulted (r : Bytes) : (s.respond r).faulted = s.faulted := rfl
@[simp] theorem respond_refused (r : Bytes) : (s.respond r).refused = s.refused := rfl
@[simp] theorem respond_decs (r : Bytes) : (s.respond r).decs = s.decs := rfl
@[simp] theorem respond_rxs (r : Bytes) : (s.respond r).rxs = s.rxs := rfl
@[simp] theorem respond_rbs (r : Bytes) : (s.respond r).rbs = s.rbs := rfl
@[simp] theorem respond_env (r : Bytes) : (s.respond r).env = s.env := rfl
@[simp] theorem respond_par (r : Bytes) : (s.respond r).par = s.par := rfl

@[simp] theorem setEnv_pending (e : Env) : (s.setEnv e).pending = s.pending := rfl
@[simp] theorem setEnv_out (e : Env) : (s.setEnv e).out = s.out := rfl
@[simp] theorem setEnv_faulted (e : Env) : (s.setEnv e).faulted = s.faulted := rfl
@[simp] theorem setEnv_refused (e : Env) : (s.setEnv e).refused = s.refused := rfl
@[simp] theorem setEnv_decs (e : Env) : (s.setEnv e).decs = s.decs := rfl
@[simp] theorem setEnv_rxs (e : Env) : (s.setEnv e).rxs = s.rxs := rfl
@[simp] theorem setEnv_rbs (e : Env) : (s.setEnv e).rbs = s.rbs := rfl
@[simp] theorem setEnv_env (e : Env) : (s.setEnv e).env = e := rfl
@[simp] theorem setEnv_par (e : Env) : (s.setEnv e).par = s.par := rfl

@[simp] theorem setDec_pending (k : Byte) (d : DecUnit) : (s.setDec k d).pending = s.pending := rfl
@[simp] theorem setDec_out (k : Byte) (d : DecUnit) : (s.setDec k d).out = s.out := rfl
@[simp] theorem setDec_faulted (k : Byte) (d : DecUnit) : (s.setDec k d).faulted = s.faulted := rfl
@[simp] theorem setDec_refused (k : Byte) (d : DecUnit) : (s.setDec k d).refused = s.refused := rfl
@[simp] theorem setDec_decs (k : Byte) (d : DecUnit) : (s.setDec k d).decs = s.decs.set k.toNat d := rfl
@[simp] theorem setDec_rxs (k : Byte) (d : DecUnit) : (s.setDec k d).rxs = s.rxs := rfl
@[simp] theorem setDec_rbs (k : Byte) (d : DecUnit) : (s.setDec k d).rbs = s.rbs := rfl
@[simp] theorem setDec_env (k : Byte) (d : DecUnit) : (s.setDec k d).env = s.env := rfl
@[simp] theorem setDec_par (k : Byte) (d : DecUnit) : (s.setDec k d).par = s.par := rfl

@[simp] theorem setRx_pending (k : Byte) (r : Rx) : (s.setRx k r).pending = s.pending := rfl
@[simp] theorem setRx_out (k : Byte) (r : Rx) : (s.setRx k r).out = s.out := rfl
@[simp] theorem setRx_faulted (k : Byte) (r : Rx) : (s.setRx k r).faulted = s.faulted := rfl
@[simp] theorem setRx_refused (k : Byte) (r : Rx) : (s.setRx k r).refused = s.refused := rfl
@[simp] theorem setRx_decs (k : Byte) (r : Rx) : (s.setRx k r).decs = s.decs := rfl
@[simp] theorem setRx_rxs (k : Byte) (r : Rx) : (s.setRx k r).rxs = s.rxs.set k.toNat r := rfl
@[simp] theorem setRx_rbs (k : Byte) (r : Rx) : (s.setRx k r).rbs = s.rbs := rfl
@[simp] theorem setRx_env (k : Byte) (r : Rx) : (s.setRx k r).env = s.env := rfl
@[simp] theorem setRx_par (k : Byte) (r : Rx) : (s.setRx k r).par = s.par := rfl

@[simp] theorem setRb_pending (k : Byte) (b : Rb) : (s.setRb k b).pending = s.pending := rfl
@[simp] theorem setRb_out (k : Byte) (b : Rb) : (s.setRb k b).out = s.out := rfl
@[simp] theorem setRb_faulted (k : Byte) (b : Rb) : (s.setRb k b).faulted = s.faulted := rfl
@[simp] theorem setRb_refused (k : Byte) (b : Rb) : (s.setRb k b).refused = s.refused := rfl
@[simp] theorem setRb_decs (k : Byte) (b : Rb) : (s.setRb k b).decs = s.decs := rfl
@[simp] theorem setRb_rxs (k : Byte) (b : Rb) : (s.setRb k b).rxs = s.rxs := rfl
@[simp] theorem setRb_rbs (k : Byte) (b : Rb) : (s.setRb k b).rbs = s.rbs.set k.toNat b := rfl
@[simp] theorem setRb_env (k : Byte) (b : Rb) : (s.setRb k b).env = s.env := rfl
@[simp] theorem setRb_par (k : Byte) (b : Rb) : (s.setRb k b).par = s.par := rfl

@[simp] theorem takeCommand_pending : (s.takeCommand).pending = s.pending.tail := rfl
@[simp] theorem takeCommand_out : (s.takeCommand).out = s.out := rfl
@[simp] theorem takeCommand_faulted : (s.takeCommand).faulted = s.faulted := rfl
@[simp] theorem takeCommand_refused : (s.takeCommand).refused = s.refused := rfl
@[simp] theorem takeCommand_decs : (s.takeCommand).decs = s.decs := rfl
@[simp] theorem takeCommand_rxs : (s.takeCommand).rxs = s.rxs := rfl
@[simp] theorem takeCommand_rbs : (s.takeCommand).rbs = s.rbs := rfl
@[simp] theorem takeCommand_env : (s.takeCommand).env = s.env := rfl
@[simp] theorem takeCommand_par : (s.takeCommand).par = s.par := rfl

@[simp] theorem raiseFault_pending (f : Fault) : (s.raiseFault f).pending = s.pending := rfl
@[simp] theorem raiseFault_out (f : Fault) : (s.raiseFault f).out = s.out := rfl
@[simp] theorem raiseFault_faulted (f : Fault) : (s.raiseFault f).faulted = some f := rfl
@[simp] theorem raiseFault_refused (f : Fault) : (s.raiseFault f).refused = s.refused := rfl
@[simp] theorem raiseFault_decs (f : Fault) : (s.raiseFault f).decs = s.decs := rfl
@[simp] theorem raiseFault_rxs (f : Fault) : (s.raiseFault f).rxs = s.rxs := rfl
@[simp] theorem raiseFault_rbs (f : Fault) : (s.raiseFault f).rbs = s.rbs := rfl
@[simp] theorem raiseFault_env (f : Fault) : (s.raiseFault f).env = s.env := rfl
@[simp] theorem raiseFault_par (f : Fault) : (s.raiseFault f).par = s.par := rfl

@[simp] theorem raiseRefusal_pending (f : Refusal) : (s.raiseRefusal f).pending = s.pending := rfl
@[simp] theorem raiseRefusal_out (f : Refusal) : (s.raiseRefusal f).out = s.out := rfl
@[simp] theorem raiseRefusal_faulted (f : Refusal) : (s.raiseRefusal f).faulted = s.faulted := rfl
@[simp] theorem raiseRefusal_refused (f : Refusal) : (s.raiseRefusal f).refused = some f := rfl
@[simp] theorem raiseRefusal_decs (f : Refusal) : (s.raiseRefusal f).decs = s.decs := rfl
@[simp] theorem raiseRefusal_rxs (f : Refusal) : (s.raiseRefusal f).rxs = s.rxs := rfl
@[simp] theorem raiseRefusal_rbs (f : Refusal) : (s.raiseRefusal f).rbs = s.rbs := rfl
@[simp] theorem raiseRefusal_env (f : Refusal) : (s.raiseRefusal f).env = s.env := rfl
@[simp] theorem raiseRefusal_par (f : Refusal) : (s.raiseRefusal f).par = s.par := rfl

/-! Instances are read from the unit's own list. -/

theorem decAt_congr {s t : State} (h : t.decs = s.decs) (k : Byte) : t.decAt k = s.decAt k := by simp [decAt, h]
theorem rxAt_congr {s t : State} (h : t.rxs = s.rxs) (k : Byte) : t.rxAt k = s.rxAt k := by simp [rxAt, h]
theorem rbAt_congr {s t : State} (h : t.rbs = s.rbs) (k : Byte) : t.rbAt k = s.rbAt k := by simp [rbAt, h]

/-- An instance just set is read back. -/
theorem decAt_setDec {s : State} {k : Byte} {u : DecUnit} (h : s.decAt k = some u) (d : DecUnit) :
    (s.setDec k d).decAt k = some d := by
  have := (List.getElem?_eq_some_iff.mp h).1
  simp [decAt, this]

theorem rxAt_setRx {s : State} {k : Byte} {u : Rx} (h : s.rxAt k = some u) (r : Rx) :
    (s.setRx k r).rxAt k = some r := by
  have := (List.getElem?_eq_some_iff.mp h).1
  simp [rxAt, this]

theorem rbAt_setRb {s : State} {k : Byte} {u : Rb} (h : s.rbAt k = some u) (b : Rb) :
    (s.setRb k b).rbAt k = some b := by
  have := (List.getElem?_eq_some_iff.mp h).1
  simp [rbAt, this]

/-- Setting one instance leaves every other one alone (10_state.md R22). -/
theorem decAt_setDec_ne {k j : Byte} (h : j ≠ k) (d : DecUnit) : (s.setDec k d).decAt j = s.decAt j := by
  have : k.toNat ≠ j.toNat := fun e => h (BitVec.eq_of_toNat_eq e.symm)
  simp [decAt, List.getElem?_set_ne this]

theorem rxAt_setRx_ne {k j : Byte} (h : j ≠ k) (r : Rx) : (s.setRx k r).rxAt j = s.rxAt j := by
  have : k.toNat ≠ j.toNat := fun e => h (BitVec.eq_of_toNat_eq e.symm)
  simp [rxAt, List.getElem?_set_ne this]

theorem rbAt_setRb_ne {k j : Byte} (h : j ≠ k) (b : Rb) : (s.setRb k b).rbAt j = s.rbAt j := by
  have : k.toNat ≠ j.toNat := fun e => h (BitVec.eq_of_toNat_eq e.symm)
  simp [rbAt, List.getElem?_set_ne this]

end State
end Sys2Proof.Machine
end

