-- ==== Sys2Proof/Laws/Checks.lean ====
section
/-! SUPPORT. The instance and liveness checks of 60_exceptions.md R304: what each answers, case by case, and one lemma
per check that says every case at once. -/

namespace Sys2Proof.Machine

variable {k : Byte} {s : State}

/-! ## Decoders -/

theorem onDec_absent {f : DecUnit → State} (h : s.decAt k = none) : onDec k s f = s.raiseFault .badInstance := by
  simp [onDec, h]

theorem onDec_present {f : DecUnit → State} {u : DecUnit} (h : s.decAt k = some u) : onDec k s f = f u := by
  simp [onDec, h]

theorem onLiveDec_live {f : Dec → State} {d : Dec} (h : s.decAt k = some ⟨true, d⟩) : onLiveDec k s f = f d := by
  simp [onLiveDec, onDec, h]

theorem onLiveDec_cases (k : Byte) (s : State) (f : Dec → State) :
    (s.decAt k = none ∧ onLiveDec k s f = s.raiseFault .badInstance) ∨
    (∃ u, s.decAt k = some u ∧ u.live = false ∧ onLiveDec k s f = s.raiseFault .notLive) ∨
    (∃ d, s.decAt k = some ⟨true, d⟩ ∧ onLiveDec k s f = f d) := by
  match h : s.decAt k with
  | none => exact .inl ⟨rfl, by simp [onLiveDec, onDec, h]⟩
  | some ⟨false, d⟩ => exact .inr (.inl ⟨_, rfl, rfl, by simp [onLiveDec, onDec, h]⟩)
  | some ⟨true, d⟩ => exact .inr (.inr ⟨d, rfl, by simp [onLiveDec, onDec, h]⟩)

/-! ## Receivers -/

theorem onLiveRx_live {f : Rx → State} {r : Rx} (h : s.rxAt k = some r) (hl : r.live = true) :
    onLiveRx k s f = f r := by simp [onLiveRx, onRx, h, hl]

theorem onNewRx_dead {f : Rx → State} {r : Rx} (h : s.rxAt k = some r) (hl : r.live = false) :
    onNewRx k s f = f r := by simp [onNewRx, onRx, h, hl]

theorem onLiveRx_cases (k : Byte) (s : State) (f : Rx → State) :
    (s.rxAt k = none ∧ onLiveRx k s f = s.raiseFault .badInstance) ∨
    (∃ r, s.rxAt k = some r ∧ r.live = false ∧ onLiveRx k s f = s.raiseFault .notLive) ∨
    (∃ r, s.rxAt k = some r ∧ r.live = true ∧ onLiveRx k s f = f r) := by
  cases h : s.rxAt k with
  | none => exact .inl ⟨rfl, by simp [onLiveRx, onRx, h]⟩
  | some r =>
    cases hl : r.live with
    | false => exact .inr (.inl ⟨r, rfl, hl, by simp [onLiveRx, onRx, h, hl]⟩)
    | true => exact .inr (.inr ⟨r, rfl, hl, by simp [onLiveRx, onRx, h, hl]⟩)

theorem onNewRx_cases (k : Byte) (s : State) (f : Rx → State) :
    (s.rxAt k = none ∧ onNewRx k s f = s.raiseFault .badInstance) ∨
    (∃ r, s.rxAt k = some r ∧ r.live = true ∧ onNewRx k s f = s.raiseFault .alreadyLive) ∨
    (∃ r, s.rxAt k = some r ∧ r.live = false ∧ onNewRx k s f = f r) := by
  cases h : s.rxAt k with
  | none => exact .inl ⟨rfl, by simp [onNewRx, onRx, h]⟩
  | some r =>
    cases hl : r.live with
    | true => exact .inr (.inl ⟨r, rfl, hl, by simp [onNewRx, onRx, h, hl]⟩)
    | false => exact .inr (.inr ⟨r, rfl, hl, by simp [onNewRx, onRx, h, hl]⟩)

/-! ## Rings -/

theorem onLiveRb_live {f : Rb → State} {b : Rb} (h : s.rbAt k = some b) (hl : b.live = true) :
    onLiveRb k s f = f b := by simp [onLiveRb, onRb, h, hl]

theorem onNewRb_dead {f : Rb → State} {b : Rb} (h : s.rbAt k = some b) (hl : b.live = false) :
    onNewRb k s f = f b := by simp [onNewRb, onRb, h, hl]

theorem onLiveRb_cases (k : Byte) (s : State) (f : Rb → State) :
    (s.rbAt k = none ∧ onLiveRb k s f = s.raiseFault .badInstance) ∨
    (∃ b, s.rbAt k = some b ∧ b.live = false ∧ onLiveRb k s f = s.raiseFault .notLive) ∨
    (∃ b, s.rbAt k = some b ∧ b.live = true ∧ onLiveRb k s f = f b) := by
  cases h : s.rbAt k with
  | none => exact .inl ⟨rfl, by simp [onLiveRb, onRb, h]⟩
  | some b =>
    cases hl : b.live with
    | false => exact .inr (.inl ⟨b, rfl, hl, by simp [onLiveRb, onRb, h, hl]⟩)
    | true => exact .inr (.inr ⟨b, rfl, hl, by simp [onLiveRb, onRb, h, hl]⟩)

theorem onNewRb_cases (k : Byte) (s : State) (f : Rb → State) :
    (s.rbAt k = none ∧ onNewRb k s f = s.raiseFault .badInstance) ∨
    (∃ b, s.rbAt k = some b ∧ b.live = true ∧ onNewRb k s f = s.raiseFault .alreadyLive) ∨
    (∃ b, s.rbAt k = some b ∧ b.live = false ∧ onNewRb k s f = f b) := by
  cases h : s.rbAt k with
  | none => exact .inl ⟨rfl, by simp [onNewRb, onRb, h]⟩
  | some b =>
    cases hl : b.live with
    | true => exact .inr (.inl ⟨b, rfl, hl, by simp [onNewRb, onRb, h, hl]⟩)
    | false => exact .inr (.inr ⟨b, rfl, hl, by simp [onNewRb, onRb, h, hl]⟩)

end Sys2Proof.Machine
end

