-- ==== Sys2Proof/Laws/Memory.lean ====
section
/-! SUPPORT. Byte stores: a read after a write, what a span of writes and reads does, and that every operation keeps
the canonical form. -/

namespace Sys2Proof.Machine

/-! ## Cells -/

theorem lookup_cons_cell (x k : Nat) (v : Byte) (cs : List Host.Cell) :
    List.lookup x ((k, v) :: cs) = if x = k then some v else cs.lookup x := by
  by_cases h : x = k
  · subst h; simp
  · have : (x == k) = false := by simpa using h
    simp [List.lookup, this, h]

theorem lookup_insertCell (a x : Nat) (b : Byte) (cs : List Host.Cell) :
    (insertCell a b cs).lookup x = if x = a then some b else cs.lookup x := by
  induction cs with
  | nil => exact lookup_cons_cell x a b []
  | cons c rest ih =>
    obtain ⟨k, v⟩ := c
    simp only [insertCell]
    split
    · exact lookup_cons_cell x a b _
    · split
      · next he =>
        subst he
        simp only [lookup_cons_cell]
        split <;> rfl
      · next hne =>
        simp only [lookup_cons_cell, ih]
        by_cases hx : x = k
        · simp [hx, Ne.symm hne]
        · simp [hx]

theorem head_le_insertCell {a k : Nat} {b : Byte} {cs : List Host.Cell} (hk : k < a)
    (h : ∀ c ∈ cs.head?, k < c.1) : ∀ c ∈ (insertCell a b cs).head?, k < c.1 := by
  cases cs with
  | nil => simpa [insertCell] using hk
  | cons c rest =>
    simp only [insertCell]
    split
    · simpa using hk
    · split
      · simpa using hk
      · simpa using h

theorem risingKeys_cons {c : Host.Cell} {cs : List Host.Cell} :
    risingKeys (c :: cs) = true ↔ (∀ d ∈ cs.head?, c.1 < d.1) ∧ risingKeys cs = true := by
  cases cs with
  | nil => simp [risingKeys]
  | cons d rest => simp [risingKeys]

theorem risingKeys_insertCell (a : Nat) (b : Byte) (cs : List Host.Cell) (h : risingKeys cs = true) :
    risingKeys (insertCell a b cs) = true := by
  induction cs with
  | nil => rfl
  | cons c rest ih =>
    obtain ⟨hd, hr⟩ := risingKeys_cons.mp h
    simp only [insertCell]
    split
    · next hlt => exact risingKeys_cons.mpr ⟨by simpa using hlt, h⟩
    · split
      · next he => exact risingKeys_cons.mpr ⟨by simpa [he] using hd, hr⟩
      · next hlt hne => exact risingKeys_cons.mpr ⟨head_le_insertCell (by omega) hd, ih hr⟩

theorem all_insertCell {n a : Nat} (b : Byte) (cs : List Host.Cell) (ha : a < n)
    (h : cs.all (fun c => decide (c.1 < n)) = true) :
    (insertCell a b cs).all (fun c => decide (c.1 < n)) = true := by
  induction cs with
  | nil => simpa [insertCell] using ha
  | cons c rest ih =>
    simp only [List.all_cons, Bool.and_eq_true] at h
    simp only [insertCell]
    split
    · simp [ha, h]
    · split
      · simp [ha, h]
      · simp only [List.all_cons, Bool.and_eq_true]; exact ⟨h.1, ih h.2⟩

namespace Memory

/-! ## Canonical form -/

theorem wf_iff {m : Memory} :
    m.wf = true ↔ risingKeys m.cells = true ∧ m.cells.all (fun c => decide (c.1 < m.size)) = true := by
  simp [wf]

theorem wf_new (n fill : Nat) : (new n fill).wf = true := rfl

theorem wf_write {m : Memory} (h : m.wf = true) (a : Nat) (b : Byte) : (m.write a b).wf = true := by
  obtain ⟨h1, h2⟩ := wf_iff.mp h
  unfold write
  split
  · next ha => exact wf_iff.mpr ⟨risingKeys_insertCell _ _ _ h1, all_insertCell b _ ha h2⟩
  · exact h

theorem wf_writeBytes {m : Memory} (h : m.wf = true) (a : Nat) (bs : Bytes) : (m.writeBytes a bs).wf = true := by
  induction bs generalizing m a with
  | nil => exact h
  | cons b bs ih => exact ih (wf_write h a b) (a + 1)

/-! ## Sizes -/

@[simp] theorem size_new (n fill : Nat) : (new n fill).size = n := rfl

@[simp] theorem size_write (m : Memory) (a : Nat) (b : Byte) : (m.write a b).size = m.size := by
  unfold write; split <;> rfl

@[simp] theorem size_writeBytes (m : Memory) (a : Nat) (bs : Bytes) : (m.writeBytes a bs).size = m.size := by
  induction bs generalizing m a with
  | nil => rfl
  | cons b bs ih => simp [writeBytes, ih]

/-! ## Reads after writes -/

theorem read_new (n fill a : Nat) : (new n fill).read a = Config.freeByte fill a := rfl

/-- One written byte reads back, and every other offset reads as before. -/
theorem read_write {m : Memory} {a : Nat} (ha : a < m.size) (b : Byte) (x : Nat) :
    (m.write a b).read x = if x = a then b else m.read x := by
  have hl := lookup_insertCell a x b m.cells
  simp only [write, ha, if_true, read, hl]
  by_cases hx : x = a <;> simp [hx, unlisted]

/-- A write outside the store writes nothing. -/
theorem write_outside {m : Memory} {a : Nat} (ha : ¬ a < m.size) (b : Byte) : m.write a b = m := by simp [write, ha]

/-- What each offset reads as after a span of writes inside the store. -/
theorem read_writeBytes {m : Memory} {a : Nat} (bs : Bytes) (hb : a + bs.length ≤ m.size)
    (x : Nat) : (m.writeBytes a bs).read x = if a ≤ x ∧ x < a + bs.length then bs.getD (x - a) 0 else m.read x := by
  induction bs generalizing m a with
  | nil => simp only [writeBytes, List.length_nil]; rw [if_neg (by omega)]
  | cons b bs ih =>
    simp only [List.length_cons] at hb
    rw [writeBytes, ih (by simp; omega), read_write (by omega)]
    simp only [List.length_cons]
    by_cases hx : x = a
    · subst hx; simp
    · by_cases h1 : a + 1 ≤ x ∧ x < a + 1 + bs.length
      · have : x - a = (x - (a + 1)) + 1 := by omega
        rw [if_pos h1, if_pos (by omega), this, List.getD_cons_succ]
      · rw [if_neg h1, if_neg hx, if_neg (by omega)]

@[simp] theorem length_readBytes (m : Memory) (a n : Nat) : (m.readBytes a n).length = n := by
  induction n generalizing a with
  | zero => rfl
  | succ n ih => simp [readBytes, ih]

/-- A span read is the bytes at its offsets, in order. -/
theorem readBytes_eq_map (m : Memory) (a n : Nat) : m.readBytes a n = (List.range n).map fun i => m.read (a + i) := by
  induction n generalizing a with
  | zero => rfl
  | succ n ih =>
    rw [readBytes, ih, List.range_succ_eq_map]
    simp only [List.map_cons, List.map_map, Nat.add_zero, List.cons.injEq, true_and]
    exact List.map_congr_left fun i _ => by simp only [Function.comp, Nat.succ_eq_add_one]; congr 1; omega

theorem getElem?_readBytes (m : Memory) (a n i : Nat) :
    (m.readBytes a n)[i]? = if i < n then some (m.read (a + i)) else none := by
  rw [readBytes_eq_map]
  by_cases h : i < n <;> simp [h]

theorem readBytes_congr {m m' : Memory} {a a' n : Nat} (h : ∀ i, i < n → m.read (a + i) = m'.read (a' + i)) :
    m.readBytes a n = m'.readBytes a' n := by
  simp only [readBytes_eq_map]
  exact List.map_congr_left fun i hi => h i (List.mem_range.mp hi)

/-- A span read splits at any point. -/
theorem readBytes_add (m : Memory) (a n k : Nat) :
    m.readBytes a (n + k) = m.readBytes a n ++ m.readBytes (a + n) k := by
  induction n generalizing a with
  | zero => simp [readBytes]
  | succ n ih =>
    rw [show n + 1 + k = (n + k) + 1 by omega, readBytes, readBytes, ih]
    simp [show a + 1 + n = a + (n + 1) by omega]

/-- A span just written reads back whole. -/
theorem readBytes_writeBytes {m : Memory} {a : Nat} (bs : Bytes) (hb : a + bs.length ≤ m.size) :
    (m.writeBytes a bs).readBytes a bs.length = bs := by
  apply List.ext_getElem?
  intro i
  rw [getElem?_readBytes]
  split
  · next hi => rw [read_writeBytes bs hb, if_pos (by omega)]; simp [hi]
  · next hi => simp; omega

/-- A span read outside the written span reads as before. -/
theorem readBytes_writeBytes_outside {m : Memory} {a : Nat} (bs : Bytes)
    (hb : a + bs.length ≤ m.size) {x n : Nat} (hx : x + n ≤ a ∨ a + bs.length ≤ x) :
    (m.writeBytes a bs).readBytes x n = m.readBytes x n :=
  readBytes_congr fun i hi => by rw [read_writeBytes bs hb, if_neg (by omega)]

end Memory

/-! ## Stores of an instance -/

@[simp] theorem storeOf_some (m : Memory) : storeOf (some m) = m := rfl
@[simp] theorem storeBytes_some (m : Memory) (a : Nat) (bs : Bytes) :
    storeBytes (some m) a bs = some (m.writeBytes a bs) := rfl
@[simp] theorem storeBytes_none (a : Nat) (bs : Bytes) : storeBytes none a bs = none := rfl
@[simp] theorem loadBytes_some (m : Memory) (a n : Nat) : loadBytes (some m) a n = m.readBytes a n := rfl
@[simp] theorem length_loadBytes (m : Option Memory) (a n : Nat) : (loadBytes m a n).length = n := by
  simp [loadBytes]

end Sys2Proof.Machine
end

