-- ==== Sys2Proof/Laws/Dec.lean ====
section
/-! SUPPORT. The decoder step: what it can do to the draws and to the completion flag, and that it keeps R28's
invariant. -/

namespace Sys2Proof.Machine

/-! ## The CRC over two spans (40_crc.md R124, R125) -/

theorem crc16Cont_append (c : Half) (a b : Bytes) : crc16Cont c (a ++ b) = crc16Cont (crc16Cont c a) b :=
  List.foldl_append

theorem frameCrc_eq_twoSpans (t : Byte) (len : Half) (p : Bytes) :
    frameCrc t len p = crc16Cont (crc16 (frameHeader t len)) p := crc16Cont_append _ _ _

/-- The decoder's two-span CRC is the encoder's one-span CRC (R125). -/
theorem Dec.calcCrc_eq (d : Dec) : d.calcCrc = frameCrc d.typ d.len d.payload := (frameCrc_eq_twoSpans _ _ _).symm

@[simp] theorem Dec.length_payload (d : Dec) : d.payload.length = d.len.toNat := length_loadBytes _ _ _

@[simp] theorem length_frameHeader (t : Byte) (len : Half) : (frameHeader t len).length = 5 := rfl

/-- A wire frame has its payload's length and 9 bytes more (30_encoding.md R80, R82). -/
@[simp] theorem length_wireFrame (t : Byte) (p : Bytes) : (wireFrame t p).length = p.length + 9 := by
  simp [wireFrame]; omega

/-! ## Stores -/

theorem HasStore.new (n fill : Nat) : HasStore (some (Memory.new n fill)) n :=
  ⟨_, rfl, Memory.wf_new n fill, rfl⟩

theorem HasStore.storeBytes {m : Option Memory} {n : Nat} (h : HasStore m n) (a : Nat) (bs : Bytes) :
    HasStore (storeBytes m a bs) n := by
  obtain ⟨x, rfl, hw, rfl⟩ := h
  exact ⟨_, rfl, Memory.wf_writeBytes hw a bs, Memory.size_writeBytes x a bs⟩

theorem HasStore.moveToFront {m : Option Memory} {n : Nat} (h : HasStore m n) (a k : Nat) :
    HasStore (moveToFront m a k) n := h.storeBytes 0 _

/-! ## Reset and window -/

theorem Dec.inv_reset : Dec.reset.Inv where
  payloadCursor h := by cases h
  cursorAtEnd h := by cases h
  window h := by cases h
  payPresent h := by rcases h with h | h <;> cases h
  payAbsent _ _ := rfl
  lenLowByte h := by cases h
  crcLowByte h := by cases h

@[simp] theorem Dec.outValid_closeWindow (d : Dec) : d.closeWindow.outValid = false := by
  unfold Dec.closeWindow; split
  · rfl
  · next h => simpa using h

theorem Dec.Inv.closeWindow {d : Dec} (h : d.Inv) : d.closeWindow.Inv := by
  unfold Dec.closeWindow; split
  · exact Dec.inv_reset
  · exact h

theorem Dec.closeWindow_of_invalid {d : Dec} (h : d.outValid = false) : d.closeWindow = d := by
  simp [Dec.closeWindow, h]

/-! ## One step -/

/-- From a decoder without a readable frame, `out_valid` afterwards is the reported result (R161, R169, R171). -/
theorem decStep_outValid {d : Dec} (h : d.outValid = false) (b : Byte) (e : Env) :
    (decStep d b e).dec.outValid = (decStep d b e).complete := by
  unfold decStep
  split <;> simp only [finishLength, allocPayload, finishFrame, failStep, pendingStep, takePayload] <;>
    (try split) <;> (try split) <;> simp_all [Dec.reset]

/-- Completion is reported only in WAIT_T2, on TAIL1, with a matching CRC (R169). -/
theorem decStep_complete_iff (d : Dec) (b : Byte) (e : Env) :
    (decStep d b e).complete = true ↔ d.st = .waitT2 ∧ b = Config.tail1 ∧ d.calcCrc = d.crcRx := by
  unfold decStep
  split <;> simp only [finishLength, allocPayload, finishFrame, failStep, pendingStep] <;>
    (try split) <;> (try split) <;> simp_all

/-- What a completing step leaves (R171). -/
theorem decStep_of_complete {d : Dec} {b : Byte} {e : Env} (h : (decStep d b e).complete = true) :
    decStep d b e = ⟨{ d with st := .waitH1, outValid := true }, e, true⟩ := by
  obtain ⟨h1, h2, h3⟩ := (decStep_complete_iff d b e).mp h
  simp [decStep, h1, finishFrame, h2, h3]

/-- A step draws only at the second byte of a nonzero length (R165). -/
theorem decStep_env {d : Dec} {b : Byte} {e : Env} (h : d.st ≠ .waitLen2 ∨ withHighByte d.len b = 0) :
    (decStep d b e).env = e := by
  unfold decStep
  split <;> simp only [finishLength, finishFrame, failStep, pendingStep] <;> (try split) <;> (try split) <;>
    simp_all

theorem Dec.Inv.takePayload {d : Dec} (h : d.Inv) (hs : d.st = .payload) (hv : d.outValid = false) (b : Byte) :
    (takePayload d b).Inv := by
  have hc := h.payloadCursor hs
  have hb := d.len.isLt
  have hp := h.payPresent (.inl (by simp [hs, DecState.holdsPayload]))
  have hcur : (d.cur + 1).toNat = d.cur.toNat + 1 := by
    have h1 : (1 : Half).toNat = 1 := rfl
    rw [BitVec.toNat_add, h1]; omega
  have hpay : HasStore (Machine.takePayload d b).pay (Machine.takePayload d b).len.toNat := hp.storeBytes _ _
  have hv' : (Machine.takePayload d b).outValid = false := hv
  by_cases he : d.cur + 1 = d.len
  · have hst : (Machine.takePayload d b).st = .waitCrc1 := if_pos he
    exact { payloadCursor := by simp [hst]
            cursorAtEnd := fun _ _ => he
            window := by simp [hv']
            payPresent := fun _ => hpay
            payAbsent := by simp [hst, DecState.holdsPayload]
            lenLowByte := by simp [hst]
            crcLowByte := by simp [hst] }
  · have hst : (Machine.takePayload d b).st = .payload := if_neg he
    have hne : d.cur.toNat + 1 ≠ d.len.toNat := fun x => he (BitVec.eq_of_toNat_eq (by omega))
    exact { payloadCursor := fun _ => by show (d.cur + 1).toNat < d.len.toNat; omega
            cursorAtEnd := by simp [hst]
            window := by simp [hv']
            payPresent := fun _ => hpay
            payAbsent := by simp [hst, DecState.holdsPayload]
            lenLowByte := by simp [hst]
            crcLowByte := by simp [hst] }

/-- Every step keeps R28 (10_state.md R28). -/
theorem Dec.Inv.decStep {d : Dec} (h : d.Inv) (hv : d.outValid = false) (b : Byte) (e : Env) :
    (decStep d b e).dec.Inv := by
  have hzero : (b.zeroExtend 16 : Half).toNat < 2 ^ 8 := by
    have := b.isLt
    rw [BitVec.toNat_setWidth]; omega
  unfold Machine.decStep
  split
  next hs =>
    have := h.payAbsent (by simp [hs, DecState.holdsPayload]) hv
    by_cases hb : b = Config.hdr0
    · constructor <;> simp_all [pendingStep, DecState.holdsPayload]
    · simpa [pendingStep, hb] using h
  next hs =>
    have := h.payAbsent (by simp [hs, DecState.holdsPayload]) hv
    by_cases hb : b = Config.hdr1 <;> constructor <;> simp_all [pendingStep, DecState.holdsPayload]
  next hs =>
    have := h.payAbsent (by simp [hs, DecState.holdsPayload]) hv
    constructor <;> simp_all [pendingStep, DecState.holdsPayload]
  next hs =>
    have := h.payAbsent (by simp [hs, DecState.holdsPayload]) hv
    constructor <;> simp_all [pendingStep, DecState.holdsPayload]
  next hs =>
    simp only [finishLength]
    split
    · next hz =>
      constructor <;> simp_all [pendingStep, DecState.holdsPayload]
      exact HasStore.new 0 0
    · next hz =>
      have hpos : 0 < (withHighByte d.len b).toNat := by
        rcases Nat.eq_zero_or_pos (withHighByte d.len b).toNat with h0 | h0
        · exact absurd (BitVec.eq_of_toNat_eq (by simpa using h0)) hz
        · exact h0
      simp only [allocPayload]
      split
      · constructor <;> simp_all [pendingStep, DecState.holdsPayload]
        exact HasStore.new _ _
      · exact Dec.inv_reset
  next hs => exact h.takePayload hs hv b
  next hs =>
    have hc := h.cursorAtEnd (by simp [hs, DecState.holdsPayload]) (by simp [hs])
    have hp := h.payPresent (.inl (by simp [hs, DecState.holdsPayload]))
    constructor <;> simp_all [pendingStep, DecState.holdsPayload]
  next hs =>
    have hc := h.cursorAtEnd (by simp [hs, DecState.holdsPayload]) (by simp [hs])
    have hp := h.payPresent (.inl (by simp [hs, DecState.holdsPayload]))
    constructor <;> simp_all [pendingStep, DecState.holdsPayload]
  next hs =>
    have hc := h.cursorAtEnd (by simp [hs, DecState.holdsPayload]) (by simp [hs])
    have hp := h.payPresent (.inl (by simp [hs, DecState.holdsPayload]))
    split
    · constructor <;> simp_all [pendingStep, DecState.holdsPayload]
    · exact Dec.inv_reset
  next hs =>
    have hc := h.cursorAtEnd (by simp [hs, DecState.holdsPayload]) (by simp [hs])
    have hp := h.payPresent (.inl (by simp [hs, DecState.holdsPayload]))
    simp only [finishFrame]
    split
    · split
      · next hcrc =>
        constructor <;> simp_all [DecState.holdsPayload]
        exact hcrc
      · exact Dec.inv_reset
    · exact Dec.inv_reset

end Sys2Proof.Machine
end

