-- ==== Sys2Proof/Laws/Decode.lean ====
section
/-! SUPPORT. The operand forms of 30_encoding.md R88: what each reads is what its encoder writes, and nothing else. -/

namespace Sys2Proof

theorem operandN_eq_some {body : Bytes} {u : Unit} : operandN body = some u ↔ body = [] := by
  cases body <;> simp [operandN]

theorem operandB_eq_some {body : Bytes} {b : Byte} : operandB body = some b ↔ body = [b] := by
  match body with
  | [] => simp [operandB]
  | [c] => simp [operandB]
  | _ :: _ :: _ => simp [operandB]

theorem operandW_eq_some {body : Bytes} {v : Word} : operandW body = some v ↔ body = le32 v := by
  constructor
  · intro h
    match body, h with
    | [b0, b1, b2, b3], h =>
      simp only [operandW, Option.some.injEq] at h
      rw [← h, le32_u32OfBytes]
  · rintro rfl
    simp only [le32, operandW, u32OfBytes_split]

theorem operandD_eq_some {body data : Bytes} :
    operandD body = some data ↔ body = encodeD data ∧ data.length < 2 ^ 32 := by
  constructor
  · intro h
    match body, h with
    | b0 :: b1 :: b2 :: b3 :: rest, h =>
      simp only [operandD] at h
      split at h
      · next hl =>
        obtain rfl := Option.some.inj h
        have := (u32OfBytes b0 b1 b2 b3).isLt
        refine ⟨?_, by omega⟩
        rw [encodeD, hl, BitVec.ofNat_toNat, BitVec.setWidth_eq, le32_u32OfBytes]
        rfl
      · cases h
  · rintro ⟨rfl, h⟩
    simp only [encodeD, le32, List.cons_append, List.nil_append, operandD]
    rw [u32OfBytes_split, BitVec.toNat_ofNat, if_pos (Nat.mod_eq_of_lt h).symm]

theorem operandCD_eq_some {body data : Bytes} {c : Half} :
    operandCD body = some (c, data) ↔ body = le16 c ++ encodeD data ∧ data.length < 2 ^ 32 := by
  constructor
  · intro h
    match body, h with
    | c0 :: c1 :: rest, h =>
      simp only [operandCD, Option.map_eq_some_iff, Prod.mk.injEq] at h
      obtain ⟨d, hd, rfl, rfl⟩ := h
      obtain ⟨rfl, hl⟩ := operandD_eq_some.mp hd
      exact ⟨by rw [le16_u16OfBytes]; rfl, hl⟩
  · rintro ⟨rfl, h⟩
    simp only [le16, List.cons_append, List.nil_append, operandCD, operandD_eq_some.mpr ⟨rfl, h⟩,
      Option.map_some, u16OfBytes_split]

theorem operandTD_eq_some {body data : Bytes} {t : Byte} :
    operandTD body = some (t, data) ↔ body = t :: encodeD data ∧ data.length < 2 ^ 32 := by
  constructor
  · intro h
    match body, h with
    | c0 :: rest, h =>
      simp only [operandTD, Option.map_eq_some_iff, Prod.mk.injEq] at h
      obtain ⟨d, hd, rfl, rfl⟩ := h
      obtain ⟨rfl, hl⟩ := operandD_eq_some.mp hd
      exact ⟨rfl, hl⟩
  · rintro ⟨rfl, h⟩
    simp only [operandTD, operandD_eq_some.mpr ⟨rfl, h⟩, Option.map_some]

/-- A row found by its opcode has that opcode. -/
theorem rowOfOpc_opc {opc : Byte} {row : OpcodeRow} (h : rowOfOpc opc = some row) : row.opc = opc := by
  have := List.find?_some h
  simpa using this

/-- A row found by its opcode is a row of R90's table. -/
theorem rowOfOpc_mem {opc : Byte} {row : OpcodeRow} (h : rowOfOpc opc = some row) : row ∈ opcodeMap :=
  List.mem_of_find?_eq_some h

/-- What `decode` answers on a string of at least a header, once its row is known (60_exceptions.md R304). -/
theorem decode_of_row {opc inst : Byte} {body : Bytes} {row : OpcodeRow} (h : rowOfOpc opc = some row) :
    decode (opc :: inst :: body) =
      if row.instReserved = true ∧ inst ≠ 0 then .error .nonzeroInst
      else match instrOfBody inst body row.mnemonic with
        | some i => .ok i
        | none => .error .badLength := by
  simp only [decode, h] <;> rfl

end Sys2Proof
end

