-- ==== Sys2Proof/Laws/Rx.lean ====
section
/-! SUPPORT. The receiver's steps: what the growth target and draw are, what steps 1 and 2 leave, what a scan can
change, and that each step keeps the receiver's invariant. -/

namespace Sys2Proof.Machine

/-! ## Growth (43_receiver.md R207, R208) -/

theorem doublingsUpTo_spec (fuel cap need : Nat) (h : need ≤ cap * 2 ^ fuel) :
    need ≤ cap * 2 ^ doublingsUpTo fuel cap need ∧ ∀ j < doublingsUpTo fuel cap need, cap * 2 ^ j < need := by
  induction fuel generalizing cap with
  | zero => simpa [doublingsUpTo] using h
  | succ fuel ih =>
    unfold doublingsUpTo
    split
    · next hle => simpa using hle
    · next hgt =>
      have hmul : ∀ j, cap * 2 ^ (j + 1) = cap * 2 * 2 ^ j := fun j => by rw [pow_succ]; ring
      obtain ⟨h1, h2⟩ := ih (cap * 2) (by rw [← hmul]; exact h)
      refine ⟨by rw [hmul]; exact h1, fun j hj => ?_⟩
      cases j with
      | zero => simpa using hgt
      | succ j => rw [hmul]; exact h2 j (by omega)

/-- `k` of R207 is the least integer with `cap * 2^k ≥ need`, and at least 1 where `need` exceeds `cap`. -/
theorem growthTarget_spec {cap need : Nat} (hc : 1 ≤ cap) :
    need ≤ cap * 2 ^ growthTarget cap need ∧ (∀ j < growthTarget cap need, cap * 2 ^ j < need) ∧
      (cap < need → 1 ≤ growthTarget cap need) := by
  have hfuel : need ≤ cap * 2 ^ need :=
    Nat.le_trans (Nat.le_of_lt Nat.lt_two_pow_self) (Nat.le_mul_of_pos_left _ hc)
  obtain ⟨h1, h2⟩ := doublingsUpTo_spec need cap need hfuel
  refine ⟨h1, h2, fun hlt => ?_⟩
  by_contra h0
  have : growthTarget cap need = 0 := by omega
  rw [growthTarget] at this
  rw [this] at h1
  omega

theorem growthLimit_le (cap maxCap k : Nat) : growthLimit cap maxCap k ≤ k := by
  induction k with
  | zero => exact Nat.le_refl 0
  | succ k ih => unfold growthLimit; split <;> omega

theorem growthLimit_fits {cap maxCap : Nat} (h : cap ≤ maxCap) (k : Nat) :
    cap * 2 ^ growthLimit cap maxCap k ≤ maxCap := by
  induction k with
  | zero => simpa [growthLimit] using h
  | succ k ih =>
    unfold growthLimit
    split
    · next hle => exact hle
    · exact ih

theorem le_growthLimit {cap maxCap j k : Nat} (hj : j ≤ k) (h : cap * 2 ^ j ≤ maxCap) :
    j ≤ growthLimit cap maxCap k := by
  induction k with
  | zero => omega
  | succ k ih =>
    unfold growthLimit
    split
    · exact hj
    · next hgt =>
      refine ih ?_
      rcases Nat.lt_or_ge k j with hk | hk
      · have : j = k + 1 := by omega
        exact absurd (this ▸ h) hgt
      · exact hk

theorem growthDraw_le (e : Env) (cap maxCap k : Nat) : growthDraw e cap maxCap k ≤ k :=
  Nat.le_trans (Nat.min_le_right _ _) (growthLimit_le _ _ _)

theorem growthDraw_fits {cap maxCap : Nat} (h : cap ≤ maxCap) (e : Env) (k : Nat) :
    cap * 2 ^ growthDraw e cap maxCap k ≤ maxCap :=
  Nat.le_trans (Nat.mul_le_mul_left _ (Nat.pow_le_pow_right (by omega) (Nat.min_le_right _ _)))
    (growthLimit_fits h k)

/-! ## Single updates -/

namespace Rx

variable (r : Rx)

@[simp] theorem cap_compact : r.compact.cap = r.cap := by unfold compact; split <;> rfl
@[simp] theorem live_compact : r.compact.live = r.live := by unfold compact; split <;> rfl
@[simp] theorem dec_compact : r.compact.dec = r.dec := by unfold compact; split <;> rfl

/-- After step 1a nothing is left before the scan cursor (R206). -/
@[simp] theorem pp_compact : r.compact.pp = 0 := by unfold compact; split <;> simp_all

@[simp] theorem wp_compact : r.compact.wp = r.wp - r.pp := by
  unfold compact; split
  · rfl
  · next h => have : r.pp = 0 := by omega
              simp [this]

theorem store_compact {r : Rx} {n : Nat} (h : HasStore r.buf n) : HasStore r.compact.buf n := by
  unfold compact; split
  · exact h.moveToFront _ _
  · exact h

@[simp] theorem cap_grow (j fill : Nat) : (r.grow j fill).cap = r.cap * 2 ^ j := by
  unfold grow; split <;> simp_all
@[simp] theorem wp_grow (j fill : Nat) : (r.grow j fill).wp = r.wp := by unfold grow; split <;> rfl
@[simp] theorem pp_grow (j fill : Nat) : (r.grow j fill).pp = r.pp := by unfold grow; split <;> rfl
@[simp] theorem live_grow (j fill : Nat) : (r.grow j fill).live = r.live := by unfold grow; split <;> rfl
@[simp] theorem dec_grow (j fill : Nat) : (r.grow j fill).dec = r.dec := by unfold grow; split <;> rfl

theorem store_grow {r : Rx} (h : HasStore r.buf r.cap) (j fill : Nat) :
    HasStore (r.grow j fill).buf (r.cap * 2 ^ j) := by
  unfold grow; split
  · next hj => simpa [hj] using h
  · exact ⟨_, rfl, Memory.wf_writeBytes (Memory.wf_new _ _) _ _, Memory.size_writeBytes _ _ _⟩

@[simp] theorem cap_put (data : Bytes) : (r.put data).cap = r.cap := rfl
@[simp] theorem wp_put (data : Bytes) : (r.put data).wp = r.wp + data.length := rfl
@[simp] theorem pp_put (data : Bytes) : (r.put data).pp = r.pp := rfl
@[simp] theorem live_put (data : Bytes) : (r.put data).live = r.live := rfl
@[simp] theorem dec_put (data : Bytes) : (r.put data).dec = r.dec := rfl
@[simp] theorem buf_put (data : Bytes) : (r.put data).buf = storeBytes r.buf r.wp data := rfl

@[simp] theorem cap_dropPrefix (m : Nat) : (r.dropPrefix m).cap = r.cap := by unfold dropPrefix; split <;> rfl
@[simp] theorem live_dropPrefix (m : Nat) : (r.dropPrefix m).live = r.live := by unfold dropPrefix; split <;> rfl
@[simp] theorem dec_dropPrefix (m : Nat) : (r.dropPrefix m).dec = r.dec := by unfold dropPrefix; split <;> rfl
@[simp] theorem wp_dropPrefix (m : Nat) : (r.dropPrefix m).wp = r.wp - m := by
  unfold dropPrefix; split
  · rfl
  · next h => have : m = 0 := by omega
              simp [this]
@[simp] theorem pp_dropPrefix (m : Nat) : (r.dropPrefix m).pp = r.pp - m := by
  unfold dropPrefix; split
  · rfl
  · next h => have : m = 0 := by omega
              simp [this]

theorem store_dropPrefix {r : Rx} {n : Nat} (h : HasStore r.buf n) (m : Nat) : HasStore (r.dropPrefix m).buf n := by
  unfold dropPrefix; split
  · exact h.moveToFront _ _
  · exact h

/-- A receiver just created meets the invariant (10_state.md R34). -/
theorem inv_fresh {h maxCap : Nat} (hh : 1 ≤ h ∧ h ≤ maxCap) (fill : Nat) : (fresh h fill).Inv maxCap where
  capRange _ := hh
  cursors _ := ⟨rfl, Nat.zero_le _⟩
  buffer _ := HasStore.new h fill
  decoder _ := ⟨Dec.inv_reset, rfl⟩
  ofDead h := by cases h

theorem inv_released (r : Rx) (maxCap : Nat) : r.released.Inv maxCap where
  capRange h := by cases h
  cursors h := by cases h
  buffer h := by cases h
  decoder h := by cases h
  ofDead _ := ⟨rfl, rfl⟩

end Rx

/-! ## Steps 1 and 2 (R205 to R210) -/

/-- Everything step 1 can leave, from a live receiver that meets the invariant: nothing done; the buffer emptied and
the append fitting; or the buffer emptied and grown by the drawn number of doublings, clipped where that is too few. -/
theorem makeRoom_cases {maxCap : Nat} {r : Rx} (h : r.Inv maxCap) (hl : r.live = true) (data : Bytes) (e : Env) :
    (r.wp + data.length ≤ r.cap ∧ makeRoom maxCap r data e = ⟨r, e, data, 0⟩) ∨
    (r.cap < r.wp + data.length ∧ data.length ≤ r.cap ∧ makeRoom maxCap r data e = ⟨r.compact, e, data, 0⟩) ∨
    (r.cap < data.length ∧ ∃ j fill, j ≤ growthTarget r.cap data.length ∧
      j = growthDraw e r.cap maxCap (growthTarget r.cap data.length) ∧
      makeRoom maxCap r data e =
        ⟨r.compact.grow j fill, e.advance.afterNew, data.take (r.cap * 2 ^ j), data.length - r.cap * 2 ^ j⟩) := by
  obtain ⟨hpw, hwc⟩ := h.cursors hl
  have hcap := h.capRange hl
  have hwp0 : r.compact.wp = 0 := by simp [hpw]
  unfold makeRoom
  by_cases h1 : r.wp + data.length ≤ r.cap
  · exact .inl ⟨h1, by rw [if_pos h1]⟩
  · rw [if_neg h1, hwp0, Rx.cap_compact, Nat.zero_add]
    by_cases h2 : data.length ≤ r.cap
    · exact .inr (.inl ⟨by omega, h2, by rw [if_pos h2]⟩)
    · rw [if_neg h2]
      refine .inr (.inr ⟨by omega, growthDraw e r.cap maxCap (growthTarget r.cap data.length), e.advance.count,
        growthDraw_le _ _ _ _, rfl, ?_⟩)
      simp only [growRoom, hwp0, Rx.cap_compact, Nat.zero_add]
      split
      · simp [Room.clip, hpw]
      · next hge =>
        have hk : growthDraw e r.cap maxCap (growthTarget r.cap data.length) = growthTarget r.cap data.length :=
          Nat.le_antisymm (growthDraw_le _ _ _ _) (by omega)
        have := (growthTarget_spec (cap := r.cap) (need := data.length) hcap.1).1
        rw [hk, List.take_of_length_le this, Nat.sub_eq_zero_of_le this]

/-- What every case of step 1 leaves true: the bytes fit, the cursors agree, the store is whole (R32, R218). -/
theorem makeRoom_spec {maxCap : Nat} {r : Rx} (h : r.Inv maxCap) (hl : r.live = true) (data : Bytes) (e : Env) :
    let m := makeRoom maxCap r data e
    m.rx.Inv maxCap ∧ m.rx.live = true ∧ m.rx.wp + m.data.length ≤ m.rx.cap ∧ m.rx.dec = r.dec ∧
      m.dropped + m.data.length = data.length ∧ m.data = data.take m.data.length := by
  obtain ⟨hpw, hwc⟩ := h.cursors hl
  have hcap := h.capRange hl
  have hst := h.buffer hl
  have hdec := h.decoder hl
  rcases makeRoom_cases h hl data e with ⟨h1, hm⟩ | ⟨h1, h2, hm⟩ | ⟨h1, j, fill, hj, hd, hm⟩
  · simp only [hm]
    exact ⟨h, hl, h1, True.intro, by simp, by simp⟩
  · simp only [hm]
    refine ⟨⟨fun _ => by simpa using hcap, fun _ => by simp [hpw], fun _ => ?_, fun _ => by simpa using hdec,
      fun hdead => by simp [hl] at hdead⟩, by simpa using hl, by simp [hpw, h2], by simp, by simp, by simp⟩
    simpa using Rx.store_compact hst
  · simp only [hm]
    have hpos : 1 ≤ r.cap * 2 ^ j := Nat.le_trans hcap.1 (Nat.le_mul_of_pos_right _ (by positivity))
    have hmax : r.cap * 2 ^ j ≤ maxCap := by rw [hd]; exact growthDraw_fits hcap.2 _ _
    refine ⟨⟨fun _ => by simpa using ⟨hpos, hmax⟩, fun _ => by simp [hpw], fun _ => ?_,
      fun _ => by simpa using hdec, fun hdead => by simp [hl] at hdead⟩, by simpa using hl, ?_, by simp, ?_, ?_⟩
    · have := Rx.store_grow (r := r.compact) (by simpa using Rx.store_compact hst) j fill
      simpa using this
    · simp [hpw]
    · simp only [List.length_take]; omega
    · simp

/-- Step 2 leaves a room that fits as it is (R210). -/
theorem recheck_of_fits {m : Room} (h : m.rx.wp + m.data.length ≤ m.rx.cap) : m.recheck = m := by
  unfold Room.recheck; rw [if_neg (by omega)]

/-! ## The scan (R212 to R216) -/

/-- What one turn leaves unchanged, and how the cursor, the marker and the decoder move. -/
theorem Scan.turn_spec (c : Scan) :
    c.turn.rx.live = c.rx.live ∧ c.turn.rx.cap = c.rx.cap ∧ c.turn.rx.wp = c.rx.wp ∧ c.turn.rx.buf = c.rx.buf ∧
      c.turn.rx.pp = c.rx.pp + 1 ∧ (c.turn.marker = c.marker ∨ c.turn.marker = c.rx.pp + 1) := by
  unfold Scan.turn
  simp only
  split
  · unfold Scan.deliver
    simp only
    split <;> simp
  · simp

theorem Scan.turn_dec {c : Scan} (h : c.rx.dec.Inv ∧ c.rx.dec.outValid = false) :
    c.turn.rx.dec.Inv ∧ c.turn.rx.dec.outValid = false := by
  unfold Scan.turn
  simp only
  split
  · unfold Scan.deliver
    simp only
    split <;> exact ⟨Dec.inv_reset, rfl⟩
  · next hc =>
    exact ⟨h.1.decStep h.2 _ _, by rw [decStep_outValid h.2]; simpa using hc⟩

theorem Scan.turns_spec (n : Nat) (c : Scan) (hm : c.marker ≤ c.rx.pp) :
    (c.turns n).rx.live = c.rx.live ∧ (c.turns n).rx.cap = c.rx.cap ∧ (c.turns n).rx.wp = c.rx.wp ∧
      (c.turns n).rx.buf = c.rx.buf ∧ (c.turns n).rx.pp = c.rx.pp + n ∧ (c.turns n).marker ≤ (c.turns n).rx.pp := by
  induction n generalizing c with
  | zero => exact ⟨rfl, rfl, rfl, rfl, rfl, hm⟩
  | succ n ih =>
    obtain ⟨h1, h2, h3, h4, h5, h6⟩ := c.turn_spec
    obtain ⟨i1, i2, i3, i4, i5, i6⟩ := ih c.turn (by rcases h6 with h6 | h6 <;> omega)
    exact ⟨i1.trans h1, i2.trans h2, i3.trans h3, i4.trans h4, by rw [Scan.turns, i5, h5]; omega, i6⟩

theorem Scan.turns_dec (n : Nat) {c : Scan} (h : c.rx.dec.Inv ∧ c.rx.dec.outValid = false) :
    (c.turns n).rx.dec.Inv ∧ (c.turns n).rx.dec.outValid = false := by
  induction n generalizing c with
  | zero => exact h
  | succ n ih => exact ih (Scan.turn_dec h)

theorem Scan.turns_add (m n : Nat) (c : Scan) : c.turns (m + n) = (c.turns m).turns n := by
  induction m generalizing c with
  | zero => simp [Scan.turns]
  | succ m ih => rw [show m + 1 + n = (m + n) + 1 by omega, Scan.turns, Scan.turns, ih]

/-- A room that fits parses to a receiver that meets the invariant (R32, R218). -/
theorem Room.parse_inv {maxCap : Nat} {m : Room} (h : m.rx.Inv maxCap) (hl : m.rx.live = true)
    (hf : m.rx.wp + m.data.length ≤ m.rx.cap) : m.parse.rx.Inv maxCap := by
  obtain ⟨hpw, hwc⟩ := h.cursors hl
  let c0 : Scan := ⟨m.rx.put m.data, m.env, [], 0⟩
  obtain ⟨h1, h2, h3, h4, h5, h6⟩ := Scan.turns_spec (c0.rx.wp - c0.rx.pp) c0 (Nat.zero_le _)
  have hd := Scan.turns_dec (c0.rx.wp - c0.rx.pp) (c := c0) (h.decoder hl)
  have hst : HasStore (c0.turns (c0.rx.wp - c0.rx.pp)).rx.buf m.rx.cap := by
    rw [h4]; exact (h.buffer hl).storeBytes _ _
  have hcap : (c0.turns (c0.rx.wp - c0.rx.pp)).rx.cap = m.rx.cap := h2
  have hwp : (c0.turns (c0.rx.wp - c0.rx.pp)).rx.wp = m.rx.wp + m.data.length := h3
  have hpp : (c0.turns (c0.rx.wp - c0.rx.pp)).rx.pp = m.rx.wp + m.data.length := by
    rw [h5]; show m.rx.pp + (m.rx.wp + m.data.length - m.rx.pp) = _; omega
  show ((c0.turns (c0.rx.wp - c0.rx.pp)).rx.dropPrefix _).Inv maxCap
  refine ⟨fun _ => ?_, fun _ => ?_, fun _ => ?_, fun _ => ?_, fun hdead => ?_⟩
  · rw [Rx.cap_dropPrefix, hcap]; exact h.capRange hl
  · rw [Rx.pp_dropPrefix, Rx.wp_dropPrefix, Rx.cap_dropPrefix, hcap, hwp, hpp]
    exact ⟨rfl, by omega⟩
  · rw [Rx.cap_dropPrefix, hcap]; exact Rx.store_dropPrefix hst _
  · rw [Rx.dec_dropPrefix]; exact hd
  · rw [Rx.live_dropPrefix, h1] at hdead
    rw [show c0.rx.live = m.rx.live from rfl, hl] at hdead
    cases hdead

/-! ## Buffers: what each move keeps (R206, R208, R217) -/

theorem Rx.load_compact {r : Rx} (hst : HasStore r.buf r.cap) (h2 : r.wp ≤ r.cap) :
    loadBytes r.compact.buf 0 (r.wp - r.pp) = loadBytes r.buf r.pp (r.wp - r.pp) := by
  obtain ⟨x, hx, hw, hs⟩ := hst
  unfold Rx.compact
  split
  · rw [hx]
    simp only [moveToFront, loadBytes_some, storeBytes_some]
    simpa using Memory.readBytes_writeBytes (m := x) (a := 0) (x.readBytes r.pp (r.wp - r.pp)) (by simp; omega)
  · next h =>
    have : r.pp = 0 := by omega
    rw [this]

theorem Rx.load_grow {r : Rx} (hst : HasStore r.buf r.cap) (h2 : r.wp ≤ r.cap) (j fill : Nat) :
    loadBytes (r.grow j fill).buf 0 r.wp = loadBytes r.buf 0 r.wp := by
  obtain ⟨x, hx, hw, hs⟩ := hst
  unfold Rx.grow
  split
  · rfl
  · rw [hx]
    simp only [grownStore, loadBytes_some]
    have hle : r.cap ≤ r.cap * 2 ^ j := Nat.le_mul_of_pos_right _ (by positivity)
    simpa using Memory.readBytes_writeBytes (m := Memory.new (r.cap * 2 ^ j) fill) (a := 0) (x.readBytes 0 r.wp)
      (by simp; omega)

theorem Rx.load_dropPrefix {r : Rx} {marker : Nat} (hst : HasStore r.buf r.cap)
    (h2 : r.wp ≤ r.cap) :
    loadBytes (r.dropPrefix marker).buf 0 (r.wp - marker) = loadBytes r.buf marker (r.wp - marker) := by
  obtain ⟨x, hx, hw, hs⟩ := hst
  unfold Rx.dropPrefix
  split
  · rw [hx]
    simp only [moveToFront, loadBytes_some, storeBytes_some]
    simpa using Memory.readBytes_writeBytes (m := x) (a := 0) (x.readBytes marker (r.wp - marker)) (by simp; omega)
  · next h =>
    have : marker = 0 := by omega
    rw [this]

/-! ## Whole scans -/

/-- What a scan leaves unchanged, and where it ends (R212). -/
theorem scanAll_spec (r : Rx) (e : Env) (h : r.pp ≤ r.wp) :
    (scanAll r e).rx.live = r.live ∧ (scanAll r e).rx.cap = r.cap ∧ (scanAll r e).rx.wp = r.wp ∧
      (scanAll r e).rx.buf = r.buf ∧ (scanAll r e).rx.pp = r.wp ∧ (scanAll r e).marker ≤ r.wp := by
  obtain ⟨h1, h2, h3, h4, h5, h6⟩ := Scan.turns_spec (r.wp - r.pp) ⟨r, e, [], 0⟩ (Nat.zero_le _)
  have hpp : r.pp + (r.wp - r.pp) = r.wp := by omega
  exact ⟨h1, h2, h3, h4, h5.trans hpp, h6.trans (le_of_eq (h5.trans hpp))⟩

/-- A turn that leaves no event moves no marker (R215). -/
theorem Scan.turn_silent (c : Scan) (h : c.turn.events = []) : c.events = [] ∧ c.turn.marker = c.marker := by
  unfold Scan.turn at *
  simp only at *
  split at h
  · unfold Scan.deliver at *
    simp only at *
    split at h <;> simp_all
  · simp_all

/-- Once an event is delivered the marker is past offset 0 (R215). -/
theorem Scan.turn_marker_pos {c : Scan} (hc : c.events ≠ [] → 0 < c.marker) (h : c.turn.events ≠ []) :
    0 < c.turn.marker := by
  unfold Scan.turn at *
  simp only at *
  split at h
  · unfold Scan.deliver at *
    simp only at *
    split at h <;> simp_all
  · simp_all

theorem Scan.turns_marker_pos (n : Nat) {c : Scan} (hc : c.events ≠ [] → 0 < c.marker)
    (h : (c.turns n).events ≠ []) : 0 < (c.turns n).marker := by
  induction n generalizing c with
  | zero => exact hc h
  | succ n ih => exact ih (Scan.turn_marker_pos hc) h

theorem Scan.turns_silent (n : Nat) (c : Scan) (h : (c.turns n).events = []) :
    c.events = [] ∧ (c.turns n).marker = c.marker := by
  induction n generalizing c with
  | zero => exact ⟨h, rfl⟩
  | succ n ih =>
    obtain ⟨h1, h2⟩ := ih c.turn h
    obtain ⟨h3, h4⟩ := c.turn_silent h1
    exact ⟨h3, h2.trans h4⟩

/-- The bound check holds exactly when the frame's first byte is still in the buffer (R213). -/
theorem frameInBuffer_iff {pp wp : Nat} (h : pp < wp) (len : Half) :
    frameInBuffer pp wp len = true ↔ len.toNat + 9 ≤ pp + 1 := by
  simp only [frameInBuffer, Bool.and_eq_true, decide_eq_true_eq]
  unfold frameStart Config.frameOverhead
  constructor <;> intro h' <;> omega

end Sys2Proof.Machine
end

