-- ==== Sys2Proof/Laws/Exec.lean ====
section
/-! SUPPORT. What a command can do: it faults, or it answers one response and changes at most the instance it
addresses; an error status changes none. -/

namespace Sys2Proof.Machine

/-- The second kind of end of `exec i s`: a response, with the lists and the draws it leaves. -/
structure Answered (i : Instr) (s t : State) : Prop where
  form : ∃ r decs rxs rbs env, t = { s with out := s.out ++ [r], decs := decs, rxs := rxs, rbs := rbs, env := env } ∧
    r ≠ [] ∧ (r.head? ≠ some 0 → (∃ c, r = [c]) ∧ decs = s.decs ∧ rxs = s.rxs ∧ rbs = s.rbs)
  decs : t.decs = s.decs ∨ ∃ k u, i.decInst = some k ∧ t.decs = s.decs.set k.toNat u
  rxs : t.rxs = s.rxs ∨ ∃ k r, i.rxInst = some k ∧ t.rxs = s.rxs.set k.toNat r
  rbs : t.rbs = s.rbs ∨ ∃ k b, i.rbInst = some k ∧ t.rbs = s.rbs.set k.toNat b
  env : t.env = s.env ∨ (∃ t d, i = .encode t d) ∨ (∃ k b, i = .decParse k b) ∨ (∃ k h, i = .rxInit k h) ∨
    (∃ k d, i = .rxAppend k d) ∨ (∃ k c, i = .rbInit k c)

/-- A response alone. -/
theorem Answered.respond {i : Instr} {s : State} {r : Bytes} (h : r.head? = some 0 ∨ ∃ c, r = [c]) :
    Answered i s (s.respond r) where
  form := ⟨r, _, _, _, _, rfl, by rintro rfl; simp at h, fun h0 => ⟨h.resolve_left h0, rfl, rfl, rfl⟩⟩
  decs := .inl rfl
  rxs := .inl rfl
  rbs := .inl rfl
  env := .inl rfl

/-- Every command faults or answers. -/
theorem exec_cases (i : Instr) (s : State) :
    ∃ t, exec i s = .next t ∧ ((∃ why, t = s.raiseFault why) ∨ Answered i s t) := by
  cases i with
  | crc16 data => exact ⟨_, rfl, .inr (.respond (.inl rfl))⟩
  | crc16Cont c data => exact ⟨_, rfl, .inr (.respond (.inl rfl))⟩
  | encode t data =>
    refine ⟨_, rfl, ?_⟩
    split
    · exact .inr (.respond (.inr ⟨_, rfl⟩))
    · split
      · exact .inr ⟨⟨_, _, _, _, _, rfl, by simp [bytesResponse], fun h => absurd rfl h⟩, .inl rfl, .inl rfl,
          .inl rfl, .inr (.inl ⟨_, _, rfl⟩)⟩
      · exact .inr ⟨⟨_, _, _, _, _, rfl, by simp [statusResponse], fun h => ⟨⟨_, rfl⟩, rfl, rfl, rfl⟩⟩, .inl rfl,
          .inl rfl, .inl rfl, .inr (.inl ⟨_, _, rfl⟩)⟩
  | decReset k =>
    refine ⟨_, rfl, ?_⟩
    unfold onDec
    split
    · exact .inl ⟨_, rfl⟩
    · exact .inr ⟨⟨_, _, _, _, _, rfl, by simp [statusResponse], fun h => absurd rfl h⟩, .inr ⟨_, _, rfl, rfl⟩,
        .inl rfl, .inl rfl, .inl rfl⟩
  | decParse k c =>
    refine ⟨_, rfl, ?_⟩
    rcases onLiveDec_cases k s _ with ⟨_, h⟩ | ⟨_, _, _, h⟩ | ⟨d, _, h⟩ <;> rw [h]
    · exact .inl ⟨_, rfl⟩
    · exact .inl ⟨_, rfl⟩
    · exact .inr ⟨⟨_, _, _, _, _, rfl, by simp [parseResponse], fun h => absurd rfl h⟩, .inr ⟨_, _, rfl, rfl⟩,
        .inl rfl, .inl rfl, .inr (.inr (.inl ⟨_, _, rfl⟩))⟩
  | decStatus k =>
    refine ⟨_, rfl, ?_⟩
    rcases onLiveDec_cases k s _ with ⟨_, h⟩ | ⟨_, _, _, h⟩ | ⟨d, _, h⟩ <;> rw [h]
    · exact .inl ⟨_, rfl⟩
    · exact .inl ⟨_, rfl⟩
    · exact .inr (.respond (.inl rfl))
  | decRead k =>
    refine ⟨_, rfl, ?_⟩
    rcases onLiveDec_cases k s _ with ⟨_, h⟩ | ⟨_, _, _, h⟩ | ⟨d, _, h⟩ <;> rw [h]
    · exact .inl ⟨_, rfl⟩
    · exact .inl ⟨_, rfl⟩
    · split
      · exact .inr (.respond (.inl rfl))
      · exact .inl ⟨_, rfl⟩
  | rxInit k h =>
    refine ⟨_, rfl, ?_⟩
    rcases onNewRx_cases k s _ with ⟨_, h⟩ | ⟨_, _, _, h⟩ | ⟨d, _, _, h⟩ <;> rw [h]
    · exact .inl ⟨_, rfl⟩
    · exact .inl ⟨_, rfl⟩
    · split
      · exact .inr (.respond (.inr ⟨_, rfl⟩))
      · split
        · exact .inr ⟨⟨_, _, _, _, _, rfl, by simp [statusResponse], fun h => absurd rfl h⟩, .inl rfl,
            .inr ⟨_, _, rfl, rfl⟩, .inl rfl, .inr (.inr (.inr (.inl ⟨_, _, rfl⟩)))⟩
        · exact .inr ⟨⟨_, _, _, _, _, rfl, by simp [statusResponse], fun h => ⟨⟨_, rfl⟩, rfl, rfl, rfl⟩⟩,
            .inl rfl, .inl rfl, .inl rfl, .inr (.inr (.inr (.inl ⟨_, _, rfl⟩)))⟩
  | rxAppend k data =>
    refine ⟨_, rfl, ?_⟩
    rcases onLiveRx_cases k s _ with ⟨_, h⟩ | ⟨_, _, _, h⟩ | ⟨d, _, _, h⟩ <;> rw [h]
    · exact .inl ⟨_, rfl⟩
    · exact .inl ⟨_, rfl⟩
    · exact .inr ⟨⟨_, _, _, _, _, rfl, by simp [appendResponse], fun h => absurd rfl h⟩, .inl rfl,
        .inr ⟨_, _, rfl, rfl⟩, .inl rfl, .inr (.inr (.inr (.inr (.inl ⟨_, _, rfl⟩))))⟩
  | rxQuery k =>
    refine ⟨_, rfl, ?_⟩
    rcases onLiveRx_cases k s _ with ⟨_, h⟩ | ⟨_, _, _, h⟩ | ⟨d, _, _, h⟩ <;> rw [h]
    · exact .inl ⟨_, rfl⟩
    · exact .inl ⟨_, rfl⟩
    · exact .inr (.respond (.inl rfl))
  | rxDestroy k =>
    refine ⟨_, rfl, ?_⟩
    rcases onLiveRx_cases k s _ with ⟨_, h⟩ | ⟨_, _, _, h⟩ | ⟨d, _, _, h⟩ <;> rw [h]
    · exact .inl ⟨_, rfl⟩
    · exact .inl ⟨_, rfl⟩
    · exact .inr ⟨⟨_, _, _, _, _, rfl, by simp [statusResponse], fun h => absurd rfl h⟩, .inl rfl,
        .inr ⟨_, _, rfl, rfl⟩, .inl rfl, .inl rfl⟩
  | rbInit k h =>
    refine ⟨_, rfl, ?_⟩
    rcases onNewRb_cases k s _ with ⟨_, h⟩ | ⟨_, _, _, h⟩ | ⟨d, _, _, h⟩ <;> rw [h]
    · exact .inl ⟨_, rfl⟩
    · exact .inl ⟨_, rfl⟩
    · split
      · exact .inr (.respond (.inr ⟨_, rfl⟩))
      · split
        · exact .inr ⟨⟨_, _, _, _, _, rfl, by simp [statusResponse], fun h => absurd rfl h⟩, .inl rfl, .inl rfl,
            .inr ⟨_, _, rfl, rfl⟩, .inr (.inr (.inr (.inr (.inr ⟨_, _, rfl⟩))))⟩
        · exact .inr ⟨⟨_, _, _, _, _, rfl, by simp [statusResponse], fun h => ⟨⟨_, rfl⟩, rfl, rfl, rfl⟩⟩,
            .inl rfl, .inl rfl, .inl rfl, .inr (.inr (.inr (.inr (.inr ⟨_, _, rfl⟩))))⟩
  | rbWrite k data =>
    refine ⟨_, rfl, ?_⟩
    rcases onLiveRb_cases k s _ with ⟨_, h⟩ | ⟨_, _, _, h⟩ | ⟨d, _, _, h⟩ <;> rw [h]
    · exact .inl ⟨_, rfl⟩
    · exact .inl ⟨_, rfl⟩
    · split
      · exact .inr (.respond (.inr ⟨_, rfl⟩))
      · exact .inr ⟨⟨_, _, _, _, _, rfl, by simp [statusResponse], fun h => absurd rfl h⟩, .inl rfl, .inl rfl,
          .inr ⟨_, _, rfl, rfl⟩, .inl rfl⟩
  | rbRead k m =>
    refine ⟨_, rfl, ?_⟩
    rcases onLiveRb_cases k s _ with ⟨_, h⟩ | ⟨_, _, _, h⟩ | ⟨d, _, _, h⟩ <;> rw [h]
    · exact .inl ⟨_, rfl⟩
    · exact .inl ⟨_, rfl⟩
    · exact .inr ⟨⟨_, _, _, _, _, rfl, by simp [bytesResponse], fun h => absurd rfl h⟩, .inl rfl, .inl rfl,
        .inr ⟨_, _, rfl, rfl⟩, .inl rfl⟩
  | rbDestroy k =>
    refine ⟨_, rfl, ?_⟩
    rcases onLiveRb_cases k s _ with ⟨_, h⟩ | ⟨_, _, _, h⟩ | ⟨d, _, _, h⟩ <;> rw [h]
    · exact .inl ⟨_, rfl⟩
    · exact .inl ⟨_, rfl⟩
    · exact .inr ⟨⟨_, _, _, _, _, rfl, by simp [statusResponse], fun h => absurd rfl h⟩, .inl rfl, .inl rfl,
        .inr ⟨_, _, rfl, rfl⟩, .inl rfl⟩
  | rbFreeSpace k | rbUsedSpace k | rbIsEmpty k | rbIsFull k | rbDump k =>
    refine ⟨_, rfl, ?_⟩
    rcases onLiveRb_cases k s _ with ⟨_, h⟩ | ⟨_, _, _, h⟩ | ⟨d, _, _, h⟩ <;> rw [h]
    · exact .inl ⟨_, rfl⟩
    · exact .inl ⟨_, rfl⟩
    · exact .inr (.respond (.inl rfl))

/-- Only DEC_RESET and DEC_PARSE of an instance change that decoder instance. -/
theorem exec_decAt {i : Instr} {s t : State} {k : Byte} (hp : ∀ c, i ≠ .decParse k c) (hr : i ≠ .decReset k)
    (h : exec i s = .next t) : t.decAt k = s.decAt k := by
  obtain ⟨t', h', hc⟩ := exec_cases i s
  obtain rfl : t = t' := by rw [h] at h'; injection h'
  rcases hc with ⟨w, rfl⟩ | ha
  · rfl
  · rcases ha.decs with hd | ⟨j, u, hj, hd⟩
    · exact State.decAt_congr hd k
    · have hu : j ≠ k → t.decAt k = s.decAt k := fun e =>
        (State.decAt_congr (s := s.setDec j u) hd k).trans (State.decAt_setDec_ne (s := s) (Ne.symm e) u)
      cases i <;> simp only [Instr.decInst, Option.some.injEq, reduceCtorEq] at hj <;> subst hj
      · exact hu fun e => hr (by rw [e])
      · exact hu fun e => hp _ (by rw [e])
      all_goals
        rename_i n
        injection h with h
        subst h
        rcases onLiveDec_cases n s _ with ⟨-, e⟩ | ⟨_, -, -, e⟩ | ⟨d, -, e⟩ <;> rw [e] <;> (try split) <;> rfl

/-- An RX_APPEND that needs no room writes, scans and compacts (R205, R211 to R217). -/
theorem exec_rxAppend_fits {k : Byte} {data : Bytes} {s : State} {r : Rx} (h : s.rxAt k = some r)
    (hl : r.live = true) (hf : r.wp + data.length ≤ r.cap) :
    exec (.rxAppend k data) s =
      .next (((s.setRx k ((scanAll (r.put data) s.env).rx.dropPrefix (scanAll (r.put data) s.env).marker)).setEnv
        (scanAll (r.put data) s.env).env).respond (appendResponse 0 (scanAll (r.put data) s.env).events)) := by
  have hm : (makeRoom s.par.rxMaxCap r data s.env).recheck = ⟨r, s.env, data, 0⟩ := by
    rw [show makeRoom s.par.rxMaxCap r data s.env = ⟨r, s.env, data, 0⟩ from if_pos hf]
    exact recheck_of_fits hf
  simp only [exec, execRxAppend, onLiveRx_live h hl, hm, Room.parse]

/-- What a step can do: nothing, drop a command, execute a command, or refuse a string. -/
theorem step_cases (s : State) :
    (s.pending = [] ∧ step s = .next s) ∨
    (∃ cmd rest, s.pending = cmd :: rest ∧ s.stopped = true ∧ step s = .next s.takeCommand) ∨
    (∃ cmd rest i, s.pending = cmd :: rest ∧ s.stopped = false ∧ decode cmd = .ok i ∧
      step s = exec i s.takeCommand) ∨
    (∃ cmd rest why, s.pending = cmd :: rest ∧ s.stopped = false ∧ decode cmd = .error why ∧
      step s = .next (s.takeCommand.raiseRefusal (.malformed why))) := by
  cases hp : s.pending with
  | nil => exact .inl ⟨rfl, by simp [step, hp]⟩
  | cons cmd rest =>
    cases hs : s.stopped with
    | true => exact .inr (.inl ⟨cmd, rest, rfl, rfl, by simp [step, hp, hs]⟩)
    | false =>
      cases hd : decode cmd with
      | ok i => exact .inr (.inr (.inl ⟨cmd, rest, i, rfl, rfl, hd, by simp [step, hp, hs, hd]⟩))
      | error why => exact .inr (.inr (.inr ⟨cmd, rest, why, rfl, rfl, hd, by simp [step, hp, hs, hd]⟩))

end Sys2Proof.Machine
end

