-- ==== Sys2Proof/Laws/PerInstr.lean ====
section
/-! SUPPORT. Facts stated of every command as syntax, one lemma per constructor.

Family EncodeLength: a command string has the total length of its format (30_encoding.md R88). -/

namespace Sys2Proof.Laws.EncodeLength

/-- R88's total length. -/
def total : Instr → Nat
  | .crc16 data | .rxAppend _ data | .rbWrite _ data => 6 + data.length
  | .crc16Cont _ data => 8 + data.length
  | .encode _ data => 7 + data.length
  | .decParse _ _ => 3
  | .rxInit _ _ | .rbInit _ _ | .rbRead _ _ => 6
  | .decReset _ | .decStatus _ | .decRead _ | .rxQuery _ | .rxDestroy _ | .rbFreeSpace _ | .rbUsedSpace _
  | .rbIsEmpty _ | .rbIsFull _ | .rbDump _ | .rbDestroy _ => 2

def Statement (i : Instr) : Prop := (encode i).length = total i

theorem length_encodeD (data : Bytes) : (encodeD data).length = 4 + data.length := by simp [encodeD]

theorem crc16 (data : Bytes) : Statement (.crc16 data) := by
  simp [Statement, encode, total, length_encodeD]; omega
theorem crc16Cont (c : Half) (data : Bytes) : Statement (.crc16Cont c data) := by
  simp [Statement, encode, total, length_encodeD]; omega
theorem encode (t : Byte) (data : Bytes) : Statement (.encode t data) := by
  simp [Statement, Sys2Proof.encode, total, length_encodeD]; omega
theorem decReset (inst : Byte) : Statement (.decReset inst) := rfl
theorem decParse (inst b : Byte) : Statement (.decParse inst b) := rfl
theorem decStatus (inst : Byte) : Statement (.decStatus inst) := rfl
theorem decRead (inst : Byte) : Statement (.decRead inst) := rfl
theorem rxInit (inst : Byte) (h : Word) : Statement (.rxInit inst h) := rfl
theorem rxAppend (inst : Byte) (data : Bytes) : Statement (.rxAppend inst data) := by
  simp [Statement, Sys2Proof.encode, total, length_encodeD]; omega
theorem rxQuery (inst : Byte) : Statement (.rxQuery inst) := rfl
theorem rxDestroy (inst : Byte) : Statement (.rxDestroy inst) := rfl
theorem rbInit (inst : Byte) (c : Word) : Statement (.rbInit inst c) := rfl
theorem rbWrite (inst : Byte) (data : Bytes) : Statement (.rbWrite inst data) := by
  simp [Statement, Sys2Proof.encode, total, length_encodeD]; omega
theorem rbRead (inst : Byte) (m : Word) : Statement (.rbRead inst m) := rfl
theorem rbFreeSpace (inst : Byte) : Statement (.rbFreeSpace inst) := rfl
theorem rbUsedSpace (inst : Byte) : Statement (.rbUsedSpace inst) := rfl
theorem rbIsEmpty (inst : Byte) : Statement (.rbIsEmpty inst) := rfl
theorem rbIsFull (inst : Byte) : Statement (.rbIsFull inst) := rfl
theorem rbDump (inst : Byte) : Statement (.rbDump inst) := rfl
theorem rbDestroy (inst : Byte) : Statement (.rbDestroy inst) := rfl

end Sys2Proof.Laws.EncodeLength
end

