-- ==== Sys2Proof/Laws/Ring.lean ====
section
/-! SUPPORT. The ring buffer's spans: which offsets a write stores to and which a read returns (44_ringbuffer.md R254,
R256), and that the data path keeps the ring's invariant. -/

namespace Sys2Proof.Machine

/-- An offset that passes the end of the store at most once. -/
theorem mod_once {c x : Nat} (hx : x < 2 * c) : x % c = if x < c then x else x - c := by
  split
  · next h => exact Nat.mod_eq_of_lt h
  · next h => rw [Nat.mod_eq_sub_mod (by omega), Nat.mod_eq_of_lt (by omega)]

/-- Distinct counts below the capacity are distinct offsets. -/
theorem ring_offset_inj {c s i j : Nat} (hs : s < c) (hi : i < c) (hj : j < c)
    (h : (s + i) % c = (s + j) % c) : i = j := by
  rw [mod_once (by omega), mod_once (by omega)] at h
  split at h <;> split at h <;> omega

namespace Rb

variable {b : Rb} {m : Memory}

/-- What each offset of the store reads as after an accepted write (R253, R254). -/
theorem read_enqueue (hm : b.store = some m) (hsz : m.size = b.cap) (hh : b.head < b.cap) {data : Bytes}
    (hn : data.length ≤ b.cap) {i : Nat} (hi : i < b.cap) :
    (storeOf (b.enqueue data).store).read ((b.head + i) % b.cap) =
      if i < data.length then data.getD i 0 else m.read ((b.head + i) % b.cap) := by
  have h1 : b.head + (data.take (min data.length (b.cap - b.head))).length ≤ m.size := by
    simp only [List.length_take]; omega
  have h2 : 0 + (data.drop (min data.length (b.cap - b.head))).length ≤
      (m.writeBytes b.head (data.take (min data.length (b.cap - b.head)))).size := by
    simp only [List.length_drop, Memory.size_writeBytes]; omega
  simp only [enqueue, hm, storeBytes_some, storeOf_some]
  rw [Memory.read_writeBytes _ h2, Memory.read_writeBytes _ h1, mod_once (by omega)]
  simp only [List.length_drop, List.length_take]
  by_cases hw : b.head + i < b.cap
  · rw [if_pos hw, if_neg (by omega)]
    by_cases hlt : i < data.length
    · rw [if_pos (by omega), if_pos hlt]
      simp only [List.getD_eq_getElem?_getD, Nat.add_sub_cancel_left]
      rw [List.getElem?_take_of_lt (by omega)]
    · rw [if_neg (by omega), if_neg hlt]
  · rw [if_neg hw]
    by_cases hlt : i < data.length
    · rw [if_pos (by omega), if_pos hlt]
      simp only [List.getD_eq_getElem?_getD, List.getElem?_drop]
      congr 2; omega
    · rw [if_neg (by omega), if_neg (by omega), if_neg hlt]

/-- The bytes that a read of `n` returns are those at the `n` offsets from `tail` (R255, R256). -/
theorem oldest_eq (ht : b.tail < b.cap) {n : Nat} (hn : n ≤ b.cap) :
    b.oldest n = (List.range n).map fun i => (storeOf b.store).read ((b.tail + i) % b.cap) := by
  apply List.ext_getElem?
  intro i
  simp only [oldest, loadBytes, List.getElem?_append, Memory.length_readBytes, Memory.getElem?_readBytes,
    List.getElem?_map]
  by_cases hi : i < n
  · rw [List.getElem?_range hi, Option.map_some, mod_once (by omega)]
    by_cases hw : b.tail + i < b.cap
    · rw [if_pos (by omega), if_pos (by omega), if_pos hw]
    · rw [if_neg (by omega), if_pos (by omega), if_neg hw]
      congr 2; omega
  · rw [List.getElem?_eq_none (l := List.range n) (by simpa using hi)]
    rw [if_neg (by omega), if_neg (by omega)]
    rfl

@[simp] theorem length_oldest (b : Rb) (n : Nat) : (b.oldest n).length = n := by simp [oldest]

@[simp] theorem length_contents (b : Rb) : b.contents.length = b.length := by simp [contents]

/-- A fresh ring is empty and meets the invariant (10_state.md R37). -/
theorem inv_fresh {c maxCap : Nat} (hc : 1 ≤ c ∧ c ≤ maxCap) (fill : Nat) : (fresh c fill).Inv maxCap where
  capRange _ := hc
  offsets _ := ⟨hc.1, hc.1, Nat.zero_le _⟩
  headOfTail _ := (Nat.zero_mod _).symm
  backing _ := HasStore.new c fill
  ofDead h := by cases h

theorem Inv.enqueue {maxCap : Nat} (h : b.Inv maxCap) (hl : b.live = true) {data : Bytes}
    (hn : data.length ≤ b.freeSpace) : (b.enqueue data).Inv maxCap where
  capRange := fun _ => h.capRange hl
  offsets := fun _ => by
    have h1 := h.capRange hl
    have h2 := h.offsets hl
    unfold freeSpace at hn
    exact ⟨Nat.mod_lt _ h1.1, h2.2.1, by show b.length + data.length ≤ b.cap; omega⟩
  headOfTail := fun _ => by
    show (b.head + data.length) % b.cap = (b.tail + (b.length + data.length)) % b.cap
    rw [h.headOfTail hl, Nat.mod_add_mod, Nat.add_assoc]
  backing := fun _ => ((h.backing hl).storeBytes _ _).storeBytes _ _
  ofDead := fun hd => by rw [show (b.enqueue data).live = b.live from rfl, hl] at hd; cases hd

theorem Inv.dequeue {maxCap : Nat} (h : b.Inv maxCap) (hl : b.live = true) {n : Nat} (hn : n ≤ b.length) :
    (b.dequeue n).Inv maxCap where
  capRange := fun _ => h.capRange hl
  offsets := fun _ => by
    have h1 := h.capRange hl
    have h2 := h.offsets hl
    exact ⟨h2.1, Nat.mod_lt _ h1.1, by show b.length - n ≤ b.cap; omega⟩
  headOfTail := fun _ => by
    show b.head = ((b.tail + n) % b.cap + (b.length - n)) % b.cap
    rw [h.headOfTail hl, Nat.mod_add_mod, Nat.add_assoc, Nat.add_sub_cancel' hn]
  backing := fun _ => h.backing hl
  ofDead := fun hd => by rw [show (b.dequeue n).live = b.live from rfl, hl] at hd; cases hd

theorem inv_released (b : Rb) (maxCap : Nat) : b.released.Inv maxCap where
  capRange h := by cases h
  offsets h := by cases h
  headOfTail h := by cases h
  backing h := by cases h
  ofDead _ := rfl

end Rb
end Sys2Proof.Machine
end

