-- ==== Sys2Proof/Tests/Slice0.lean ====
section
/-! SUPPORT. The model's own tests: the WellFormed smoke, decoding, at most two single-step tests per command, and for
every obligation with hypotheses a witness that meets them. Expected results are the vectors of 95_test_vectors.md and
the examples of the rules named in the comments. -/

namespace Sys2Proof.Tests

open Sys2Proof.Machine

/-! ## WellFormed: a data operand that the length field cannot carry -/

theorem too_long (n : Nat) (h : 2 ^ 32 ≤ n) :
    (Instr.crc16 (List.replicate n 0)).wf = false ∧ (Instr.crc16Cont 0 (List.replicate n 0)).wf = false ∧
      (Instr.encode 1 (List.replicate n 0)).wf = false ∧ (Instr.rxAppend 0 (List.replicate n 0)).wf = false ∧
      (Instr.rbWrite 0 (List.replicate n 0)).wf = false := by
  simp only [Instr.wf, fitsLengthField, List.length_replicate, decide_eq_false_iff_not]
  omega

theorem test_wf_refuses_crc16 : (Instr.crc16 (List.replicate (2 ^ 32) 0)).wf = false :=
  (too_long _ (Nat.le_refl _)).1
theorem test_wf_refuses_crc16Cont : (Instr.crc16Cont 0 (List.replicate (2 ^ 32) 0)).wf = false :=
  (too_long _ (Nat.le_refl _)).2.1
theorem test_wf_refuses_encode : (Instr.encode 1 (List.replicate (2 ^ 32) 0)).wf = false :=
  (too_long _ (Nat.le_refl _)).2.2.1
theorem test_wf_refuses_rxAppend : (Instr.rxAppend 0 (List.replicate (2 ^ 32) 0)).wf = false :=
  (too_long _ (Nat.le_refl _)).2.2.2.1
theorem test_wf_refuses_rbWrite : (Instr.rbWrite 0 (List.replicate (2 ^ 32) 0)).wf = false :=
  (too_long _ (Nat.le_refl _)).2.2.2.2

/-! ## Decoding: one string per command, written out from R88 and R90 -/

theorem test_decode_crc16 : decode [0x01, 0x00, 0x02, 0x00, 0x00, 0x00, 0x31, 0x32] = .ok (.crc16 [0x31, 0x32]) := by
  decide
theorem test_decode_crc16Cont :
    decode [0x02, 0x00, 0x34, 0x12, 0x02, 0x00, 0x00, 0x00, 0x01, 0x02] = .ok (.crc16Cont 0x1234 [0x01, 0x02]) := by
  decide
theorem test_decode_encode :
    decode [0x10, 0x00, 0x01, 0x02, 0x00, 0x00, 0x00, 0x68, 0x69] = .ok (.encode 1 [0x68, 0x69]) := by decide
theorem test_decode_decReset : decode [0x20, 0x03] = .ok (.decReset 3) := by decide
theorem test_decode_decParse : decode [0x21, 0x00, 0x55] = .ok (.decParse 0 0x55) := by decide
theorem test_decode_decStatus : decode [0x22, 0xFF] = .ok (.decStatus 255) := by decide
theorem test_decode_decRead : decode [0x23, 0x01] = .ok (.decRead 1) := by decide
theorem test_decode_rxInit : decode [0x30, 0x00, 0x40, 0x00, 0x00, 0x00] = .ok (.rxInit 0 64) := by decide
theorem test_decode_rxAppend :
    decode [0x31, 0x02, 0x01, 0x00, 0x00, 0x00, 0xAA] = .ok (.rxAppend 2 [0xAA]) := by decide
theorem test_decode_rxQuery : decode [0x32, 0x01] = .ok (.rxQuery 1) := by decide
theorem test_decode_rxDestroy : decode [0x33, 0x00] = .ok (.rxDestroy 0) := by decide
theorem test_decode_rbInit : decode [0x40, 0x01, 0x04, 0x03, 0x02, 0x01] = .ok (.rbInit 1 0x01020304) := by decide
theorem test_decode_rbWrite : decode [0x41, 0x00, 0x00, 0x00, 0x00, 0x00] = .ok (.rbWrite 0 []) := by decide
theorem test_decode_rbRead : decode [0x42, 0x02, 0x05, 0x00, 0x00, 0x00] = .ok (.rbRead 2 5) := by decide
theorem test_decode_rbFreeSpace : decode [0x43, 0x00] = .ok (.rbFreeSpace 0) := by decide
theorem test_decode_rbUsedSpace : decode [0x44, 0x00] = .ok (.rbUsedSpace 0) := by decide
theorem test_decode_rbIsEmpty : decode [0x45, 0x00] = .ok (.rbIsEmpty 0) := by decide
theorem test_decode_rbIsFull : decode [0x46, 0x00] = .ok (.rbIsFull 0) := by decide
theorem test_decode_rbDump : decode [0x47, 0x00] = .ok (.rbDump 0) := by decide
theorem test_decode_rbDestroy : decode [0x48, 0x00] = .ok (.rbDestroy 0) := by decide

/-- V-CRC-24 to V-CRC-27 and R98. -/
theorem test_decode_refusals :
    decode [0x01, 0x05, 0x00, 0x00, 0x00, 0x00] = .error .nonzeroInst ∧
      decode [0x01, 0x00, 0x03, 0x00, 0x00, 0x00, 0xAA] = .error .badLength ∧
      decode [0x02, 0x00, 0xFF, 0xFF, 0x00, 0x00, 0x00] = .error .badLength ∧
      decode [0x01] = .error .badLength ∧ decode [0x24, 0x00] = .error .reservedOpc := by decide

/-- The 16-bit words of opcode_table.json, completed with operand bytes of zeros (log 13). -/
theorem test_table_words :
    decodeTableWord 16 0x0001 = some (.crc16 []) ∧ decodeTableWord 16 0x0002 = some (.crc16Cont 0 []) ∧
      decodeTableWord 16 0x0010 = some (.encode 0 []) ∧ decodeTableWord 16 0x0321 = some (.decParse 3 0) ∧
      decodeTableWord 16 0x0142 = some (.rbRead 1 0) ∧ decodeTableWord 16 0x0101 = none := by decide

/-! ## A small block -/

/-- One live and one dead instance of each unit; the draws to come. -/
def block (dec : Dec) (rx : Rx) (rb : Rb) (answers : List Nat) : State :=
  ⟨[], [], none, none, [⟨true, dec⟩, DecUnit.powerOn], [rx, Rx.powerOn], [rb, Rb.powerOn], ⟨answers, 0⟩,
    ⟨108, 64, 64⟩⟩

/-- A receiver with capacity 16 and a ring with capacity 8, both empty, and a decoder just reset. -/
def fresh (answers : List Nat) : State := block Dec.reset (Rx.fresh 16 0) (Rb.fresh 8 0) answers

/-- The responses after a command. -/
def answersOf : Host.Outcome State Fault Refusal → List Bytes
  | .next t => t.out
  | .fault _ | .refused _ => []

/-- The fault mark after a command. -/
def faultOf : Host.Outcome State Fault Refusal → Option Fault
  | .next t => t.faulted
  | .fault _ | .refused _ => none

/-- wp, pp, cap and the number of cells of receiver 0 after a command. -/
def rx0Of : Host.Outcome State Fault Refusal → Option (Nat × Nat × Nat)
  | .next t => t.rxs.head?.map fun r => (r.wp, r.pp, r.cap)
  | .fault _ | .refused _ => none

/-- head, tail, length and contents of ring 0 after a command. -/
def rb0Of : Host.Outcome State Fault Refusal → Option (Nat × Nat × Nat × Bytes)
  | .next t => t.rbs.head?.map fun b => (b.head, b.tail, b.length, b.contents)
  | .fault _ | .refused _ => none

/-- State, length and `out_valid` of decoder 0 after a command. -/
def dec0Of : Host.Outcome State Fault Refusal → Option (DecState × Half × Bool)
  | .next t => t.decs.head?.map fun u => (u.dec.st, u.dec.len, u.dec.outValid)
  | .fault _ | .refused _ => none

/-- "helloworld". -/
def hw : Bytes := [0x68, 0x65, 0x6C, 0x6C, 0x6F, 0x77, 0x6F, 0x72, 0x6C, 0x64]

/-- V-FIX-1. -/
def fixture : Bytes := [0x55, 0xAA, 0x01, 0x0A, 0x00] ++ hw ++ [0x84, 0xDA, 0xAA, 0x55]

/-- The decoder after V-ENC-2's frame but for its last byte. -/
def lastByteDec : Dec := ⟨.waitT2, 1, 0, 0, 0x9284, some (Memory.new 0 0), false⟩

/-- The decoder after `fixture[0:10]`. -/
def halfDec : Dec := ⟨.payload, 1, 10, 5, 0, some ((Memory.new 10 0).writeBytes 0 (hw.take 5)), false⟩

/-- V-RB-2's ring: capacity 8, "DE" at tail 3, head 5, with "ABC" read. -/
def ringDE : Rb := ((Rb.fresh 8 0).enqueue [0x41, 0x42, 0x43, 0x44, 0x45]).dequeue 3

/-- V-RB-3's ring: "DEFGHIJK", full, wrapped. -/
def ringFull : Rb := ringDE.enqueue [0x46, 0x47, 0x48, 0x49, 0x4A, 0x4B]

/-! ## CRC and encoder -/

/-- V-CRC-6. -/
theorem test_crc16_check_value :
    answersOf (exec (.crc16 [0x31, 0x32, 0x33, 0x34, 0x35, 0x36, 0x37, 0x38, 0x39]) (fresh [])) =
      [[0x00, 0xB1, 0x29]] := by decide +kernel
/-- V-CRC-1. -/
theorem test_crc16_empty : answersOf (exec (.crc16 []) (fresh [])) = [[0x00, 0xFF, 0xFF]] := by decide
/-- V-CRC-13. -/
theorem test_crc16Cont : answersOf (exec (.crc16Cont 0x1234 [0x01, 0x02]) (fresh [])) = [[0x00, 0xB5, 0x00]] := by
  decide +kernel
/-- V-CRC-20. -/
theorem test_crc16Cont_top_bit : answersOf (exec (.crc16Cont 0x8000 [0x00]) (fresh [])) = [[0x00, 0x88, 0x91]] := by
  decide +kernel
/-- V-ENC-1: n = 19, then the fixture. -/
theorem test_encode_fixture :
    answersOf (exec (.encode 1 hw) (fresh [1])) = [[0x00, 0x13, 0x00, 0x00, 0x00] ++ fixture] := by decide +kernel
/-- R141 and R304: 109 bytes are refused before any draw; 108 bytes draw, here a false answer. -/
theorem test_encode_limit :
    answersOf (exec (.encode 1 (List.replicate 109 0)) (fresh [0])) = [[0x02]] ∧
      answersOf (exec (.encode 1 (List.replicate 108 0)) (fresh [0])) = [[0x01]] := by decide

/-! ## Decoder -/

/-- R160 on a decoder that was never live. -/
theorem test_decReset_makes_live :
    (match exec (.decReset 1) (fresh []) with
      | .next t => t.decs[1]?
      | .fault _ | .refused _ => none) = some ⟨true, Dec.reset⟩ := by decide
/-- R162: a mismatched second header byte is not tested again as a first one. -/
theorem test_decParse_no_retest :
    dec0Of (exec (.decParse 0 0x55) (block { Dec.reset with st := .waitH2 } Rx.powerOn Rb.powerOn [])) =
      some (.waitH1, 0, false) := by decide
/-- V-ENC-2's last byte completes; R169, R171. -/
theorem test_decParse_completes :
    answersOf (exec (.decParse 0 0x55) (block lastByteDec Rx.powerOn Rb.powerOn [])) = [[0x00, 0x01]] ∧
      dec0Of (exec (.decParse 0 0x55) (block lastByteDec Rx.powerOn Rb.powerOn [])) = some (.waitH1, 0, true) := by
  decide +kernel
/-- R172's example: st = 3. -/
theorem test_decStatus :
    answersOf (exec (.decStatus 0) (block { Dec.reset with st := .waitLen1, typ := 1 } Rx.powerOn Rb.powerOn [])) =
      [[0x00, 0x03, 0x00]] := by decide
/-- R173: typ 1, len 10, "helloworld". -/
theorem test_decRead :
    answersOf (exec (.decRead 0)
      (block ⟨.waitH1, 1, 10, 10, 0xDA84, some ((Memory.new 10 0).writeBytes 0 hw), true⟩ Rx.powerOn Rb.powerOn [])) =
      [[0x00, 0x01, 0x0A, 0x00] ++ hw] := by decide +kernel
/-- R173: NO_FRAME. -/
theorem test_decRead_no_frame : faultOf (exec (.decRead 0) (fresh [])) = some .noFrame := by decide

/-! ## Receiver -/

/-- R200: capacity 64; R304: a zero hint on a live receiver faults. -/
theorem test_rxInit :
    (match exec (.rxInit 1 64) (fresh [1]) with
      | .next t => t.rxs[1]?.map fun r => (r.live, r.wp, r.pp, r.cap)
      | .fault _ | .refused _ => none) = some (true, 0, 0, 64) ∧
      faultOf (exec (.rxInit 0 0) (fresh [1])) = some .alreadyLive := by decide
/-- R201: 65 is above RX_MAX_CAP, whatever the answer. -/
theorem test_rxInit_above_max : answersOf (exec (.rxInit 1 65) (fresh [1])) = [[0x01]] := by decide
/-- V-RX-1: garbage, then the fixture; one event, and the buffer is empty. -/
theorem test_rxAppend_resync :
    answersOf (exec (.rxAppend 0 ([0x01, 0x02, 0x03, 0x04] ++ fixture))
      (block Dec.reset (Rx.fresh 64 0) Rb.powerOn [1])) =
        [[0x00, 0x00, 0x00, 0x00, 0x00, 0x01, 0x00, 0x00, 0x00, 0x01, 0x0A, 0x00] ++ hw] ∧
      rx0Of (exec (.rxAppend 0 ([0x01, 0x02, 0x03, 0x04] ++ fixture))
        (block Dec.reset (Rx.fresh 64 0) Rb.powerOn [1])) = some (0, 0, 64) := by decide +kernel
/-- V-RX-7: the second fragment empties the buffer, and its frame is lost. -/
theorem test_rxAppend_loss :
    answersOf (exec (.rxAppend 0 (fixture.drop 10))
      (block Dec.reset ⟨true, 16, 10, 10, some ((Memory.new 16 0).writeBytes 0 (fixture.take 10)), halfDec⟩
        Rb.powerOn [])) = [[0x00, 0x00, 0x00, 0x00, 0x00, 0x00, 0x00, 0x00, 0x00]] ∧
      rx0Of (exec (.rxAppend 0 (fixture.drop 10))
        (block Dec.reset ⟨true, 16, 10, 10, some ((Memory.new 16 0).writeBytes 0 (fixture.take 10)), halfDec⟩
          Rb.powerOn [])) = some (9, 9, 16) := by decide +kernel
/-- R203. -/
theorem test_rxQuery :
    answersOf (exec (.rxQuery 0) (block Dec.reset { Rx.fresh 16 0 with wp := 9, pp := 9 } Rb.powerOn [])) =
      [[0x00, 0x09, 0x00, 0x00, 0x00, 0x09, 0x00, 0x00, 0x00, 0x10, 0x00, 0x00, 0x00]] := by decide
/-- R202: the first destroy answers OK and releases; a dead receiver faults. -/
theorem test_rxDestroy :
    (match exec (.rxDestroy 0) (fresh []) with
      | .next t => t.rxs.head?.map fun r => (r.live, r.buf)
      | .fault _ | .refused _ => none) = some (false, none) ∧
      faultOf (exec (.rxDestroy 1) (fresh [])) = some .notLive := by decide

/-! ## Ring buffer -/

/-- R250. -/
theorem test_rbInit :
    (match exec (.rbInit 1 8) (fresh [1]) with
      | .next t => t.rbs[1]?.map fun b => (b.live, b.cap, b.head, b.tail, b.length)
      | .fault _ | .refused _ => none) = some (true, 8, 0, 0, 0) ∧
      answersOf (exec (.rbInit 1 0) (fresh [1])) = [[0x04]] := by decide
/-- V-RB-3: two spans. -/
theorem test_rbWrite_wraps :
    rb0Of (exec (.rbWrite 0 [0x46, 0x47, 0x48, 0x49, 0x4A, 0x4B]) (block Dec.reset Rx.powerOn ringDE [])) =
      some (3, 3, 8, [0x44, 0x45, 0x46, 0x47, 0x48, 0x49, 0x4A, 0x4B]) := by decide +kernel
/-- R253: one byte more than the free space is refused whole. -/
theorem test_rbWrite_refused :
    answersOf (exec (.rbWrite 0 (List.replicate 7 0)) (block Dec.reset Rx.powerOn ringDE [])) = [[0x03]] := by decide
/-- V-RB-5: the clamp, two spans, n = 8. -/
theorem test_rbRead_clamps :
    answersOf (exec (.rbRead 0 10) (block Dec.reset Rx.powerOn ringFull [])) =
        [[0x00, 0x08, 0x00, 0x00, 0x00, 0x44, 0x45, 0x46, 0x47, 0x48, 0x49, 0x4A, 0x4B]] ∧
      rb0Of (exec (.rbRead 0 10) (block Dec.reset Rx.powerOn ringFull [])) = some (3, 3, 0, []) := by decide +kernel
/-- R257: free space of the ring holding 2 of 8. -/
theorem test_rbFreeSpace :
    answersOf (exec (.rbFreeSpace 0) (block Dec.reset Rx.powerOn ringDE [])) = [[0x00, 0x06, 0x00, 0x00, 0x00]] := by
  decide
/-- R258. -/
theorem test_rbUsedSpace :
    answersOf (exec (.rbUsedSpace 0) (block Dec.reset Rx.powerOn ringDE [])) = [[0x00, 0x02, 0x00, 0x00, 0x00]] := by
  decide
/-- R259: head = tail in both. -/
theorem test_rbIsEmpty :
    answersOf (exec (.rbIsEmpty 0) (fresh [])) = [[0x00, 0x01]] ∧
      answersOf (exec (.rbIsEmpty 0) (block Dec.reset Rx.powerOn ringFull [])) = [[0x00, 0x00]] := by decide
/-- R260. -/
theorem test_rbIsFull :
    answersOf (exec (.rbIsFull 0) (fresh [])) = [[0x00, 0x00]] ∧
      answersOf (exec (.rbIsFull 0) (block Dec.reset Rx.powerOn ringFull [])) = [[0x00, 0x01]] := by decide
/-- R261's example: head 3, tail 3, length 8, "IJKDEFGH". -/
theorem test_rbDump :
    answersOf (exec (.rbDump 0) (block Dec.reset Rx.powerOn ringFull [])) =
      [[0x00, 8, 0, 0, 0, 3, 0, 0, 0, 3, 0, 0, 0, 8, 0, 0, 0, 0x49, 0x4A, 0x4B, 0x44, 0x45, 0x46, 0x47, 0x48]] := by
  decide +kernel
/-- R261: 0x1F and 0x7F are not printable, 0x20 and 0x7E are. -/
theorem test_render : [0x1F, 0x20, 0x7E, 0x7F].map render = [0x2E, 0x20, 0x7E, 0x2E] := by decide
/-- R252. -/
theorem test_rbDestroy :
    (match exec (.rbDestroy 0) (fresh []) with
      | .next t => t.rbs.head?.map fun b => (b.live, b.store)
      | .fault _ | .refused _ => none) = some (false, none) ∧
      faultOf (exec (.rbDestroy 2) (fresh [])) = some .badInstance := by decide

/-! ## Steps -/

/-- The first step after power-on runs the command that the host issues: `CRC16 []` answers FFFF. -/
theorem test_first_step : answersOf (step (State.reset.withFetchWord 16 0x0001)) = [[0x00, 0xFF, 0xFF]] := by decide
/-- R303: a reserved opcode sets the mark and answers nothing. -/
theorem test_refused_string :
    (match step { fresh [] with pending := [[0x24, 0x00]] } with
      | .next t => (t.refused, t.out)
      | .fault _ | .refused _ => (none, [])) = (some (.malformed .reservedOpc), []) := by decide

/-! ## Witnesses: for every obligation with hypotheses, a state and operands that meet them, each clause at a boundary -/

/-- A block that meets the invariant: a reset decoder, an empty receiver of capacity 16, and `ringDE`. -/
def live (answers : List Nat) : State := block Dec.reset (Rx.fresh 16 0) ringDE answers

theorem inv_ringDE : ringDE.Inv 64 :=
  ((Rb.inv_fresh (by decide) 0).enqueue rfl (by decide)).dequeue rfl (by decide)

theorem inv_dead_dec : DecUnit.powerOn.Inv := ⟨fun h => (nomatch h), fun _ => ⟨rfl, rfl⟩⟩

theorem inv_dead_rx : Rx.powerOn.Inv 64 :=
  ⟨fun h => (nomatch h), fun h => (nomatch h), fun h => (nomatch h), fun h => (nomatch h), fun _ => ⟨rfl, rfl⟩⟩

theorem inv_dead_rb : Rb.powerOn.Inv 64 :=
  ⟨fun h => (nomatch h), fun h => (nomatch h), fun h => (nomatch h), fun h => (nomatch h), fun _ => rfl⟩

theorem inv_live (answers : List Nat) : (live answers).Inv where
  params := show ParamsInv ⟨108, 64, 64⟩ from ⟨by decide, by decide, by decide⟩
  counts := show (1 ≤ 2 ∧ 2 ≤ 256) ∧ (1 ≤ 2 ∧ 2 ≤ 256) ∧ (1 ≤ 2 ∧ 2 ≤ 256) by decide
  decoders u hu := by
    rcases List.mem_pair.mp hu with rfl | rfl
    · exact ⟨fun _ => Dec.inv_reset, fun h => (nomatch h)⟩
    · exact inv_dead_dec
  receivers r hr := by
    rcases List.mem_pair.mp hr with rfl | rfl
    · exact Rx.inv_fresh (maxCap := 64) (by decide) 0
    · exact inv_dead_rx
  rings b hb := by
    rcases List.mem_pair.mp hb with rfl | rfl
    · exact inv_ringDE
    · exact inv_dead_rb
  oneMark := .inl rfl

/-- The three cases of AnswersOnLiveDec: instances 2, 1 and 0. -/
theorem cases_dec : (live []).decAt 2 = none ∧ ((live []).decAt 1 = some DecUnit.powerOn ∧ DecUnit.powerOn.live = false) ∧
    (live []).decAt 0 = some ⟨true, Dec.reset⟩ := ⟨rfl, ⟨rfl, rfl⟩, rfl⟩

/-- The three cases of AnswersOnLiveRx. -/
theorem cases_rx : (live []).rxAt 2 = none ∧ ((live []).rxAt 1 = some Rx.powerOn ∧ Rx.powerOn.live = false) ∧
    ((live []).rxAt 0 = some (Rx.fresh 16 0) ∧ (Rx.fresh 16 0).live = true) := ⟨rfl, ⟨rfl, rfl⟩, ⟨rfl, rfl⟩⟩

/-- The three cases of AnswersOnLiveRb. -/
theorem cases_rb : (live []).rbAt 2 = none ∧ ((live []).rbAt 1 = some Rb.powerOn ∧ Rb.powerOn.live = false) ∧
    ((live []).rbAt 0 = some ringDE ∧ ringDE.live = true) := ⟨rfl, ⟨rfl, rfl⟩, ⟨rfl, rfl⟩⟩

theorem witness_EncodeAnswersFrameOrStatus :
    (live []).par.encMaxPayload < (List.replicate 109 (0 : Byte)).length ∧
      ((List.replicate 108 (0 : Byte)).length ≤ (live [0]).par.encMaxPayload ∧ (live [0]).env.answer = 0) ∧
      (([] : Bytes).length ≤ (live [1]).par.encMaxPayload ∧ (live [1]).env.answer ≠ 0) := by decide

theorem witness_WireFrameLayout :
    (List.replicate 65535 (0 : Byte)).length ≤ 65535 ∧ ([] : Bytes).length ≤ 65535 ∧ 0 < ([7] : Bytes).length :=
  ⟨Nat.le_of_eq List.length_replicate, by decide, by decide⟩

theorem witness_DecResetWritesEveryField :
    (live []).decAt 2 = none ∧ (live []).decAt 1 = some DecUnit.powerOn := ⟨rfl, rfl⟩
theorem witness_DecResetIsIdempotent : ((live []).decAt 1).isSome = true := by decide
theorem witness_DecParseFeedsOneByte : (live []).decAt 0 = some ⟨true, Dec.reset⟩ := cases_dec.2.2

theorem witness_DecoderHeaderAndLengthArms :
    (Dec.reset.st = .waitH1 ∧ (0x54 : Byte) ≠ 0x55) ∧ (Dec.reset.st = .waitH1 ∧ (0x55 : Byte) = 0x55) ∧
      ({ Dec.reset with st := .waitH2 } : Dec).st = .waitH2 ∧ (0x55 : Byte) ≠ 0xAA ∧ (0xAA : Byte) = 0xAA ∧
      ({ Dec.reset with st := .waitType } : Dec).st = .waitType ∧
      ({ Dec.reset with st := .waitLen1 } : Dec).st = .waitLen1 ∧
      (({ Dec.reset with st := .waitLen2, len := 255 } : Dec).st = .waitLen2 ∧ (255 : Half).toNat < 2 ^ 8 ∧
        255 + 256 * (255 : Byte).toNat ≠ 0 ∧ (live [1]).env.answer ≠ 0 ∧ (live [0]).env.answer = 0) ∧
      (({ Dec.reset with st := .waitLen2 } : Dec).len.toNat + 256 * (0 : Byte).toNat = 0) := by decide

theorem witness_DecoderPayloadCrcAndTailArms :
    (halfDec.st = .payload ∧ (∃ m, halfDec.pay = some m) ∧ halfDec.cur.toNat < halfDec.len.toNat) ∧
      ({ Dec.reset with st := .waitCrc1 } : Dec).st = .waitCrc1 ∧
      (({ Dec.reset with st := .waitCrc2, crcRx := 255 } : Dec).st = .waitCrc2 ∧ (255 : Half).toNat < 2 ^ 8) ∧
      ({ Dec.reset with st := .waitT1 } : Dec).st = .waitT1 ∧ (0xAA : Byte) = 0xAA ∧ (0x55 : Byte) ≠ 0xAA ∧
      (lastByteDec.st = .waitT2 ∧
        crc16Cont (crc16 [0x55, 0xAA, lastByteDec.typ, lo8 lastByteDec.len, hi8 lastByteDec.len])
          (loadBytes lastByteDec.pay 0 lastByteDec.len.toNat) = lastByteDec.crcRx) ∧
      crc16Cont (crc16 [0x55, 0xAA, lastByteDec.typ, lo8 lastByteDec.len, hi8 lastByteDec.len])
          (loadBytes lastByteDec.pay 0 lastByteDec.len.toNat) ≠ 0x8492 ∧ (0x54 : Byte) ≠ 0x55 := by
  refine ⟨⟨rfl, ⟨_, rfl⟩, by decide⟩, ?_⟩
  decide +kernel

theorem witness_PayloadByteIsStoredAtCursor :
    ∃ m, (block halfDec Rx.powerOn Rb.powerOn []).decAt 0 = some ⟨true, halfDec⟩ ∧ halfDec.st = .payload ∧
      halfDec.outValid = false ∧ halfDec.pay = some m ∧ m.size = halfDec.len.toNat ∧
      halfDec.cur.toNat < halfDec.len.toNat := ⟨_, rfl, rfl, rfl, rfl, by decide, by decide⟩

theorem witness_DecStatusReportsStateCode : (live []).decAt 0 = some ⟨true, Dec.reset⟩ := cases_dec.2.2
theorem witness_DecReadAnswersCompletedFrame : (live []).decAt 0 = some ⟨true, Dec.reset⟩ := cases_dec.2.2

/-- The decoder that holds V-ENC-2's completed frame. -/
def doneDec : Dec := { lastByteDec with st := .waitH1, outValid := true }

/-- The commands that close no window: one on the decoder itself, one on another decoder. -/
theorem witness_ReadWindowClosesAtNextCommand :
    (block doneDec Rx.powerOn Rb.powerOn []).decAt 0 = some ⟨true, doneDec⟩ ∧ doneDec.outValid = true ∧
      ((∀ c, Instr.decStatus 0 ≠ .decParse 0 c) ∧ Instr.decStatus 0 ≠ .decReset 0 ∧
        ∃ t, exec (.decStatus 0) (block doneDec Rx.powerOn Rb.powerOn []) = .next t) ∧
      ((∀ c, Instr.decReset 1 ≠ .decParse 0 c) ∧ Instr.decReset 1 ≠ .decReset 0 ∧
        ∃ t, exec (.decReset 1) (block doneDec Rx.powerOn Rb.powerOn []) = .next t) :=
  ⟨rfl, rfl, ⟨by simp, by decide, _, rfl⟩, ⟨by simp, by decide, _, rfl⟩⟩

theorem witness_StrayHeaderByteLosesNextHeader : Dec.reset.st = .waitH1 ∧ Dec.reset.outValid = false := ⟨rfl, rfl⟩

theorem witness_DecodingAFrameGivesItBack :
    (([] : Bytes).length ≤ 65535 ∧ (live [0]).pending = [] ∧ (live [0]).stopped = false ∧
        (live [0]).decAt 0 = some ⟨true, Dec.reset⟩) ∧
      ((List.replicate 65535 (0 : Byte)).length ≤ 65535 ∧ (live [1]).pending = [] ∧ (live [1]).stopped = false ∧
        (live [1]).decAt 0 = some ⟨true, Dec.reset⟩ ∧ (live [1]).env.answer ≠ 0) :=
  ⟨⟨by decide, rfl, rfl, rfl⟩, ⟨Nat.le_of_eq List.length_replicate, rfl, rfl, rfl, by decide⟩⟩

theorem witness_CompletionMeansAWholeFrameArrived :
    ((Feed.mk Dec.reset ⟨[], 0⟩ []).bytes
      ([0x55] ++ [0x00] ++ [0x55, 0xAA, 0x01, 0x00, 0x00, 0x84, 0x92, 0xAA, 0x55])).results.getLast? = some true := by
  decide +kernel

theorem witness_RxInitCreatesReceiver :
    (live []).rxAt 2 = none ∧ ((live []).rxAt 0 = some (Rx.fresh 16 0) ∧ (Rx.fresh 16 0).live = true) ∧
      ((live []).rxAt 1 = some Rx.powerOn ∧ Rx.powerOn.live = false) ∧ (0 : Word) = 0 ∧ (1 : Word) ≠ 0 ∧
      ((live [0]).env.answer = 0 ∨ (live [0]).par.rxMaxCap < (1 : Word).toNat) ∧
      ((live [1]).env.answer = 0 ∨ (live [1]).par.rxMaxCap < (65 : Word).toNat) ∧
      ((live [1]).env.answer ≠ 0 ∧ (64 : Word).toNat ≤ (live [1]).par.rxMaxCap) := by decide

theorem witness_RxDestroyReleases : (live []).rxAt 0 = some (Rx.fresh 16 0) := rfl
theorem witness_RxQueryAnswersCursors : (live []).rxAt 0 = some (Rx.fresh 16 0) := rfl
theorem witness_RxAppendRunsItsSteps : (live []).rxAt 0 = some (Rx.fresh 16 0) := rfl

/-- A receiver with cursors apart: 4 bytes fed, 12 buffered, capacity 16. -/
def rxApart : Rx := ⟨true, 16, 12, 4, some (Memory.new 16 0), Dec.reset⟩

/-- Appends of 4, 5, 8 and 9 bytes: what fits, what compaction makes fit, and what needs growth; an answer 1 grows
fully, 0 not at all. -/
theorem witness_StepOneMakesRoom :
    (HasStore rxApart.buf rxApart.cap ∧ rxApart.pp ≤ rxApart.wp ∧ rxApart.wp ≤ rxApart.cap ∧ 1 ≤ rxApart.cap ∧
        rxApart.cap ≤ 64) ∧
      rxApart.wp + 4 ≤ rxApart.cap ∧ rxApart.cap < rxApart.wp + 5 ∧ rxApart.wp - rxApart.pp + 8 ≤ rxApart.cap ∧
      rxApart.cap < rxApart.wp - rxApart.pp + 9 ∧
      growthDraw ⟨[1], 0⟩ 16 64 (growthTarget 16 17) = growthTarget 16 17 ∧
      growthDraw ⟨[0], 0⟩ 16 64 (growthTarget 16 17) < growthTarget 16 17 :=
  ⟨⟨HasStore.new 16 0, by decide, by decide, by decide, by decide⟩, by decide, by decide, by decide, by decide,
    by decide, by decide⟩

theorem witness_GrowthDrawsExactlyTheAllowedCounts :
    1 ≤ 64 ∧ (6 ≤ 6 ∧ 1 * 2 ^ 6 ≤ 64) ∧ (0 ≤ 6 ∧ 64 * 2 ^ 0 ≤ 64) := by decide

theorem witness_RecheckClipsAndNeverFires :
    rxApart.cap < rxApart.wp + (List.replicate 5 (0 : Byte)).length ∧
      rxApart.wp + (List.replicate 4 (0 : Byte)).length ≤ rxApart.cap ∧
      (rxApart.pp ≤ rxApart.wp ∧ rxApart.wp ≤ rxApart.cap ∧ 1 ≤ rxApart.cap) := by decide

theorem witness_StepThreeWritesAtWritePosition :
    ∃ m, rxApart.buf = some m ∧ rxApart.wp + (List.replicate 4 (0 : Byte)).length ≤ m.size ∧
      0 < (List.replicate 4 (0 : Byte)).length ∧ (11 < rxApart.wp ∨ rxApart.wp + 4 ≤ 11) :=
  ⟨_, rfl, by decide, by decide, by decide⟩

/-- A scan that stands before V-ENC-2's last byte, `pp` bytes into the buffer. -/
def scanAt (pp : Nat) (b : Byte) : Scan :=
  ⟨⟨true, 16, pp + 1, pp, some ((Memory.new 16 0).write pp b), lastByteDec⟩, ⟨[], 0⟩, [], 0⟩

/-- A byte that completes nothing, a completion whose frame starts at offset 0, and one that starts before it. -/
theorem witness_ScanTurnFeedsOneByte :
    ((scanAt 8 0x54).rx.pp < (scanAt 8 0x54).rx.wp ∧
        (decStep lastByteDec ((storeOf (scanAt 8 0x54).rx.buf).read 8) ⟨[], 0⟩).complete = false) ∧
      ((decStep lastByteDec ((storeOf (scanAt 8 0x55).rx.buf).read 8) ⟨[], 0⟩).complete = true ∧
        (lastByteDec.len.toNat + 9 : Int) ≤ 8 + 1) ∧
      ((decStep lastByteDec ((storeOf (scanAt 7 0x55).rx.buf).read 7) ⟨[], 0⟩).complete = true ∧
        (7 + 1 : Int) < lastByteDec.len.toNat + 9) := by decide +kernel

theorem witness_StepFiveRemovesDeliveredPrefix :
    HasStore rxApart.buf rxApart.cap ∧ 12 ≤ rxApart.wp ∧ 0 ≤ rxApart.wp ∧ rxApart.wp ≤ rxApart.cap :=
  ⟨HasStore.new 16 0, by decide, by decide, by decide⟩

/-- An append of 16 bytes fills the receiver of `live` and delivers nothing; one of V-ENC-2's frame delivers it. -/
theorem witness_BufferHoldsBytesAfterLastFrame :
    (live []).Inv ∧ (live []).rxAt 0 = some (Rx.fresh 16 0) ∧ (Rx.fresh 16 0).live = true ∧
      (Rx.fresh 16 0).buf = some (Memory.new 16 0) ∧
      (Rx.fresh 16 0).wp + (List.replicate 16 (0 : Byte)).length ≤ (Rx.fresh 16 0).cap ∧
      (scanAll ((Rx.fresh 16 0).put (List.replicate 16 0)) (live []).env).events = [] ∧
      (Rx.fresh 16 0).wp + (wireFrame 1 []).length ≤ (Rx.fresh 16 0).cap ∧
      (scanAll ((Rx.fresh 16 0).put (wireFrame 1 [])) (live []).env).events ≠ [] :=
  ⟨inv_live _, rfl, rfl, rfl, by decide, by decide +kernel, by decide +kernel, by decide +kernel⟩

theorem witness_AppendOfNothingChangesNothing :
    (live []).Inv ∧ (live []).rxAt 0 = some (Rx.fresh 16 0) ∧ (Rx.fresh 16 0).live = true := ⟨inv_live _, rfl, rfl⟩

/-- A frame with 7 payload bytes fills the receiver of `live`; an empty payload needs no true draw. -/
theorem witness_WholeFrameIsDelivered :
    ((live [1]).Inv ∧ (live [1]).rxAt 0 = some (Rx.fresh 16 0) ∧ (Rx.fresh 16 0).dec.st = .waitH1 ∧
        (hw.take 7).length ≤ 65535 ∧ (Rx.fresh 16 0).wp + ((hw.take 7).length + 9) ≤ (Rx.fresh 16 0).cap ∧
        (live [1]).env.answer ≠ 0) ∧
      ((live [0]).Inv ∧ (live [0]).rxAt 0 = some (Rx.fresh 16 0) ∧
        (Rx.fresh 16 0).wp + (([] : Bytes).length + 9) ≤ (Rx.fresh 16 0).cap) :=
  ⟨⟨inv_live _, rfl, rfl, by decide, by decide, by decide⟩, inv_live _, rfl, by decide⟩

theorem witness_SplittingAnAppendChangesNothing :
    (live []).Inv ∧ (live []).rxAt 0 = some (Rx.fresh 16 0) ∧ (Rx.fresh 16 0).live = true ∧
      (Rx.fresh 16 0).wp + (List.replicate 9 (0 : Byte)).length + (List.replicate 7 (0 : Byte)).length ≤
        (Rx.fresh 16 0).cap := ⟨inv_live _, rfl, rfl, by decide⟩

/-- V-ENC-2's frame in three pieces. -/
theorem witness_FragmentsDeliverExactlyOneFrame :
    (live []).Inv ∧ (live []).pending = [] ∧ (live []).stopped = false ∧ (live []).rxAt 0 = some (Rx.fresh 16 0) ∧
      (Rx.fresh 16 0).live = true ∧ (Rx.fresh 16 0).dec.st = .waitH1 ∧
      ([[0x55], [0xAA, 0x01, 0x00, 0x00, 0x84, 0x92, 0xAA], [0x55]] : List Bytes).flatten = wireFrame 1 [] ∧
      (∀ x ∈ ([[0x55], [0xAA, 0x01, 0x00, 0x00, 0x84, 0x92, 0xAA], [0x55]] : List Bytes), x ≠ []) ∧
      (Rx.fresh 16 0).wp + (([] : Bytes).length + 9) ≤ (Rx.fresh 16 0).cap :=
  ⟨inv_live _, rfl, rfl, rfl, rfl, rfl, by decide +kernel, by decide, by decide⟩

theorem witness_RbInitCreatesRing :
    (live []).rbAt 2 = none ∧ ((live []).rbAt 0 = some ringDE ∧ ringDE.live = true) ∧
      ((live []).rbAt 1 = some Rb.powerOn ∧ Rb.powerOn.live = false) ∧ (0 : Word) = 0 ∧ (1 : Word) ≠ 0 ∧
      ((live [0]).env.answer = 0 ∨ (live [0]).par.rbMaxCap < (1 : Word).toNat) ∧
      ((live [1]).env.answer = 0 ∨ (live [1]).par.rbMaxCap < (65 : Word).toNat) ∧
      ((live [1]).env.answer ≠ 0 ∧ (64 : Word).toNat ≤ (live [1]).par.rbMaxCap) := by decide

theorem witness_RbWriteIsAllOrNothing : (live []).rbAt 0 = some ringDE := rfl

/-- A write of all 6 free bytes wraps. -/
theorem witness_RbWriteStoresFromHead :
    ∃ m, (live []).Inv ∧ (live []).rbAt 0 = some ringDE ∧ ringDE.live = true ∧ ringDE.store = some m ∧
      (List.replicate 6 (0 : Byte)).length ≤ ringDE.cap - ringDE.length ∧ 3 < ringDE.cap ∧ 1 < ringDE.length :=
  ⟨_, inv_live _, rfl, rfl, rfl, by decide, by decide, by decide⟩

theorem witness_RbReadIsClamped : (live []).rbAt 0 = some ringDE := rfl
theorem witness_RbReadReturnsOldestBytes :
    (live []).Inv ∧ (live []).rbAt 0 = some ringDE ∧ ringDE.live = true := ⟨inv_live _, rfl, rfl⟩
theorem witness_RbQueriesAnswerOccupancy : (live []).rbAt 0 = some ringDE := rfl
theorem witness_RbDumpRendersWholeStore : (live []).rbAt 0 = some ringDE := rfl
theorem witness_RbDestroyReleases : (live []).rbAt 0 = some ringDE := rfl
theorem witness_UsedAndFreeAddUpToCapacity :
    (live []).Inv ∧ (live []).rbAt 0 = some ringDE ∧ ringDE.live = true ∧
      ringDE.cap - ringDE.length < (List.replicate 7 (0 : Byte)).length := ⟨inv_live _, rfl, rfl, by decide⟩

/-- `ringDE` drained. -/
def ringEmpty : Rb := ringDE.dequeue 2

theorem witness_RingIsFirstInFirstOut :
    ((live []).setRb 0 ringEmpty).Inv ∧ ((live []).setRb 0 ringEmpty).rbAt 0 = some ringEmpty ∧
      ringEmpty.live = true ∧ ringEmpty.length = 0 := by
  have h := inv_live []
  refine ⟨⟨h.params, by decide, h.decoders, h.receivers, fun b hb => ?_, .inl rfl⟩, rfl, rfl, rfl⟩
  rcases List.mem_pair.mp hb with rfl | rfl
  · exact inv_ringDE.dequeue rfl (by decide)
  · exact inv_dead_rb

theorem witness_EveryFaultAndItsCause :
    ((Instr.decReset 2).decInst = some 2 ∧ (live []).decAt 2 = none) ∧
      ((Instr.rxQuery 2).rxInst = some 2 ∧ (live []).rxAt 2 = none) ∧
      ((Instr.rbDump 2).rbInst = some 2 ∧ (live []).rbAt 2 = none) ∧
      ((Instr.decParse 1 0).decInst = some 1 ∧ (Instr.decParse 1 0).isInit = false ∧
        (live []).decAt 1 = some DecUnit.powerOn) ∧
      ((Instr.rxAppend 1 []).rxInst = some 1 ∧ (Instr.rxAppend 1 []).isInit = false ∧
        (live []).rxAt 1 = some Rx.powerOn) ∧
      ((Instr.rbRead 1 0).rbInst = some 1 ∧ (Instr.rbRead 1 0).isInit = false ∧
        (live []).rbAt 1 = some Rb.powerOn) ∧
      ((Instr.rxInit 0 0).rxInst = some 0 ∧ (Instr.rxInit 0 0).isInit = true ∧
        (live []).rxAt 0 = some (Rx.fresh 16 0)) ∧
      ((Instr.rbInit 0 0).rbInst = some 0 ∧ (Instr.rbInit 0 0).isInit = true ∧ (live []).rbAt 0 = some ringDE) ∧
      ((live []).decAt 0 = some ⟨true, Dec.reset⟩ ∧ Dec.reset.outValid = false) := by decide

theorem witness_RefusalsInCheckOrder :
    ([0x01] : Bytes).length < 2 ∧ (0x24 : Byte) ∉ ([0x01, 0x02, 0x10, 0x20, 0x21, 0x22, 0x23] : Bytes) ∧
      ((0x01 : Byte) = 0x01 ∧ (0x05 : Byte) ≠ 0) ∧
      ((0x20 : Byte) ∈ ([0x20, 0x22, 0x23] : Bytes) ∧ ([0x20, 0x00, 0x00] : Bytes).length ≠ 2 ∧
        ([0x20, 0x00] : Bytes).length = 2) := by decide

theorem witness_RefusedStringSetsTheMark :
    ({ live [] with pending := [[0x24, 0x00]] } : State).stopped = false ∧
      decode [0x24, 0x00] = .error .reservedOpc := by decide

theorem witness_StoppedBlockIgnoresCommands :
    ((live []).raiseFault .noFrame).faulted ≠ none ∧
      ((live []).raiseRefusal (.malformed .badLength)).refused ≠ none ∧
      (({ live [] with pending := [[0x20, 0x00]] } : State).raiseFault .noFrame).pending = [[0x20, 0x00]] := by decide

theorem witness_CommandEndsInOneOfThreeWays :
    ({ live [] with pending := [[0x20, 0x00]] } : State).pending = [0x20, 0x00] :: [] ∧
      ({ live [] with pending := [[0x20, 0x00]] } : State).faulted = none ∧
      ({ live [] with pending := [[0x20, 0x00]] } : State).refused = none := by decide

theorem witness_ErrorStatusChangesNoInstance :
    ∃ t, exec (.rxInit 1 0) (live []) = .next t ∧ t.out = (live []).out ++ [4 :: []] ∧ (4 : Byte) ≠ 0 :=
  ⟨_, rfl, by decide, by decide⟩

theorem witness_StepRunsTheDecodedCommand :
    (({ live [] with pending := [[0x20, 0x00]] } : State).stopped = false ∧ decode [0x20, 0x00] = .ok (.decReset 0)) ∧
      (({ live [] with pending := [encode (.crc16 [0x31])] } : State).stopped = false ∧
        (Instr.crc16 [0x31]).wf = true) := by decide

theorem witness_TableWordIsTheNextCommand :
    (live []).stopped = false ∧ decodeTableWord 16 0x0020 = some (.decReset 0) := by decide

theorem witness_DecodeOfEncodeIsTheCommand :
    (Instr.rbInit 255 (-1)).wf = true ∧ (Instr.encode 255 hw).wf = true := by decide

theorem witness_DecodedStringIsTheEncoding : decode [0x21, 0xFF, 0xFF] = .ok (.decParse 255 255) := by decide

theorem witness_EveryCommandHasItsEncoding :
    ([] : Bytes).length = (BitVec.ofNat 32 0 : Word).toNat ∧ ([7] : Bytes).length = (BitVec.ofNat 32 1 : Word).toNat := by
  decide

theorem witness_PowerOnState :
    (∃ u, u ∈ State.reset.decs) ∧ (∃ r, r ∈ State.reset.rxs) ∧ (∃ b, b ∈ State.reset.rbs) :=
  ⟨⟨_, List.mem_replicate.mpr ⟨Nat.succ_ne_zero _, rfl⟩⟩, ⟨_, List.mem_replicate.mpr ⟨Nat.succ_ne_zero _, rfl⟩⟩,
    ⟨_, List.mem_replicate.mpr ⟨Nat.succ_ne_zero _, rfl⟩⟩⟩

theorem witness_StepKeepsInvariant :
    ∃ s t : State, s.Inv ∧ s.pending ≠ [] ∧ step s = .next t := by
  have h := inv_live []
  exact ⟨{ live [] with pending := [[0x20, 0x01]] }, _,
    ⟨h.params, h.counts, h.decoders, h.receivers, h.rings, .inl rfl⟩, by simp, rfl⟩

theorem witness_QueriesChangeNothing : (Instr.rbDump 0).isQuery = true ∧ (Instr.decRead 1).isQuery = true := by decide

theorem witness_CommandChangesOnlyItsInstance :
    (∃ t, exec (.decReset 1) (live []) = .next t) ∧ (Instr.decReset 1).decInst ≠ some 0 ∧
      (Instr.decReset 1).rxInst ≠ some 0 ∧ (Instr.decReset 1).rbInst ≠ some 0 := ⟨⟨_, rfl⟩, by decide⟩

theorem witness_ResponsesAndMarksAreKept :
    ∃ t, step ((live []).raiseFault .noFrame) = .next t ∧ ((live []).raiseFault .noFrame).faulted = some .noFrame :=
  ⟨_, rfl, rfl⟩

end Sys2Proof.Tests
end

section
/-! PROOFS. Power-on: the instances of `State.reset` are copies of the power-on records, and the open counts are one
more than a byte. -/

namespace Sys2Proof.Config

/-- The range of R7's instance counts, each of which is one more than an open byte (log 6). -/
theorem byte_succ_in_count_range (b : Byte) : 1 ≤ b.toNat + 1 ∧ b.toNat + 1 ≤ 256 :=
  ⟨Nat.le_add_left 1 _, b.isLt⟩

theorem nDec_range : 1 ≤ nDec ∧ nDec ≤ 256 := byte_succ_in_count_range decCountChoice

theorem nRx_range : 1 ≤ nRx ∧ nRx ≤ 256 := byte_succ_in_count_range rxCountChoice

theorem nRb_range : 1 ≤ nRb ∧ nRb ≤ 256 := byte_succ_in_count_range rbCountChoice

end Sys2Proof.Config

namespace Sys2Proof.Machine

theorem State.eq_powerOn_of_mem_reset_decs {u : DecUnit} (h : u ∈ State.reset.decs) : u = DecUnit.powerOn :=
  List.eq_of_mem_replicate h

theorem State.eq_powerOn_of_mem_reset_rxs {r : Rx} (h : r ∈ State.reset.rxs) : r = Rx.powerOn :=
  List.eq_of_mem_replicate h

theorem State.eq_powerOn_of_mem_reset_rbs {b : Rb} (h : b ∈ State.reset.rbs) : b = Rb.powerOn :=
  List.eq_of_mem_replicate h

@[simp] theorem State.length_reset_decs : State.reset.decs.length = Config.nDec := List.length_replicate

@[simp] theorem State.length_reset_rxs : State.reset.rxs.length = Config.nRx := List.length_replicate

@[simp] theorem State.length_reset_rbs : State.reset.rbs.length = Config.nRb := List.length_replicate

/-- Settles O55: every instance is a power-on record, whose fields are R331's, and the counts lie in R7's range. -/
theorem powerOnState : Obligations.PowerOnState := by
  unfold Obligations.PowerOnState
  refine ⟨rfl, rfl, fun u hu => ?_, fun r hr => ?_, fun b hb => ?_, ?_, ?_, ?_⟩
  · obtain rfl := State.eq_powerOn_of_mem_reset_decs hu
    exact ⟨rfl, rfl, rfl⟩
  · obtain rfl := State.eq_powerOn_of_mem_reset_rxs hr
    exact ⟨rfl, rfl⟩
  · obtain rfl := State.eq_powerOn_of_mem_reset_rbs hb
    exact ⟨rfl, rfl⟩
  · simpa using Config.nDec_range
  · simpa using Config.nRx_range
  · simpa using Config.nRb_range

end Sys2Proof.Machine
end

section
/-! PROOFS. The wire frame: where its header, payload and trailer stand, and the bytes at their offsets. -/

namespace Sys2Proof.Machine

/-- The two CRC bytes and the tail that close a frame (30_encoding.md R80). -/
def frameTrailer (t : Byte) (p : Bytes) : Bytes :=
  le16 (frameCrc t (BitVec.ofNat 16 p.length) p) ++ [Config.tail0, Config.tail1]

theorem wireFrame_eq (t : Byte) (p : Bytes) :
    wireFrame t p = frameHeader t (BitVec.ofNat 16 p.length) ++ (p ++ frameTrailer t p) := by
  simp only [wireFrame, frameTrailer, List.append_assoc]

theorem getElem?_wireFrame_header {i : Nat} (hi : i < 5) (t : Byte) (p : Bytes) :
    (wireFrame t p)[i]? = (frameHeader t (BitVec.ofNat 16 p.length))[i]? := by
  rw [wireFrame_eq, List.getElem?_append_left (by simpa using hi)]

theorem getElem?_wireFrame_payload {i : Nat} (t : Byte) {p : Bytes} (hi : i < p.length) :
    (wireFrame t p)[5 + i]? = p[i]? := by
  rw [wireFrame_eq, List.getElem?_append_right (by simp), List.getElem?_append_left (by simpa using hi)]
  simp

theorem getElem?_wireFrame_trailer (t : Byte) (p : Bytes) (i : Nat) :
    (wireFrame t p)[i + 5 + p.length]? = (frameTrailer t p)[i]? := by
  rw [wireFrame_eq, List.getElem?_append_right (by simp; omega), List.getElem?_append_right (by simp; omega),
    length_frameHeader]
  congr 1
  omega

/-- The bytes under the CRC are the first 5 + L of the frame (R81). -/
theorem crc16_take_wireFrame (t : Byte) (p : Bytes) :
    crc16 ((wireFrame t p).take (5 + p.length)) = frameCrc t (BitVec.ofNat 16 p.length) p := by
  rw [wireFrame_eq, ← List.append_assoc, List.take_left' (by simp), frameCrc]

/-- Settles O5: each offset lies in the header, the payload or the trailer. The bound on L makes its two length bytes
exact. -/
theorem wireFrameLayout : Obligations.WireFrameLayout := by
  unfold Obligations.WireFrameLayout
  intro t p hp f crc
  have header {i : Nat} (hi : i < 5) := getElem?_wireFrame_header hi t p
  have trailer := getElem?_wireFrame_trailer t p
  have hlen : (BitVec.ofNat 16 p.length : Half).toNat = p.length := by
    rw [BitVec.toNat_ofNat]; omega
  have hcrc : crc = frameCrc t (BitVec.ofNat 16 p.length) p := crc16_take_wireFrame t p
  refine ⟨length_wireFrame t p, header (by decide), header (by decide), header (by decide), ?_, ?_,
    fun i hi => getElem?_wireFrame_payload t hi, ?_, ?_, trailer 2, trailer 3⟩
  · rw [header (by decide)]
    simp [frameHeader, le16, hlen]
  · rw [header (by decide)]
    simp [frameHeader, le16, hlen]
  · rw [trailer 0, hcrc]
    simp [frameTrailer, le16]
  · rw [trailer 1, hcrc]
    simp [frameTrailer, le16]

end Sys2Proof.Machine
end

section
/-! PROOFS. The strings of the 20 commands: a known opcode, an allowed INST and operand bytes that the format reads. -/

namespace Sys2Proof

/-- A string decodes where its row is known, its INST is allowed and its operand bytes are read (R88, R91). -/
theorem decode_eq_ok {opc inst : Byte} {body : Bytes} {row : OpcodeRow} {i : Instr} (hr : rowOfOpc opc = some row)
    (hi : row.instReserved = true → inst = 0) (hb : instrOfBody inst body row.mnemonic = some i) :
    decode (opc :: inst :: body) = .ok i := by
  rw [decode_of_row hr, if_neg fun h => h.2 (hi h.1), hb]

/-- Format D reads `n` and then the data, where the data has the length that `n` says (R88, R89). -/
theorem operandD_of_length {v0 v1 v2 v3 : Byte} {data : Bytes} (h : data.length = (u32OfBytes v0 v1 v2 v3).toNat) :
    operandD (v0 :: v1 :: v2 :: v3 :: data) = some data := by
  rw [operandD, if_pos h]

/-- Settles O53: the formats N, B and W read their operand by definition, and D, CD and TD read the data whose length
`n` says. -/
theorem everyCommandHasItsEncoding : Obligations.EveryCommandHasItsEncoding := by
  unfold Obligations.EveryCommandHasItsEncoding
  intro k b t c0 c1 v0 v1 v2 v3 data c v
  have free {opc : Byte} {body : Bytes} {row : OpcodeRow} {i : Instr} (hr : rowOfOpc opc = some row)
      (hi : row.instReserved = false) (hb : instrOfBody k body row.mnemonic = some i) :
      decode (opc :: k :: body) = .ok i :=
    decode_eq_ok hr (by simp [hi]) hb
  -- the 15 commands without a data operand
  iterate 15 refine ⟨free rfl rfl rfl, ?_⟩
  intro hn
  have hd : operandD (v0 :: v1 :: v2 :: v3 :: data) = some data := operandD_of_length hn
  have hcd : operandCD (c0 :: c1 :: v0 :: v1 :: v2 :: v3 :: data) = some (c, data) := congrArg (Option.map _) hd
  have htd : operandTD (t :: v0 :: v1 :: v2 :: v3 :: data) = some (t, data) := congrArg (Option.map _) hd
  exact ⟨decode_eq_ok rfl (fun _ => rfl) (by simp [instrOfBody, hd]),
    decode_eq_ok rfl (fun _ => rfl) (by simp [instrOfBody, hcd]),
    decode_eq_ok rfl (fun _ => rfl) (by simp [instrOfBody, htd]),
    free rfl rfl (by simp [instrOfBody, hd]), free rfl rfl (by simp [instrOfBody, hd])⟩

end Sys2Proof
end

section
/-! PROOFS. Refusals: a format reads its operand bytes exactly where the string has the format's total length, and the
opcode selects the row, the format and whether INST is reserved. -/

namespace Sys2Proof

/-! ## Operand bytes are read exactly where their number is right (30_encoding.md R88, R92) -/

@[simp] theorem lengthFieldAt_cons_succ (x : Byte) (cmd : Bytes) (o : Nat) :
    lengthFieldAt (x :: cmd) (o + 1) = lengthFieldAt cmd o := rfl

/-- R92's `n` as a number. -/
theorem lengthFieldAt_eq (cmd : Bytes) (o : Nat) :
    lengthFieldAt cmd o = (cmd.getD o 0).toNat + 2 ^ 8 * (cmd.getD (o + 1) 0).toNat +
      2 ^ 16 * (cmd.getD (o + 2) 0).toNat + 2 ^ 24 * (cmd.getD (o + 3) 0).toNat := u32OfBytes_toNat _ _ _ _

theorem operandN_isSome (body : Bytes) : (operandN body).isSome ↔ body.length = 0 := by
  cases body <;> simp [operandN]

theorem operandB_isSome (body : Bytes) : (operandB body).isSome ↔ body.length = 1 := by
  match body with
  | [] => simp [operandB]
  | [_] => simp [operandB]
  | _ :: _ :: _ => simp [operandB]

theorem operandW_isSome (body : Bytes) : (operandW body).isSome ↔ body.length = 4 := by
  match body with
  | [] | [_] | [_, _] | [_, _, _] => simp [operandW]
  | [_, _, _, _] => simp [operandW]
  | _ :: _ :: _ :: _ :: _ :: _ => simp [operandW]

theorem operandD_isSome (body : Bytes) : (operandD body).isSome ↔ body.length = 4 + lengthFieldAt body 0 := by
  match body with
  | [] | [_] | [_, _] | [_, _, _] => simp [operandD]; omega
  | b0 :: b1 :: b2 :: b3 :: data =>
    have hn : lengthFieldAt (b0 :: b1 :: b2 :: b3 :: data) 0 = (u32OfBytes b0 b1 b2 b3).toNat := rfl
    simp only [operandD, hn, Option.isSome_ite, List.length_cons]
    omega

theorem operandCD_isSome (body : Bytes) : (operandCD body).isSome ↔ body.length = 6 + lengthFieldAt body 2 := by
  match body with
  | [] | [_] => simp [operandCD]; omega
  | _ :: _ :: rest =>
    simp only [operandCD, Option.isSome_map, operandD_isSome, List.length_cons, lengthFieldAt_cons_succ]
    omega

theorem operandTD_isSome (body : Bytes) : (operandTD body).isSome ↔ body.length = 5 + lengthFieldAt body 1 := by
  match body with
  | [] => simp [operandTD]; omega
  | _ :: rest =>
    simp only [operandTD, Option.isSome_map, operandD_isSome, List.length_cons, lengthFieldAt_cons_succ]
    omega

/-- Whether a format reads the operand bytes `body`. -/
def Format.reads (body : Bytes) : Format → Bool
  | .n => (operandN body).isSome
  | .b => (operandB body).isSome
  | .w => (operandW body).isSome
  | .d => (operandD body).isSome
  | .cd => (operandCD body).isSome
  | .td => (operandTD body).isSome

/-- A row's operand bytes make a command exactly where its format reads them. -/
theorem instrOfBody_isSome {row : OpcodeRow} (h : row ∈ opcodeMap) (inst : Byte) (body : Bytes) :
    (instrOfBody inst body row.mnemonic).isSome = row.format.reads body := by
  revert row
  simp [opcodeMap, instrOfBody, Format.reads]

/-- A format reads the bytes after the header exactly where the string has the format's total length. -/
theorem Format.reads_iff (opc inst : Byte) (body : Bytes) (f : Format) :
    f.reads body ↔ (opc :: inst :: body).length = totalLength (opc :: inst :: body) f := by
  cases f <;>
    simp only [Format.reads, totalLength, operandN_isSome, operandB_isSome, operandW_isSome, operandD_isSome,
      operandCD_isSome, operandTD_isSome, List.length_cons, lengthFieldAt_cons_succ] <;>
    omega

/-! ## What `decode` answers, check by check (60_exceptions.md R304) -/

theorem decode_of_length_lt_two {cmd : Bytes} (h : cmd.length < 2) : decode cmd = .error .badLength := by
  match cmd with
  | [] | [_] => rfl
  | _ :: _ :: _ => simp at h

theorem decode_reservedOpc {opc : Byte} (h : rowOfOpc opc = none) (inst : Byte) (body : Bytes) :
    decode (opc :: inst :: body) = .error .reservedOpc := by
  simp only [decode, h]

section
variable {opc inst : Byte} {body : Bytes} {row : OpcodeRow}

theorem decode_nonzeroInst (h : rowOfOpc opc = some row) (hr : row.instReserved = true) (hi : inst ≠ 0) :
    decode (opc :: inst :: body) = .error .nonzeroInst := by
  rw [decode_of_row h, if_pos ⟨hr, hi⟩]

theorem decode_badLength (h : rowOfOpc opc = some row) (hi : row.instReserved = true → inst = 0)
    (hl : (opc :: inst :: body).length ≠ totalLength (opc :: inst :: body) row.format) :
    decode (opc :: inst :: body) = .error .badLength := by
  have hnone : instrOfBody inst body row.mnemonic = none := by
    rw [← Option.not_isSome_iff_eq_none, instrOfBody_isSome (rowOfOpc_mem h), Format.reads_iff opc inst]
    exact hl
  rw [decode_of_row h, if_neg fun hc => hc.2 (hi hc.1), hnone]

theorem decode_ok_of_length (h : rowOfOpc opc = some row) (hi : row.instReserved = true → inst = 0)
    (hl : (opc :: inst :: body).length = totalLength (opc :: inst :: body) row.format) :
    ∃ i, decode (opc :: inst :: body) = .ok i := by
  have hsome : (instrOfBody inst body row.mnemonic).isSome := by
    rw [instrOfBody_isSome (rowOfOpc_mem h), Format.reads_iff opc inst]
    exact hl
  obtain ⟨i, hb⟩ := Option.isSome_iff_exists.mp hsome
  exact ⟨i, decode_eq_ok h hi hb⟩

/-! ## The row that an opcode selects (R90), as tests on the opcode -/

/-- The opcodes of format N. -/
def fixedOpcodes : List Byte := [0x20, 0x22, 0x23, 0x32, 0x33, 0x43, 0x44, 0x45, 0x46, 0x47, 0x48]

/-- The 20 opcodes that are not reserved. -/
def knownOpcodes : List Byte := [0x01, 0x02, 0x10, 0x21, 0x30, 0x31, 0x40, 0x41, 0x42] ++ fixedOpcodes

/-- The format of a known opcode. -/
def formatOfOpc (opc : Byte) : Format :=
  if opc ∈ fixedOpcodes then .n else if opc = 0x21 then .b else if opc = 0x30 ∨ opc = 0x40 ∨ opc = 0x42 then .w
  else if opc = 0x02 then .cd else if opc = 0x10 then .td else .d

theorem opcode_mem_known : ∀ row ∈ opcodeMap, row.opc ∈ knownOpcodes := by decide

theorem known_mem_opcodeMap : ∀ opc ∈ knownOpcodes, ∃ row ∈ opcodeMap, row.opc = opc := by decide

theorem format_eq_formatOfOpc : ∀ row ∈ opcodeMap, row.format = formatOfOpc row.opc := by decide

theorem instReserved_iff :
    ∀ row ∈ opcodeMap, row.instReserved = true ↔ row.opc = 0x01 ∨ row.opc = 0x02 ∨ row.opc = 0x10 := by decide

theorem rowOfOpc_eq_none (h : opc ∉ knownOpcodes) : rowOfOpc opc = none :=
  List.find?_eq_none.mpr fun row hrow heq => h (beq_iff_eq.mp heq ▸ opcode_mem_known row hrow)

theorem exists_rowOfOpc (h : opc ∈ knownOpcodes) : ∃ row, rowOfOpc opc = some row := by
  obtain ⟨row, hrow, heq⟩ := known_mem_opcodeMap opc h
  exact Option.isSome_iff_exists.mp (List.find?_isSome.mpr ⟨row, hrow, beq_iff_eq.mpr heq⟩)

end

/-- R88's total length by opcode. -/
theorem totalLength_formatOfOpc (cmd : Bytes) (opc : Byte) :
    totalLength cmd (formatOfOpc opc) =
      if opc ∈ fixedOpcodes then 2 else if opc = 0x21 then 3 else if opc = 0x30 ∨ opc = 0x40 ∨ opc = 0x42 then 6
      else if opc = 0x02 then 8 + lengthFieldAt cmd 4 else if opc = 0x10 then 7 + lengthFieldAt cmd 3
      else 6 + lengthFieldAt cmd 2 := by
  simp only [formatOfOpc, apply_ite (totalLength cmd)]
  rfl

/-- Settles O44: a known opcode selects a row, whose INST check comes before the check of the total length; the row's
format reads the operand bytes exactly where the length is right. -/
theorem refusalsInCheckOrder : Obligations.RefusalsInCheckOrder := by
  unfold Obligations.RefusalsInCheckOrder
  refine ⟨fun cmd h => decode_of_length_lt_two h, fun opc inst body => ?_⟩
  intro cmd fixedN known n total
  have reserved {row : OpcodeRow} (hr : rowOfOpc opc = some row) :
      row.instReserved = true ↔ opc = 0x01 ∨ opc = 0x02 ∨ opc = 0x10 := by
    rw [instReserved_iff row (rowOfOpc_mem hr), rowOfOpc_opc hr]
  have htotal {row : OpcodeRow} (hr : rowOfOpc opc = some row) : totalLength cmd row.format = total := by
    rw [format_eq_formatOfOpc row (rowOfOpc_mem hr), rowOfOpc_opc hr, totalLength_formatOfOpc]
    simp only [lengthFieldAt_eq]
    rfl
  refine ⟨fun h => decode_reservedOpc (rowOfOpc_eq_none h) inst body, fun ho hi => ?_, fun hk hi hl => ?_,
    fun hk hi hl => ?_⟩
  · have hk : opc ∈ knownOpcodes := by rcases ho with rfl | rfl | rfl <;> decide
    obtain ⟨row, hr⟩ := exists_rowOfOpc hk
    exact decode_nonzeroInst hr ((reserved hr).mpr ho) hi
  · obtain ⟨row, hr⟩ := exists_rowOfOpc hk
    exact decode_badLength hr (fun h => hi ((reserved hr).mp h)) (htotal hr ▸ hl)
  · obtain ⟨row, hr⟩ := exists_rowOfOpc hk
    exact decode_ok_of_length hr (fun h => hi ((reserved hr).mp h)) (hl.trans (htotal hr).symm)

end Sys2Proof
end

section
/-! PROOFS. The CRC unit: the rounds of the model, on words, are the rounds of R120, on numbers, and the two commands
answer the fold of the byte step. -/

namespace Sys2Proof.Machine

/-! ## The byte step on numbers (40_crc.md R120) -/

/-- One round of R120 on numbers: `(n << 1) mod 2^16`, XORed with 0x1021 where bit 15 was set. -/
def crcRoundNat (n : Nat) : Nat := if 2 ^ 15 ≤ n then (2 * n % 2 ^ 16) ^^^ 0x1021 else 2 * n % 2 ^ 16

theorem toNat_shiftLeft_one (c : Half) : (c <<< 1).toNat = 2 * c.toNat % 2 ^ 16 := by
  rw [BitVec.toNat_shiftLeft, Nat.shiftLeft_eq, pow_one, Nat.mul_comm]

theorem toNat_crcRound (c : Half) : (crcRound c).toNat = crcRoundNat c.toNat := by
  have hbit : c.msb = true ↔ 2 ^ 15 ≤ c.toNat := by simp [BitVec.msb_eq_decide]
  unfold crcRound crcRoundNat
  by_cases h : 2 ^ 15 ≤ c.toNat
  · rw [if_pos (hbit.mpr h), if_pos h, BitVec.toNat_xor, toNat_shiftLeft_one]
    rfl
  · rw [if_neg (mt hbit.mp h), if_neg h, toNat_shiftLeft_one]

theorem toNat_crcRounds (k : Nat) (c : Half) : (crcRounds k c).toNat = crcRoundNat^[k] c.toNat := by
  induction k generalizing c with
  | zero => rfl
  | succ k ih => rw [crcRounds, ih, toNat_crcRound, Function.iterate_succ_apply]

/-- A byte moved into the high byte of a word keeps all its bits. -/
theorem toNat_byteInHighByte (b : Byte) : (b.zeroExtend 16 <<< 8 : Half).toNat = 2 ^ 8 * b.toNat := by
  have hb := b.isLt
  rw [BitVec.toNat_shiftLeft, BitVec.toNat_setWidth, Nat.shiftLeft_eq]
  omega

theorem toNat_crcStep (c : Half) (b : Byte) :
    (crcStep c b).toNat = crcRoundNat^[8] (c.toNat ^^^ (2 ^ 8 * b.toNat)) := by
  rw [crcStep, toNat_crcRounds, BitVec.toNat_xor, toNat_byteInHighByte]

/-! ## The fold over the bytes (R120) -/

@[simp] theorem crc16Cont_nil (c : Half) : crc16Cont c [] = c := rfl

@[simp] theorem crc16Cont_cons (c : Half) (b : Byte) (d : Bytes) :
    crc16Cont c (b :: d) = crc16Cont (crcStep c b) d := rfl

/-- Settles O1: every round of the model is R120's round on numbers, and the fold unrolls by definition. -/
theorem crcStepIsEightMsbFirstRounds : Obligations.CrcStepIsEightMsbFirstRounds := by
  unfold Obligations.CrcStepIsEightMsbFirstRounds
  exact ⟨toNat_crcStep, crc16Cont_nil, crc16Cont_cons, fun _ => rfl⟩

/-! ## The commands (R121, R122) -/

theorem exec_crc16Cont (c : Half) (data : Bytes) (s : State) :
    exec (.crc16Cont c data) s = .next (s.respond (crcResponse (crc16Cont c data))) := rfl

/-- CRC16 does what CRC16_CONT does from the seed. -/
theorem exec_crc16_eq_crc16Cont (data : Bytes) (s : State) :
    exec (.crc16 data) s = exec (.crc16Cont Config.crcSeed data) s := rfl

/-- Settles O2: CRC16_CONT only responds, and CRC16 is CRC16_CONT from the seed. -/
theorem crcCommandsAnswerTheCrc : Obligations.CrcCommandsAnswerTheCrc := by
  unfold Obligations.CrcCommandsAnswerTheCrc
  intro c data s
  exact ⟨exec_crc16Cont c data s, (exec_crc16_eq_crc16Cont data s).trans (exec_crc16Cont _ data s)⟩

end Sys2Proof.Machine
end

section
/-! PROOFS. ENCODE (41_encoder.md R140 to R144): when its draw is true, and the response in each of its three cases. -/

namespace Sys2Proof.Machine

/-- A Boolean draw is true exactly where its site can grant the request and the answer is not 0 (R12; log 4). -/
@[simp] theorem Env.grants_iff (e : Env) (grantable : Bool) :
    e.grants grantable = true ↔ grantable = true ∧ e.answer ≠ 0 := by
  simp only [Env.grants, Bool.and_eq_true, bne_iff_ne]

/-- The response that carries a frame: OK, the frame's length and the frame (R144). -/
theorem bytesResponse_wireFrame (t : Byte) (data : Bytes) :
    bytesResponse (wireFrame t data) = [0] ++ le32 (BitVec.ofNat 32 (data.length + 9)) ++ wireFrame t data := by
  rw [bytesResponse, length_wireFrame]
  rfl

/-- The limit is checked before the draw (R141, R304). -/
theorem exec_encode_of_limit_lt (t : Byte) {data : Bytes} {s : State} (h : s.par.encMaxPayload < data.length) :
    exec (.encode t data) s = .next (s.respond (statusResponse .payloadTooLarge)) :=
  congrArg _ (if_pos h)

/-- Within the limit ENCODE draws once, and the answer decides between the frame and ALLOC_ERROR (R142). -/
theorem exec_encode_of_le_limit (t : Byte) {data : Bytes} {s : State} (h : data.length ≤ s.par.encMaxPayload) :
    exec (.encode t data) s = .next ((s.setEnv s.env.advance).respond
      (if s.env.answer = 0 then statusResponse .allocError else bytesResponse (wireFrame t data))) := by
  refine congrArg _ ((if_neg (Nat.not_lt.mpr h)).trans ?_)
  by_cases h0 : s.env.answer = 0
  · rw [if_neg (by simp [h0]), if_pos h0]
  · rw [if_pos (by simp [h0]), if_neg h0]

/-- Settles O4: the payload's length against the limit, then the answer of the one draw, select the response. -/
theorem encodeAnswersFrameOrStatus : Obligations.EncodeAnswersFrameOrStatus := by
  unfold Obligations.EncodeAnswersFrameOrStatus
  refine fun t data s => ⟨fun h => ?_, fun h h0 => ?_, fun h h1 => ?_⟩
  · exact exec_encode_of_limit_lt t h
  · rw [exec_encode_of_le_limit t h, if_pos h0]
    rfl
  · rw [exec_encode_of_le_limit t h, if_neg h1, bytesResponse_wireFrame]
    rfl

end Sys2Proof.Machine
end

section
/-! PROOFS. The decoder's four commands (42_decoder.md R160, R161, R172, R173): DEC_RESET runs under the check of INST
alone, the other three under the check of `live` too. -/

namespace Sys2Proof.Machine

/-! ## The checks' faults -/

theorem onLiveDec_absent {k : Byte} {s : State} (f : Dec → State) (h : s.decAt k = none) :
    onLiveDec k s f = s.raiseFault .badInstance := onDec_absent h

theorem onLiveDec_dead {k : Byte} {s : State} {u : DecUnit} (f : Dec → State) (h : s.decAt k = some u)
    (hl : u.live = false) : onLiveDec k s f = s.raiseFault .notLive := by
  rw [onLiveDec, onDec_present h, hl]
  rfl

/-- A command that is the check of `live` around `after` answers as R302 and R304 say. -/
theorem answersOnLiveDec_of_exec_eq {i : Instr} {k : Byte} {after : State → Dec → State}
    (h : ∀ s, exec i s = .next (onLiveDec k s (after s))) : AnswersOnLiveDec i k after := fun s =>
  ⟨fun hn => (h s).trans (congrArg _ (onLiveDec_absent _ hn)),
    fun _ hu hl => (h s).trans (congrArg _ (onLiveDec_dead _ hu hl)),
    fun _ hd => (h s).trans (congrArg _ (onLiveDec_live hd))⟩

/-! ## The commands as their check around their meaning -/

theorem exec_decReset (k : Byte) (s : State) :
    exec (.decReset k) s =
      .next (onDec k s fun _ => (s.setDec k ⟨true, Dec.reset⟩).respond (statusResponse .ok)) := rfl

/-- What a DEC_PARSE on the live decoder `d` leaves (R161). -/
def State.afterParse (s : State) (k b : Byte) (d : Dec) : State :=
  ((s.setDec k ⟨true, (decStep d.closeWindow b s.env).dec⟩).setEnv (decStep d.closeWindow b s.env).env).respond
    (parseResponse (decStep d.closeWindow b s.env).complete)

theorem exec_decParse (k b : Byte) (s : State) :
    exec (.decParse k b) s = .next (onLiveDec k s (s.afterParse k b)) := rfl

theorem exec_decStatus (k : Byte) (s : State) :
    exec (.decStatus k) s = .next (onLiveDec k s fun d => s.respond (decStatusResponse d.st d.outValid)) := rfl

theorem exec_decRead (k : Byte) (s : State) :
    exec (.decRead k) s = .next (onLiveDec k s fun d =>
      if d.outValid = true then s.respond (decReadResponse d.frame) else s.raiseFault .noFrame) := rfl

/-! ## The statements -/

/-- Settles O6: the check of INST decides, and `live` is not looked at. -/
theorem decResetWritesEveryField : Obligations.DecResetWritesEveryField := by
  unfold Obligations.DecResetWritesEveryField
  intro k s
  rw [exec_decReset]
  exact ⟨fun h => congrArg _ (onDec_absent h), fun _ h => congrArg _ (onDec_present h)⟩

/-- Settles O8: closing the window is R161's reset where `out_valid` is 1. -/
theorem decParseFeedsOneByte : Obligations.DecParseFeedsOneByte := by
  unfold Obligations.DecParseFeedsOneByte
  exact fun k b => answersOnLiveDec_of_exec_eq (exec_decParse k b)

/-- Settles O12: DEC_STATUS only responds, with the code of R27. -/
theorem decStatusReportsStateCode : Obligations.DecStatusReportsStateCode := by
  unfold Obligations.DecStatusReportsStateCode
  exact ⟨rfl, fun k => answersOnLiveDec_of_exec_eq (exec_decStatus k)⟩

/-- Settles O13: the response is OK and the frame event's bytes, and `out_valid` decides between it and the fault. -/
theorem decReadAnswersCompletedFrame : Obligations.DecReadAnswersCompletedFrame := by
  unfold Obligations.DecReadAnswersCompletedFrame
  exact fun k => answersOnLiveDec_of_exec_eq (exec_decRead k)

end Sys2Proof.Machine
end

section
/-! PROOFS. The decoder step, one equation per state (42_decoder.md R162 to R170), and its u16 fields as numbers. -/

namespace Sys2Proof.Machine

/-! ## The step in each state -/

section
variable {d : Dec} (b : Byte) (e : Env)

theorem decStep_waitH1 (h : d.st = .waitH1) :
    decStep d b e = pendingStep (if b = Config.hdr0 then { d with st := .waitH2 } else d) e := by
  simp only [decStep, h]

theorem decStep_waitH2 (h : d.st = .waitH2) :
    decStep d b e = pendingStep { d with st := if b = Config.hdr1 then .waitType else .waitH1 } e := by
  simp only [decStep, h]

theorem decStep_waitType (h : d.st = .waitType) :
    decStep d b e = pendingStep { d with typ := b, st := .waitLen1 } e := by
  simp only [decStep, h]

theorem decStep_waitLen1 (h : d.st = .waitLen1) :
    decStep d b e = pendingStep { d with len := b.zeroExtend 16, st := .waitLen2 } e := by
  simp only [decStep, h]

theorem decStep_waitLen2 (h : d.st = .waitLen2) : decStep d b e = finishLength d b e := by
  simp only [decStep, h]

theorem decStep_payload (h : d.st = .payload) : decStep d b e = pendingStep (takePayload d b) e := by
  simp only [decStep, h]

theorem decStep_waitCrc1 (h : d.st = .waitCrc1) :
    decStep d b e = pendingStep { d with crcRx := b.zeroExtend 16, st := .waitCrc2 } e := by
  simp only [decStep, h]

theorem decStep_waitCrc2 (h : d.st = .waitCrc2) :
    decStep d b e = pendingStep { d with crcRx := withHighByte d.crcRx b, st := .waitT1 } e := by
  simp only [decStep, h]

theorem decStep_waitT1 (h : d.st = .waitT1) :
    decStep d b e = if b = Config.tail0 then pendingStep { d with st := .waitT2 } e else failStep e := by
  simp only [decStep, h]

theorem decStep_waitT2 (h : d.st = .waitT2) : decStep d b e = finishFrame d b e := by
  simp only [decStep, h]

end

/-! ## The length bytes and the payload's draw (R163 to R165) -/

/-- The first byte of a u16, in its place, as a number (R163, R167). -/
theorem zeroExtend_eq_ofNat (b : Byte) : b.zeroExtend 16 = BitVec.ofNat 16 b.toNat :=
  (BitVec.ofNat_toNat 16 b).symm

/-- The OR of the second byte of a u16, as a number (R174). -/
theorem withHighByte_eq_ofNat {v : Half} (h : v.toNat < 2 ^ 8) (b : Byte) :
    withHighByte v b = BitVec.ofNat 16 (v.toNat + 256 * b.toNat) := by
  rw [← withHighByte_toNat h, BitVec.ofNat_toNat, BitVec.setWidth_eq]

theorem ofNat16_eq_zero_iff {n : Nat} (h : n < 2 ^ 16) : BitVec.ofNat 16 n = 0 ↔ n = 0 := by
  rw [← BitVec.toNat_inj, BitVec.toNat_ofNat, Nat.mod_eq_of_lt h]
  rfl

theorem finishLength_of_zero {d : Dec} {b : Byte} (h : withHighByte d.len b = 0) (e : Env) :
    finishLength d b e = pendingStep
      { d with len := withHighByte d.len b, cur := 0, pay := some (Memory.new 0 0), st := .waitCrc1 } e :=
  if_pos h

theorem finishLength_of_ne_zero {d : Dec} {b : Byte} (h : withHighByte d.len b ≠ 0) (e : Env) :
    finishLength d b e = allocPayload { d with len := withHighByte d.len b, cur := 0 } e :=
  if_neg h

theorem allocPayload_of_granted (d : Dec) {e : Env} (h : e.answer ≠ 0) :
    allocPayload d e = pendingStep
      { d with pay := some (Memory.new d.len.toNat e.advance.count), st := .payload } e.advance.afterNew :=
  if_pos ((Env.grants_iff e true).mpr ⟨rfl, h⟩)

theorem allocPayload_of_denied (d : Dec) {e : Env} (h : e.answer = 0) : allocPayload d e = failStep e.advance :=
  if_neg fun hg => ((Env.grants_iff e true).mp hg).2 h

/-- Settles O9: each arm is its state's equation. The two length bytes make a number below 2^16, so the word that the
step compares with 0 is 0 exactly where the number is. -/
theorem decoderHeaderAndLengthArms : Obligations.DecoderHeaderAndLengthArms := by
  unfold Obligations.DecoderHeaderAndLengthArms
  intro d b e
  refine ⟨fun h hb => ?_, fun h hb => ?_, fun h hb => ?_, fun h hb => ?_, fun h => decStep_waitType b e h,
    fun h => ?_, fun h hlow => ?_⟩
  · rw [decStep_waitH1 b e h, if_pos (show b = Config.hdr0 from hb)]
    rfl
  · rw [decStep_waitH1 b e h, if_neg (show b ≠ Config.hdr0 from hb)]
    rfl
  · rw [decStep_waitH2 b e h, if_pos (show b = Config.hdr1 from hb)]
    rfl
  · rw [decStep_waitH2 b e h, if_neg (show b ≠ Config.hdr1 from hb)]
    rfl
  · rw [decStep_waitLen1 b e h, zeroExtend_eq_ofNat]
    rfl
  · intro n d'
    have hn : n < 2 ^ 16 := by have := b.isLt; omega
    have hlen : withHighByte d.len b = BitVec.ofNat 16 n := withHighByte_eq_ofNat hlow b
    have hzero : withHighByte d.len b = 0 ↔ n = 0 := hlen ▸ ofNat16_eq_zero_iff hn
    rw [decStep_waitLen2 b e h]
    refine ⟨fun h0 => ?_, fun h0 ha => ?_, fun h0 ha => ?_⟩
    · rw [finishLength_of_zero (hzero.mpr h0), hlen]
      exact ⟨_, rfl, rfl⟩
    · rw [finishLength_of_ne_zero (mt hzero.mp h0), hlen, allocPayload_of_granted _ ha]
      exact ⟨_, (BitVec.toNat_ofNat n 16).trans (Nat.mod_eq_of_lt hn), rfl, rfl, rfl, rfl⟩
    · rw [finishLength_of_ne_zero (mt hzero.mp h0), allocPayload_of_denied _ ha]
      rfl

/-! ## A payload byte (R166) -/

/-- The cursor's advance and its test against `len`, as numbers. -/
theorem takePayload_eq {d : Dec} {m : Memory} (hp : d.pay = some m) (hc : d.cur.toNat < d.len.toNat) (b : Byte) :
    takePayload d b =
      { d with
        pay := some (m.write d.cur.toNat b)
        cur := BitVec.ofNat 16 (d.cur.toNat + 1)
        st := if d.cur.toNat + 1 = d.len.toNat then .waitCrc1 else .payload } := by
  have hnext : d.cur + 1 = BitVec.ofNat 16 (d.cur.toNat + 1) := by
    rw [BitVec.ofNat_add, BitVec.ofNat_toNat, BitVec.setWidth_eq]
    rfl
  have hend : BitVec.ofNat 16 (d.cur.toNat + 1) = d.len ↔ d.cur.toNat + 1 = d.len.toNat := by
    have := d.len.isLt
    rw [← BitVec.toNat_inj, BitVec.toNat_ofNat, Nat.mod_eq_of_lt (by omega)]
  simp only [takePayload, hp, hnext, hend]
  rfl

/-! ## The last tail byte (R169, R170) -/

section
variable {d : Dec} {b : Byte} (e : Env)

theorem finishFrame_of_match (hb : b = Config.tail1) (hc : d.calcCrc = d.crcRx) :
    finishFrame d b e = ⟨{ d with st := .waitH1, outValid := true }, e, true⟩ := by
  rw [finishFrame, if_pos hb, if_pos hc]

theorem finishFrame_of_wrongCrc (hc : d.calcCrc ≠ d.crcRx) : finishFrame d b e = failStep e := by
  rw [finishFrame, if_neg hc, ite_self]

theorem finishFrame_of_wrongTail (hb : b ≠ Config.tail1) : finishFrame d b e = failStep e :=
  if_neg hb

end

/-- Settles O10: each arm is its state's equation, with the u16 fields as numbers; the statement's `crc` is `calcCrc`
with the header's five bytes written out. -/
theorem decoderPayloadCrcAndTailArms : Obligations.DecoderPayloadCrcAndTailArms := by
  unfold Obligations.DecoderPayloadCrcAndTailArms
  intro d b e failed crc
  have hcrc : d.calcCrc = crc := rfl
  refine ⟨fun m h hp hc => ?_, fun h => ?_, fun h hlow => ?_, fun h hb => ?_, fun h hb => ?_, fun h hb hc => ?_,
    fun h _ hc => ?_, fun h hb => ?_⟩
  · rw [decStep_payload b e h, takePayload_eq hp hc]
    rfl
  · rw [decStep_waitCrc1 b e h, zeroExtend_eq_ofNat]
    rfl
  · rw [decStep_waitCrc2 b e h, withHighByte_eq_ofNat hlow]
    rfl
  · rw [decStep_waitT1 b e h, if_pos (show b = Config.tail0 from hb)]
    rfl
  · rw [decStep_waitT1 b e h, if_neg (show b ≠ Config.tail0 from hb)]
    rfl
  · rw [decStep_waitT2 b e h, finishFrame_of_match e hb (hcrc.trans hc)]
  · exact (decStep_waitT2 b e h).trans (finishFrame_of_wrongCrc e (hcrc ▸ hc))
  · exact (decStep_waitT2 b e h).trans (finishFrame_of_wrongTail e hb)

end Sys2Proof.Machine
end

section
/-! PROOFS. The receiver's commands (43_receiver.md R200, R201, R203, R204): each is its checks around its meaning. -/

namespace Sys2Proof.Machine

/-! ## The checks' faults -/

section
variable {k : Byte} {s : State} {r : Rx} (f : Rx → State)

theorem onRx_absent (h : s.rxAt k = none) : onRx k s f = s.raiseFault .badInstance := by
  rw [onRx, h]

theorem onRx_present (h : s.rxAt k = some r) : onRx k s f = f r := by
  rw [onRx, h]

theorem onLiveRx_absent (h : s.rxAt k = none) : onLiveRx k s f = s.raiseFault .badInstance := onRx_absent _ h

theorem onLiveRx_dead (h : s.rxAt k = some r) (hl : r.live = false) : onLiveRx k s f = s.raiseFault .notLive := by
  rw [onLiveRx, onRx_present _ h, hl]
  rfl

theorem onNewRx_absent (h : s.rxAt k = none) : onNewRx k s f = s.raiseFault .badInstance := onRx_absent _ h

theorem onNewRx_live (h : s.rxAt k = some r) (hl : r.live = true) : onNewRx k s f = s.raiseFault .alreadyLive := by
  rw [onNewRx, onRx_present _ h, if_pos hl]

end

/-- A command that is the check of `live` around `after` answers as R302 and R304 say. -/
theorem answersOnLiveRx_of_exec_eq {i : Instr} {k : Byte} {after : State → Rx → State}
    (h : ∀ s, exec i s = .next (onLiveRx k s (after s))) : AnswersOnLiveRx i k after := fun s =>
  ⟨fun hn => (h s).trans (congrArg _ (onLiveRx_absent _ hn)),
    fun _ hr hl => (h s).trans (congrArg _ (onLiveRx_dead _ hr hl)),
    fun _ hr hl => (h s).trans (congrArg _ (onLiveRx_live hr hl))⟩

/-! ## RX_INIT (R200, R201) -/

/-- What an RX_INIT with hint `h` leaves, where receiver `k` exists and is not live. -/
def State.afterRxInit (s : State) (k : Byte) (h : Word) : State :=
  if h = 0 then s.respond (statusResponse .invalidCapacity)
  else if s.env.grants (decide (h.toNat ≤ s.par.rxMaxCap)) then
    ((s.setRx k (Rx.fresh h.toNat s.env.advance.count)).setEnv s.env.advance.afterNew).respond (statusResponse .ok)
  else (s.setEnv s.env.advance).respond (statusResponse .allocError)

theorem exec_rxInit (k : Byte) (h : Word) (s : State) :
    exec (.rxInit k h) s = .next (onNewRx k s fun _ => s.afterRxInit k h) := rfl

section
variable {s : State} {h : Word} (k : Byte)

/-- A zero hint is answered before any draw (R201, R304). -/
theorem State.afterRxInit_zero : s.afterRxInit k 0 = s.respond (statusResponse .invalidCapacity) := if_pos rfl

theorem State.afterRxInit_of_denied (h0 : h ≠ 0) (hd : s.env.answer = 0 ∨ s.par.rxMaxCap < h.toNat) :
    s.afterRxInit k h = (s.setEnv s.env.advance).respond (statusResponse .allocError) := by
  have hdraw : ¬ s.env.grants (decide (h.toNat ≤ s.par.rxMaxCap)) = true := by
    rw [Env.grants_iff, decide_eq_true_eq]
    omega
  rw [afterRxInit, if_neg h0, if_neg hdraw]

theorem State.afterRxInit_of_granted (h0 : h ≠ 0) (ha : s.env.answer ≠ 0) (hc : h.toNat ≤ s.par.rxMaxCap) :
    s.afterRxInit k h =
      ((s.setRx k (Rx.fresh h.toNat s.env.advance.count)).setEnv s.env.advance.afterNew).respond
        (statusResponse .ok) := by
  rw [afterRxInit, if_neg h0, if_pos ((Env.grants_iff _ _).mpr ⟨decide_eq_true hc, ha⟩)]

end

/-- Settles O18: the checks, the hint and the draw select one of the five ends, in that order. -/
theorem rxInitCreatesReceiver : Obligations.RxInitCreatesReceiver := by
  unfold Obligations.RxInitCreatesReceiver
  intro k h s
  rw [exec_rxInit]
  refine ⟨fun hn => congrArg _ (onNewRx_absent _ hn), fun r hr hl => congrArg _ (onNewRx_live _ hr hl),
    fun r hr hl h0 => ?_, fun r hr hl h0 hd => ?_, fun r hr hl h0 ha hc => ?_⟩
  · rw [onNewRx_dead hr hl, h0, State.afterRxInit_zero]
    rfl
  · rw [onNewRx_dead hr hl, State.afterRxInit_of_denied k h0 hd]
    rfl
  · rw [onNewRx_dead hr hl, State.afterRxInit_of_granted k h0 ha hc]
    exact ⟨_, _, rfl⟩

/-! ## RX_QUERY and RX_APPEND (R203, R204) -/

theorem exec_rxQuery (k : Byte) (s : State) :
    exec (.rxQuery k) s = .next (onLiveRx k s fun r => s.respond (rxQueryResponse r.wp r.pp r.cap)) := rfl

/-- What an RX_APPEND on the live receiver `r` leaves: steps 1 and 2 make the room, steps 3 to 5 parse it (R204). -/
def State.afterAppend (s : State) (k : Byte) (data : Bytes) (r : Rx) : State :=
  let room := (makeRoom s.par.rxMaxCap r data s.env).recheck
  ((s.setRx k room.parse.rx).setEnv room.parse.env).respond (appendResponse room.dropped room.parse.events)

theorem exec_rxAppend (k : Byte) (data : Bytes) (s : State) :
    exec (.rxAppend k data) s = .next (onLiveRx k s (s.afterAppend k data)) := rfl

/-- Settles O20: RX_QUERY only responds, with the two cursors and the capacity. -/
theorem rxQueryAnswersCursors : Obligations.RxQueryAnswersCursors := by
  unfold Obligations.RxQueryAnswersCursors
  exact fun k => answersOnLiveRx_of_exec_eq (exec_rxQuery k)

/-- Settles O21: parsing the room is the put, the scan and the removal of what was delivered, and one frame event's
bytes are its type, its length and its payload (R95). -/
theorem rxAppendRunsItsSteps : Obligations.RxAppendRunsItsSteps := by
  unfold Obligations.RxAppendRunsItsSteps
  exact fun k data => answersOnLiveRx_of_exec_eq (exec_rxAppend k data)

end Sys2Proof.Machine
end

section
/-! PROOFS. The receiver's buffer in steps 3 and 5 of RX_APPEND (43_receiver.md R211, R217): a put and a move to the
front each write one span, and every other offset reads as before. -/

namespace Sys2Proof.Machine

/-! ## Moves to the front (R206, R217) -/

/-- A move of `n` bytes to the front writes no offset from `n` on. -/
theorem read_moveToFront_of_le {m : Option Memory} {size n a : Nat} (hm : HasStore m size) (hn : n ≤ size)
    (ha : n ≤ a) (start : Nat) : (storeOf (moveToFront m start n)).read a = (storeOf m).read a := by
  obtain ⟨x, rfl, -, rfl⟩ := hm
  have hb : 0 + (x.readBytes start n).length ≤ x.size := by simpa using hn
  simp only [moveToFront, loadBytes_some, storeBytes_some, storeOf_some, Memory.read_writeBytes _ hb,
    Memory.length_readBytes]
  exact if_neg (by omega)

section
variable {r : Rx} {a : Nat} (hst : HasStore r.buf r.cap) (hwc : r.wp ≤ r.cap)
include hst hwc

theorem Rx.read_compact_of_le (ha : r.wp - r.pp ≤ a) : (storeOf r.compact.buf).read a = (storeOf r.buf).read a := by
  unfold Rx.compact
  split
  · exact read_moveToFront_of_le hst (by omega) ha r.pp
  · rfl

theorem Rx.read_dropPrefix_of_le {marker : Nat} (ha : r.wp - marker ≤ a) :
    (storeOf (r.dropPrefix marker).buf).read a = (storeOf r.buf).read a := by
  unfold Rx.dropPrefix
  split
  · exact read_moveToFront_of_le hst (by omega) ha marker
  · rfl

end

/-- With no frame delivered nothing moves (R217). -/
theorem Rx.dropPrefix_zero (r : Rx) : r.dropPrefix 0 = r := if_neg (Nat.lt_irrefl 0)

/-- Settles O27: the fields of the shortened receiver, the bytes it keeps, and the offsets its one move leaves alone. -/
theorem stepFiveRemovesDeliveredPrefix : Obligations.StepFiveRemovesDeliveredPrefix := by
  unfold Obligations.StepFiveRemovesDeliveredPrefix
  intro r marker hst _ hwc
  refine ⟨fun h0 => ?_, r.wp_dropPrefix marker, r.pp_dropPrefix marker, r.cap_dropPrefix marker,
    r.live_dropPrefix marker, r.dec_dropPrefix marker, Rx.store_dropPrefix hst marker, Rx.load_dropPrefix hst hwc,
    fun a ha => Rx.read_dropPrefix_of_le hst hwc ha⟩
  rw [h0, Rx.dropPrefix_zero]

/-! ## Step 3 (R211) -/

/-- Settles O25: step 3 is one span of writes at `wp`, and the span lies in the store. -/
theorem stepThreeWritesAtWritePosition : Obligations.StepThreeWritesAtWritePosition := by
  unfold Obligations.StepThreeWritesAtWritePosition
  intro r m data hbuf hroom
  refine ⟨m.writeBytes r.wp data, ?_, Memory.size_writeBytes m r.wp data, fun i hi => ?_, fun a ha => ?_⟩
  · rw [Rx.put, hbuf, storeBytes_some]
  · rw [Memory.read_writeBytes data hroom, if_pos (by omega), Nat.add_sub_cancel_left, List.getD_eq_getElem _ _ hi,
      List.getElem?_eq_getElem hi]
  · rw [Memory.read_writeBytes data hroom, if_neg (by omega)]

end Sys2Proof.Machine
end

section
/-! PROOFS. Step 1 of RX_APPEND (43_receiver.md R205 to R209): an append that does not fit leaves the compacted receiver,
grown by the drawn doublings, and the part of the data that then fits. -/

namespace Sys2Proof.Machine

/-! ## Growth and clipping (R207 to R209) -/

/-- Growth by the drawn `j` doublings keeps the part of the data that then fits (R209); where every doubling asked for
is granted, that is the whole of it. -/
theorem growRoom_eq {maxCap j : Nat} {r : Rx} {data : Bytes} {e : Env} (hc : 1 ≤ r.cap)
    (hj : growthDraw e r.cap maxCap (growthTarget r.cap (r.wp + data.length)) = j) :
    growRoom maxCap r data e =
      ⟨r.grow j e.advance.count, e.advance.afterNew, data.take (r.cap * 2 ^ j - r.wp),
        data.length - (r.cap * 2 ^ j - r.wp)⟩ := by
  simp only [growRoom, hj]
  split
  · simp [Room.clip]
  · next hall =>
    have hk : growthTarget r.cap (r.wp + data.length) ≤ j := Nat.le_of_not_lt hall
    have htarget := (growthTarget_spec (need := r.wp + data.length) hc).1
    have hgrown := Nat.mul_le_mul_left r.cap (Nat.pow_le_pow_right Nat.two_pos hk)
    have hfit : data.length ≤ r.cap * 2 ^ j - r.wp := by omega
    rw [List.take_of_length_le hfit, Nat.sub_eq_zero_of_le hfit]

/-! ## Step 1 (R205 to R209) -/

section
variable {r : Rx} {data : Bytes} (maxCap : Nat) (e : Env)

theorem makeRoom_of_fits (h : r.wp + data.length ≤ r.cap) : makeRoom maxCap r data e = ⟨r, e, data, 0⟩ := if_pos h

theorem makeRoom_of_compact_fits (hfull : r.cap < r.wp + data.length) (h : r.wp - r.pp + data.length ≤ r.cap) :
    makeRoom maxCap r data e = ⟨r.compact, e, data, 0⟩ := by
  rw [makeRoom, if_neg (by omega), if_pos (by simpa using h)]

theorem makeRoom_of_compact_full {j : Nat} (hc : 1 ≤ r.cap) (h : r.cap < r.wp - r.pp + data.length)
    (hj : growthDraw e r.cap maxCap (growthTarget r.cap (r.wp - r.pp + data.length)) = j) :
    makeRoom maxCap r data e =
      ⟨r.compact.grow j e.advance.count, e.advance.afterNew, data.take (r.cap * 2 ^ j - (r.wp - r.pp)),
        data.length - (r.cap * 2 ^ j - (r.wp - r.pp))⟩ := by
  rw [makeRoom, if_neg (by omega), if_neg (by simpa using h), growRoom_eq (by simpa using hc) (by simpa using hj),
    Rx.cap_compact, Rx.wp_compact]

/-- An append that does not fit leaves the compacted receiver, grown by some number of doublings, 0 where compaction is
enough. -/
theorem exists_rx_makeRoom_eq_grow (hc : 1 ≤ r.cap) (hfull : r.cap < r.wp + data.length) :
    ∃ j fill, (makeRoom maxCap r data e).rx = r.compact.grow j fill := by
  rcases Nat.lt_or_ge r.cap (r.wp - r.pp + data.length) with h | h
  · rw [makeRoom_of_compact_full maxCap e hc h rfl]
    exact ⟨_, _, rfl⟩
  · rw [makeRoom_of_compact_fits maxCap e hfull h]
    exact ⟨0, 0, rfl⟩

end

/-- Compaction and growth keep the unread bytes. -/
theorem Rx.load_grow_compact {r : Rx} (hst : HasStore r.buf r.cap) (hwc : r.wp ≤ r.cap) (j fill : Nat) :
    loadBytes (r.compact.grow j fill).buf 0 (r.wp - r.pp) = loadBytes r.buf r.pp (r.wp - r.pp) := by
  have hst' : HasStore r.compact.buf r.compact.cap := by simpa using Rx.store_compact hst
  have hwc' : r.compact.wp ≤ r.compact.cap := by simp; omega
  have hgrow := Rx.load_grow hst' hwc' j fill
  rw [Rx.wp_compact] at hgrow
  exact hgrow.trans (Rx.load_compact hst hwc)

theorem Rx.store_grow_compact {r : Rx} (hst : HasStore r.buf r.cap) (j fill : Nat) :
    HasStore (r.compact.grow j fill).buf (r.cap * 2 ^ j) := by
  have hst' : HasStore r.compact.buf r.compact.cap := by simpa using Rx.store_compact hst
  simpa using Rx.store_grow hst' j fill

/-- Settles O22: what both ways of making room keep is read off the compacted and grown receiver. The `k` of R207 is the
growth target; with all k doublings granted the data fits whole. -/
theorem stepOneMakesRoom : Obligations.StepOneMakesRoom := by
  unfold Obligations.StepOneMakesRoom
  intro maxCap r data e hst _ hwc hpos hmax m w
  refine ⟨makeRoom_of_fits maxCap e, fun hfull => ?_⟩
  obtain ⟨i, fill, hrx⟩ : ∃ i fill, m.rx = r.compact.grow i fill := exists_rx_makeRoom_eq_grow maxCap e hpos hfull
  refine ⟨by simp [hrx], by simp [hrx], by simp [hrx], by simp [w, hrx], ?_, fun hfit => ?_, fun hgrow => ?_⟩
  · rw [hrx]
    exact Rx.load_grow_compact hst hwc i fill
  · have hm : m = ⟨r.compact, e, data, 0⟩ := makeRoom_of_compact_fits maxCap e hfull hfit
    rw [hm]
    exact ⟨r.cap_compact, rfl, rfl, rfl, fun a ha => Rx.read_compact_of_le hst hwc ha⟩
  · obtain ⟨hk, hleast, hk1⟩ := growthTarget_spec (need := w + data.length) hpos
    obtain ⟨j, hj⟩ : ∃ j, growthDraw e r.cap maxCap (growthTarget r.cap (w + data.length)) = j := ⟨_, rfl⟩
    have hm : m = ⟨r.compact.grow j e.advance.count, e.advance.afterNew, data.take (r.cap * 2 ^ j - w),
        data.length - (r.cap * 2 ^ j - w)⟩ := makeRoom_of_compact_full maxCap e hpos hgrow hj
    rw [hm]
    refine ⟨growthTarget r.cap (w + data.length), j, hk1 hgrow, hk, fun i _ hi => hleast i hi, hj.symm, rfl,
      hj ▸ growthDraw_le .., hj ▸ growthDraw_fits hmax .., by simp, Rx.store_grow_compact hst _ _, fun hall => ?_,
      fun _ => ⟨rfl, rfl⟩⟩
    rw [← hall] at hk
    have hfit : data.length ≤ r.cap * 2 ^ j - w := by omega
    exact ⟨List.take_of_length_le hfit, Nat.sub_eq_zero_of_le hfit⟩

end Sys2Proof.Machine
end

section
/-! PROOFS. The scan of RX_APPEND (43_receiver.md R212 to R216): its turns, and the three outcomes of one. -/

namespace Sys2Proof.Machine

theorem Scan.turns_eq_iterate (n : Nat) (c : Scan) : c.turns n = Scan.turn^[n] c := by
  induction n generalizing c with
  | zero => rfl
  | succ n ih => rw [Scan.turns, ih, Function.iterate_succ_apply]

theorem Rx.scanned_of_buf {r : Rx} {m : Memory} (h : r.buf = some m) : r.scanned = m.read r.pp := by
  rw [Rx.scanned, h, storeOf_some]

section
variable {c : Scan} {st : DecStep} (hst : decStep c.rx.dec c.rx.scanned c.env = st)
include hst

theorem Scan.turn_of_pending (h : st.complete = false) :
    c.turn = { c with rx := { c.rx with dec := st.dec, pp := c.rx.pp + 1 }, env := st.env } := by
  simp only [Scan.turn, hst, h, Bool.false_eq_true, if_false]

theorem Scan.turn_of_complete (h : st.complete = true) : c.turn = c.deliver st.dec st.env := by
  simp only [Scan.turn, hst, h, if_true]

end

section
variable {c : Scan} {d : Dec} (e : Env)

theorem Scan.deliver_of_inside (h : frameInBuffer c.rx.pp c.rx.wp d.len = true) :
    c.deliver d e = ⟨{ c.rx with dec := Dec.reset, pp := c.rx.pp + 1 }, e, c.events ++ [d.frame], c.rx.pp + 1⟩ :=
  if_pos h

theorem Scan.deliver_of_outside (h : ¬ frameInBuffer c.rx.pp c.rx.wp d.len = true) :
    c.deliver d e = ⟨{ c.rx with dec := Dec.reset, pp := c.rx.pp + 1 }, e, c.events, c.marker⟩ :=
  if_neg h

end

/-- Settles O26: the decoder's result, then the bound check of R213, select the outcome of a turn. -/
theorem scanTurnFeedsOneByte : Obligations.ScanTurnFeedsOneByte := by
  unfold Obligations.ScanTurnFeedsOneByte
  refine ⟨fun r e => Scan.turns_eq_iterate _ _, ?_⟩
  intro c m hbuf hlt st blank
  have hst : decStep c.rx.dec c.rx.scanned c.env = st := by rw [Rx.scanned_of_buf hbuf]
  have hinside := frameInBuffer_iff hlt st.dec.len
  refine ⟨Scan.turn_of_pending hst, fun h hin => ?_, fun h hout => ?_⟩
  · exact (Scan.turn_of_complete hst h).trans (Scan.deliver_of_inside _ (hinside.mpr (by omega)))
  · exact (Scan.turn_of_complete hst h).trans (Scan.deliver_of_outside _ (by rw [hinside]; omega))

end Sys2Proof.Machine
end

section
/-! PROOFS. The ring's commands (44_ringbuffer.md R250 to R261): each is its checks around its meaning, and the bytes
that the queries and the dump answer. -/

namespace Sys2Proof.Machine

/-! ## The checks' faults -/

section
variable {k : Byte} {s : State} {b : Rb} (f : Rb → State)

theorem onRb_absent (h : s.rbAt k = none) : onRb k s f = s.raiseFault .badInstance := by
  rw [onRb, h]

theorem onRb_present (h : s.rbAt k = some b) : onRb k s f = f b := by
  rw [onRb, h]

theorem onLiveRb_absent (h : s.rbAt k = none) : onLiveRb k s f = s.raiseFault .badInstance := onRb_absent _ h

theorem onLiveRb_dead (h : s.rbAt k = some b) (hl : b.live = false) : onLiveRb k s f = s.raiseFault .notLive := by
  rw [onLiveRb, onRb_present _ h, hl]
  rfl

theorem onNewRb_absent (h : s.rbAt k = none) : onNewRb k s f = s.raiseFault .badInstance := onRb_absent _ h

theorem onNewRb_live (h : s.rbAt k = some b) (hl : b.live = true) : onNewRb k s f = s.raiseFault .alreadyLive := by
  rw [onNewRb, onRb_present _ h, if_pos hl]

end

/-- A command that is the check of `live` around `f` answers as R302 and R304 say, in any wording `after` of `f`. -/
theorem answersOnLiveRb_of_exec_eq {i : Instr} {k : Byte} {f after : State → Rb → State}
    (h : ∀ s, exec i s = .next (onLiveRb k s (f s))) (hf : ∀ s b, f s b = after s b) : AnswersOnLiveRb i k after :=
  fun s =>
    ⟨fun hn => (h s).trans (congrArg _ (onLiveRb_absent _ hn)),
      fun _ hb hl => (h s).trans (congrArg _ (onLiveRb_dead _ hb hl)),
      fun b hb hl => (h s).trans (congrArg _ ((onLiveRb_live hb hl).trans (hf s b)))⟩

/-! ## RB_INIT (R250, R251) -/

section
variable {k : Byte} {s : State} {b : Rb} (c : Word)

theorem exec_rbInit_absent (h : s.rbAt k = none) : exec (.rbInit k c) s = .next (s.raiseFault .badInstance) :=
  congrArg _ (onNewRb_absent _ h)

theorem exec_rbInit_live (h : s.rbAt k = some b) (hl : b.live = true) :
    exec (.rbInit k c) s = .next (s.raiseFault .alreadyLive) :=
  congrArg _ (onNewRb_live _ h hl)

/-- On a ring that is not live the capacity is checked before the draw, which is true within RB_MAX_CAP for an answer
other than 0 (R251). -/
theorem exec_rbInit_dead (h : s.rbAt k = some b) (hl : b.live = false) :
    exec (.rbInit k c) s = .next
      (if c = 0 then s.respond (statusResponse .invalidCapacity)
      else if c.toNat ≤ s.par.rbMaxCap ∧ s.env.answer ≠ 0 then
        ((s.setRb k (Rb.fresh c.toNat s.env.advance.count)).setEnv s.env.advance.afterNew).respond
          (statusResponse .ok)
      else (s.setEnv s.env.advance).respond (statusResponse .allocError)) := by
  refine congrArg _ ((onNewRb_dead h hl).trans ?_)
  simp only [Env.grants_iff, decide_eq_true_eq]

end

/-- Settles O33: the checks, the capacity and the draw select one of the five ends, in that order. -/
theorem rbInitCreatesRing : Obligations.RbInitCreatesRing := by
  unfold Obligations.RbInitCreatesRing
  intro k c s
  refine ⟨fun hn => exec_rbInit_absent c hn, fun b hb hl => exec_rbInit_live c hb hl, fun b hb hl h0 => ?_,
    fun b hb hl h0 hd => ?_, fun b hb hl h0 ha hc => ?_⟩
  · rw [exec_rbInit_dead c hb hl, if_pos h0]
    rfl
  · have hdenied : ¬ (c.toNat ≤ s.par.rbMaxCap ∧ s.env.answer ≠ 0) := by omega
    rw [exec_rbInit_dead c hb hl, if_neg h0, if_neg hdenied]
    rfl
  · rw [exec_rbInit_dead c hb hl, if_neg h0, if_pos ⟨hc, ha⟩]
    exact ⟨_, _, rfl⟩

/-! ## RB_WRITE and RB_READ (R253, R255) -/

theorem exec_rbWrite (k : Byte) (data : Bytes) (s : State) :
    exec (.rbWrite k data) s = .next (onLiveRb k s fun b =>
      if b.freeSpace < data.length then s.respond (statusResponse .insufficientSpace)
      else (s.setRb k (b.enqueue data)).respond (statusResponse .ok)) := rfl

theorem exec_rbRead (k : Byte) (m : Word) (s : State) :
    exec (.rbRead k m) s = .next (onLiveRb k s fun b =>
      (s.setRb k (b.dequeue (min m.toNat b.length))).respond (bytesResponse (b.oldest (min m.toNat b.length)))) := rfl

/-- The two spans of a write, one after the other in the same store (R253). -/
theorem storeBytes_storeBytes (m : Option Memory) (a a' : Nat) (bs bs' : Bytes) :
    storeBytes (storeBytes m a bs) a' bs' = m.map fun x => (x.writeBytes a bs).writeBytes a' bs' :=
  Option.map_map _ _ m

/-- Settles O34: the free space decides, and an accepted write is the two spans of `enqueue`. -/
theorem rbWriteIsAllOrNothing : Obligations.RbWriteIsAllOrNothing := by
  unfold Obligations.RbWriteIsAllOrNothing
  refine fun k data => answersOnLiveRb_of_exec_eq (exec_rbWrite k data) fun s b => ?_
  rw [Rb.enqueue, storeBytes_storeBytes]
  rfl

/-- Settles O36: the clamped count is read as the two spans of `oldest` and taken off by `dequeue`. -/
theorem rbReadIsClamped : Obligations.RbReadIsClamped := by
  unfold Obligations.RbReadIsClamped
  exact fun k m => answersOnLiveRb_of_exec_eq (exec_rbRead k m) fun _ _ => rfl

/-! ## The queries (R257 to R260) -/

theorem exec_rbFreeSpace (k : Byte) (s : State) :
    exec (.rbFreeSpace k) s = .next (onLiveRb k s fun b => s.respond (countResponse b.freeSpace)) := rfl

theorem exec_rbUsedSpace (k : Byte) (s : State) :
    exec (.rbUsedSpace k) s = .next (onLiveRb k s fun b => s.respond (countResponse b.length)) := rfl

theorem exec_rbIsEmpty (k : Byte) (s : State) :
    exec (.rbIsEmpty k) s = .next (onLiveRb k s fun b => s.respond (flagResponse b.isEmpty)) := rfl

theorem exec_rbIsFull (k : Byte) (s : State) :
    exec (.rbIsFull k) s = .next (onLiveRb k s fun b => s.respond (flagResponse b.isFull)) := rfl

/-- The flag of a comparison (R93). -/
theorem flagResponse_beq (m n : Nat) : flagResponse (m == n) = [0, if m = n then 1 else 0] := by
  simp only [flagResponse, flagByte, beq_iff_eq]
  rfl

/-- Settles O38: each query only responds, the flags with the comparison of `length` that they indicate. -/
theorem rbQueriesAnswerOccupancy : Obligations.RbQueriesAnswerOccupancy := by
  unfold Obligations.RbQueriesAnswerOccupancy
  refine fun k => ⟨answersOnLiveRb_of_exec_eq (exec_rbFreeSpace k) fun _ _ => rfl,
    answersOnLiveRb_of_exec_eq (exec_rbUsedSpace k) fun _ _ => rfl,
    answersOnLiveRb_of_exec_eq (exec_rbIsEmpty k) fun s b => ?_,
    answersOnLiveRb_of_exec_eq (exec_rbIsFull k) fun s b => ?_⟩
  · rw [Rb.isEmpty, flagResponse_beq]
    rfl
  · rw [Rb.isFull, flagResponse_beq]
    rfl

/-! ## The dump (R261) -/

theorem exec_rbDump (k : Byte) (s : State) :
    exec (.rbDump k) s =
      .next (onLiveRb k s fun b => s.respond (dumpResponse b.cap b.head b.tail b.length b.text)) := rfl

/-- The range of printable bytes, on numbers. -/
theorem render_eq (x : Byte) : render x = if 0x20 ≤ x.toNat ∧ x.toNat ≤ 0x7E then x else 0x2E := rfl

/-- The text of a dump, offset by offset. -/
theorem Rb.text_eq (b : Rb) : b.text = (List.range b.cap).map fun i => render ((storeOf b.store).read i) := by
  simp only [text, loadBytes, Memory.readBytes_eq_map, List.map_map, Nat.zero_add]
  rfl

/-- Settles O39: RB_DUMP only responds, with the four values and the rendered byte of every offset. -/
theorem rbDumpRendersWholeStore : Obligations.RbDumpRendersWholeStore := by
  unfold Obligations.RbDumpRendersWholeStore
  refine fun k => answersOnLiveRb_of_exec_eq (exec_rbDump k) fun s b => ?_
  simp only [Rb.text_eq, render_eq]
  rfl

end Sys2Proof.Machine
end

section
/-! PROOFS. Statuses, faults and the stopped block (60_exceptions.md R302, R307, R316): an error status leaves every
unit as it was, the checks of INST and `live` under which every command of a unit runs, and the step of a stopped
block. -/

namespace Sys2Proof.Machine

/-! ## Error statuses (R307) -/

/-- The response that an answered command appends: where its STATUS is not OK, it has no fields and no instance
changed. -/
theorem Answered.of_error_status {i : Instr} {s t : State} {code : Byte} {fields : Bytes} (h : Answered i s t)
    (ho : t.out = s.out ++ [code :: fields]) (hc : code ≠ 0) :
    fields = [] ∧ t.decs = s.decs ∧ t.rxs = s.rxs ∧ t.rbs = s.rbs ∧ t.faulted = s.faulted ∧ t.refused = s.refused := by
  obtain ⟨r, decs, rxs, rbs, env, rfl, -, herr⟩ := h.form
  obtain rfl : r = code :: fields := List.singleton_injective (List.append_cancel_left ho)
  obtain ⟨⟨_, hr⟩, hdecs, hrxs, hrbs⟩ := herr (mt Option.some.inj hc)
  exact ⟨(List.cons.inj hr).2, hdecs, hrxs, hrbs, rfl, rfl⟩

/-- Settles O48: a fault appends no response, so the command answered, and its response is the one with the error
status. -/
theorem errorStatusChangesNoInstance : Obligations.ErrorStatusChangesNoInstance := by
  unfold Obligations.ErrorStatusChangesNoInstance
  intro i s t code fields he ho hc
  obtain ⟨t', he', hend⟩ := exec_cases i s
  obtain rfl : t = t' := Host.Outcome.next.inj (he.symm.trans he')
  rcases hend with ⟨why, rfl⟩ | ha
  · exact absurd (List.self_eq_append_right.mp ho) (List.cons_ne_nil _ _)
  · exact ha.of_error_status ho hc

/-! ## The checks that a command of a unit runs under (R304) -/

section
variable {i : Instr} {k : Byte} (s : State)

/-- Every DEC command but DEC_RESET checks INST and `live`. -/
theorem exists_exec_eq_onLiveDec (hk : i.decInst = some k) (hi : i.isInit = false) :
    ∃ f, exec i s = .next (onLiveDec k s f) :=
  match i, hk with
  | .decParse _ b, rfl => ⟨_, exec_decParse k b s⟩
  | .decStatus _, rfl => ⟨_, exec_decStatus k s⟩
  | .decRead _, rfl => ⟨_, exec_decRead k s⟩

/-- Every RX command but RX_INIT checks INST and `live`. -/
theorem exists_exec_eq_onLiveRx (hk : i.rxInst = some k) (hi : i.isInit = false) :
    ∃ f, exec i s = .next (onLiveRx k s f) :=
  match i, hk with
  | .rxAppend _ data, rfl => ⟨_, exec_rxAppend k data s⟩
  | .rxQuery _, rfl => ⟨_, exec_rxQuery k s⟩
  | .rxDestroy _, rfl => ⟨_, rfl⟩

/-- Every RB command but RB_INIT checks INST and `live`. -/
theorem exists_exec_eq_onLiveRb (hk : i.rbInst = some k) (hi : i.isInit = false) :
    ∃ f, exec i s = .next (onLiveRb k s f) :=
  match i, hk with
  | .rbWrite _ data, rfl => ⟨_, exec_rbWrite k data s⟩
  | .rbRead _ m, rfl => ⟨_, exec_rbRead k m s⟩
  | .rbFreeSpace _, rfl => ⟨_, exec_rbFreeSpace k s⟩
  | .rbUsedSpace _, rfl => ⟨_, exec_rbUsedSpace k s⟩
  | .rbIsEmpty _, rfl => ⟨_, exec_rbIsEmpty k s⟩
  | .rbIsFull _, rfl => ⟨_, exec_rbIsFull k s⟩
  | .rbDump _, rfl => ⟨_, exec_rbDump k s⟩
  | .rbDestroy _, rfl => ⟨_, rfl⟩

/-- The init command of the decoders checks INST alone. -/
theorem exists_exec_eq_onDec (hk : i.decInst = some k) (hi : i.isInit = true) :
    ∃ f, exec i s = .next (onDec k s f) :=
  match i, hk with
  | .decReset _, rfl => ⟨_, exec_decReset k s⟩

/-- The init command of the receivers checks INST and that the instance is not live. -/
theorem exists_exec_eq_onNewRx (hk : i.rxInst = some k) (hi : i.isInit = true) :
    ∃ f, exec i s = .next (onNewRx k s f) :=
  match i, hk with
  | .rxInit _ h, rfl => ⟨_, exec_rxInit k h s⟩

/-- The init command of the rings checks INST and that the instance is not live. -/
theorem exists_exec_eq_onNewRb (hk : i.rbInst = some k) (hi : i.isInit = true) :
    ∃ f, exec i s = .next (onNewRb k s f) :=
  match i, hk with
  | .rbInit _ _, rfl => ⟨_, rfl⟩

end

/-! ## The faults of those checks (R302) -/

section
variable {i : Instr} {s : State} {k : Byte}

theorem exec_of_decAt_eq_none (hk : i.decInst = some k) (h : s.decAt k = none) :
    exec i s = .next (s.raiseFault .badInstance) := by
  cases hi : i.isInit with
  | false =>
    obtain ⟨f, hf⟩ := exists_exec_eq_onLiveDec s hk hi
    rw [hf, onLiveDec_absent f h]
  | true =>
    obtain ⟨f, hf⟩ := exists_exec_eq_onDec s hk hi
    rw [hf, onDec_absent h]

theorem exec_of_rxAt_eq_none (hk : i.rxInst = some k) (h : s.rxAt k = none) :
    exec i s = .next (s.raiseFault .badInstance) := by
  cases hi : i.isInit with
  | false =>
    obtain ⟨f, hf⟩ := exists_exec_eq_onLiveRx s hk hi
    rw [hf, onLiveRx_absent f h]
  | true =>
    obtain ⟨f, hf⟩ := exists_exec_eq_onNewRx s hk hi
    rw [hf, onNewRx_absent f h]

theorem exec_of_rbAt_eq_none (hk : i.rbInst = some k) (h : s.rbAt k = none) :
    exec i s = .next (s.raiseFault .badInstance) := by
  cases hi : i.isInit with
  | false =>
    obtain ⟨f, hf⟩ := exists_exec_eq_onLiveRb s hk hi
    rw [hf, onLiveRb_absent f h]
  | true =>
    obtain ⟨f, hf⟩ := exists_exec_eq_onNewRb s hk hi
    rw [hf, onNewRb_absent f h]

theorem exec_of_dec_dead {u : DecUnit} (hk : i.decInst = some k) (hi : i.isInit = false) (h : s.decAt k = some u)
    (hl : u.live = false) : exec i s = .next (s.raiseFault .notLive) := by
  obtain ⟨f, hf⟩ := exists_exec_eq_onLiveDec s hk hi
  rw [hf, onLiveDec_dead f h hl]

theorem exec_of_rx_dead {r : Rx} (hk : i.rxInst = some k) (hi : i.isInit = false) (h : s.rxAt k = some r)
    (hl : r.live = false) : exec i s = .next (s.raiseFault .notLive) := by
  obtain ⟨f, hf⟩ := exists_exec_eq_onLiveRx s hk hi
  rw [hf, onLiveRx_dead f h hl]

theorem exec_of_rb_dead {b : Rb} (hk : i.rbInst = some k) (hi : i.isInit = false) (h : s.rbAt k = some b)
    (hl : b.live = false) : exec i s = .next (s.raiseFault .notLive) := by
  obtain ⟨f, hf⟩ := exists_exec_eq_onLiveRb s hk hi
  rw [hf, onLiveRb_dead f h hl]

theorem exec_init_of_rx_live {r : Rx} (hk : i.rxInst = some k) (hi : i.isInit = true) (h : s.rxAt k = some r)
    (hl : r.live = true) : exec i s = .next (s.raiseFault .alreadyLive) := by
  obtain ⟨f, hf⟩ := exists_exec_eq_onNewRx s hk hi
  rw [hf, onNewRx_live f h hl]

theorem exec_init_of_rb_live {b : Rb} (hk : i.rbInst = some k) (hi : i.isInit = true) (h : s.rbAt k = some b)
    (hl : b.live = true) : exec i s = .next (s.raiseFault .alreadyLive) := by
  obtain ⟨f, hf⟩ := exists_exec_eq_onNewRb s hk hi
  rw [hf, onNewRb_live f h hl]

theorem exec_decRead_of_no_frame {d : Dec} (h : s.decAt k = some ⟨true, d⟩) (hv : d.outValid = false) :
    exec (.decRead k) s = .next (s.raiseFault .noFrame) := by
  rw [exec_decRead, onLiveDec_live h, hv]
  rfl

end

/-- Settles O43: each clause is the fault of the check under which the command runs. -/
theorem everyFaultAndItsCause : Obligations.EveryFaultAndItsCause := by
  unfold Obligations.EveryFaultAndItsCause
  refine fun i s k => ⟨exec_of_decAt_eq_none, exec_of_rxAt_eq_none, exec_of_rbAt_eq_none, fun _ => exec_of_dec_dead,
    fun _ => exec_of_rx_dead, fun _ => exec_of_rb_dead, fun _ => exec_init_of_rx_live, fun _ => exec_init_of_rb_live,
    fun d hi h hv => ?_⟩
  rw [hi]
  exact exec_decRead_of_no_frame h hv

/-! ## The stopped block (R316) -/

/-- The block is stopped where either mark is set (R40). -/
theorem State.stopped_iff {s : State} : s.stopped = true ↔ s.faulted ≠ none ∨ s.refused ≠ none := by
  simp only [stopped, Bool.or_eq_true, Option.isSome_iff_ne_none]

theorem step_of_pending_nil {s : State} (hp : s.pending = []) : step s = .next s := by
  rw [step, hp]

theorem step_of_stopped {s : State} {cmd : Bytes} {rest : List Bytes} (hs : s.stopped = true)
    (hp : s.pending = cmd :: rest) : step s = .next { s with pending := rest } := by
  rw [step, hp]
  simp only [hs, if_true, State.takeCommand, hp, List.tail_cons]

/-- Settles O46: the marks are looked at before the string is decoded. -/
theorem stoppedBlockIgnoresCommands : Obligations.StoppedBlockIgnoresCommands := by
  unfold Obligations.StoppedBlockIgnoresCommands
  exact fun s hm => ⟨step_of_pending_nil, fun _ _ => step_of_stopped (State.stopped_iff.mpr hm)⟩

end Sys2Proof.Machine
end

section
/-! PROOFS. The window of a completed frame (70_reset_and_hazards.md R334): a DEC_PARSE closes it and cannot open it
again with the same byte, a DEC_RESET closes it, and no other command touches the decoder. -/

namespace Sys2Proof.Machine

/-! ## Inside the window -/

section
variable {k : Byte} {s : State} {d : Dec} (h : s.decAt k = some ⟨true, d⟩) (hv : d.outValid = true)
include h hv

theorem exec_decRead_of_frame : exec (.decRead k) s = .next (s.respond (decReadResponse d.frame)) := by
  rw [exec_decRead, onLiveDec_live h, if_pos hv]

/-- A command that does not address the decoder with a byte or a reset leaves the frame readable. -/
theorem exec_decRead_of_frame_kept {i : Instr} {t : State} (hp : ∀ c, i ≠ .decParse k c) (hr : i ≠ .decReset k)
    (he : exec i s = .next t) : exec (.decRead k) t = .next (t.respond (decReadResponse d.frame)) :=
  exec_decRead_of_frame ((exec_decAt hp hr he).trans h) hv

end

/-! ## Closing the window -/

theorem Dec.closeWindow_of_valid {d : Dec} (h : d.outValid = true) : d.closeWindow = Dec.reset := if_pos h

/-- One byte fed to a decoder whose window was open completes nothing: it is fed to the reset record, in WAIT_H1. -/
theorem decStep_closeWindow_outValid {d : Dec} (h : d.outValid = true) (b : Byte) (e : Env) :
    (decStep d.closeWindow b e).dec.outValid = false := by
  rw [decStep_outValid d.outValid_closeWindow, Dec.closeWindow_of_valid h, Bool.eq_false_iff, Ne,
    decStep_complete_iff]
  exact fun ⟨hst, _⟩ => absurd hst (by decide)

theorem State.decAt_afterParse {k : Byte} {s : State} {u : DecUnit} (h : s.decAt k = some u) (b : Byte) (d : Dec) :
    (s.afterParse k b d).decAt k = some ⟨true, (decStep d.closeWindow b s.env).dec⟩ :=
  State.decAt_setDec h _

theorem exec_decRead_after_decParse {k : Byte} {s : State} {d : Dec} (h : s.decAt k = some ⟨true, d⟩)
    (hv : d.outValid = true) (b : Byte) :
    ∃ t, exec (.decParse k b) s = .next t ∧ exec (.decRead k) t = .next (t.raiseFault .noFrame) := by
  refine ⟨s.afterParse k b d, ?_, ?_⟩
  · rw [exec_decParse, onLiveDec_live h]
  · exact exec_decRead_of_no_frame (State.decAt_afterParse h b d) (decStep_closeWindow_outValid hv b s.env)

/-- A DEC_RESET leaves no frame readable, whatever the instance was. -/
theorem exec_decRead_after_decReset {k : Byte} {s : State} {u : DecUnit} (h : s.decAt k = some u) :
    ∃ t, exec (.decReset k) s = .next t ∧ exec (.decRead k) t = .next (t.raiseFault .noFrame) := by
  refine ⟨(s.setDec k ⟨true, Dec.reset⟩).respond (statusResponse .ok), ?_, ?_⟩
  · rw [exec_decReset, onDec_present h]
  · exact exec_decRead_of_no_frame (State.decAt_setDec h _) rfl

/-- Settles O14: the window is `out_valid`, which a DEC_PARSE and a DEC_RESET clear and no other command reaches. -/
theorem readWindowClosesAtNextCommand : Obligations.ReadWindowClosesAtNextCommand := by
  unfold Obligations.ReadWindowClosesAtNextCommand
  exact fun k b s d h hv => ⟨exec_decRead_of_frame h hv, exec_decRead_after_decParse h hv b,
    exec_decRead_after_decReset h,
    fun i t hp hr he => ⟨exec_decAt hp hr he, exec_decRead_of_frame_kept h hv hp hr he⟩⟩

end Sys2Proof.Machine
end

section
/-! PROOFS. The encoder and the decoder of commands (30_encoding.md R87 to R92) are inverse to each other, and the step
of a running block executes or refuses the oldest string (00_scope.md R6, 60_exceptions.md R303). -/

namespace Sys2Proof

/-! ## Decoding an encoding -/

/-- Format D reads back what `encodeD` wrote, where the length fits its field (R88). -/
theorem operandD_encodeD {data : Bytes} (h : data.length < 2 ^ 32) : operandD (encodeD data) = some data :=
  operandD_eq_some.mpr ⟨rfl, h⟩

theorem operandW_le32 (v : Word) : operandW (le32 v) = some v := operandW_eq_some.mpr rfl

/-- Settles O51: each opcode selects its row, INST is 0 where it is reserved, and the row's format reads the operand
bytes back. -/
theorem decodeOfEncodeIsTheCommand : Obligations.DecodeOfEncodeIsTheCommand := by
  unfold Obligations.DecodeOfEncodeIsTheCommand
  intro i hw
  cases i with
  | crc16 data =>
    exact decode_eq_ok rfl (fun _ => rfl) (congrArg (Option.map _) (operandD_encodeD (of_decide_eq_true hw)))
  | crc16Cont c data =>
    have hbody : operandCD (le16 c ++ encodeD data) = some (c, data) :=
      operandCD_eq_some.mpr ⟨rfl, of_decide_eq_true hw⟩
    exact decode_eq_ok rfl (fun _ => rfl) (congrArg (Option.map _) hbody)
  | encode t data =>
    have hbody : operandTD (t :: encodeD data) = some (t, data) :=
      operandTD_eq_some.mpr ⟨rfl, of_decide_eq_true hw⟩
    exact decode_eq_ok rfl (fun _ => rfl) (congrArg (Option.map _) hbody)
  | rxAppend k data | rbWrite k data =>
    exact decode_eq_ok rfl (fun h => nomatch h)
      (congrArg (Option.map _) (operandD_encodeD (of_decide_eq_true hw)))
  | rxInit k v | rbInit k v | rbRead k v =>
    exact decode_eq_ok rfl (fun h => nomatch h) (congrArg (Option.map _) (operandW_le32 v))
  | decReset | decParse | decStatus | decRead | rxQuery | rxDestroy | rbFreeSpace | rbUsedSpace | rbIsEmpty
  | rbIsFull | rbDump | rbDestroy => exact decode_eq_ok rfl (fun h => nomatch h) rfl

/-! ## Encoding a decoding -/

/-- The row of R90 with a given mnemonic. -/
def Mnemonic.row (m : Mnemonic) : OpcodeRow := (opcodeMap.find? fun row => row.mnemonic == m).getD ⟨m, 0, .n, false⟩

/-- No two rows of R90 share a mnemonic. -/
theorem row_mnemonic : ∀ row ∈ opcodeMap, row.mnemonic.row = row := by decide

/-- The command that the operand bytes of a mnemonic make is spelled by the mnemonic's opcode, its INST and those
bytes (R88). -/
theorem encode_of_instrOfBody {inst : Byte} {body : Bytes} {m : Mnemonic} {i : Instr}
    (h : instrOfBody inst body m = some i) (hi : m.row.instReserved = true → inst = 0) :
    encode i = m.row.opc :: inst :: body ∧ i.wf = true := by
  cases m with
  | crc16 =>
    obtain ⟨data, hd, rfl⟩ := Option.map_eq_some_iff.mp h
    obtain ⟨rfl, hl⟩ := operandD_eq_some.mp hd
    rw [hi rfl]
    exact ⟨rfl, decide_eq_true hl⟩
  | crc16Cont =>
    obtain ⟨⟨c, data⟩, hd, rfl⟩ := Option.map_eq_some_iff.mp h
    obtain ⟨rfl, hl⟩ := operandCD_eq_some.mp hd
    rw [hi rfl]
    exact ⟨rfl, decide_eq_true hl⟩
  | encode =>
    obtain ⟨⟨t, data⟩, hd, rfl⟩ := Option.map_eq_some_iff.mp h
    obtain ⟨rfl, hl⟩ := operandTD_eq_some.mp hd
    rw [hi rfl]
    exact ⟨rfl, decide_eq_true hl⟩
  | rxAppend | rbWrite =>
    obtain ⟨data, hd, rfl⟩ := Option.map_eq_some_iff.mp h
    obtain ⟨rfl, hl⟩ := operandD_eq_some.mp hd
    exact ⟨rfl, decide_eq_true hl⟩
  | rxInit | rbInit | rbRead =>
    obtain ⟨v, hv, rfl⟩ := Option.map_eq_some_iff.mp h
    obtain rfl := operandW_eq_some.mp hv
    exact ⟨rfl, rfl⟩
  | decParse =>
    obtain ⟨b, hb, rfl⟩ := Option.map_eq_some_iff.mp h
    obtain rfl := operandB_eq_some.mp hb
    exact ⟨rfl, rfl⟩
  | decReset | decStatus | decRead | rxQuery | rxDestroy | rbFreeSpace | rbUsedSpace | rbIsEmpty | rbIsFull | rbDump
  | rbDestroy =>
    obtain ⟨_, hn, rfl⟩ := Option.map_eq_some_iff.mp h
    obtain rfl := operandN_eq_some.mp hn
    exact ⟨rfl, rfl⟩

/-- A string that decodes has a known opcode, an allowed INST and operand bytes that its format reads (R91). -/
theorem exists_row_of_decode_eq_ok {cmd : Bytes} {i : Instr} (h : decode cmd = .ok i) :
    ∃ row inst body, row ∈ opcodeMap ∧ cmd = row.opc :: inst :: body ∧ (row.instReserved = true → inst = 0) ∧
      instrOfBody inst body row.mnemonic = some i := by
  match cmd, h with
  | opc :: inst :: body, h =>
    cases hr : rowOfOpc opc with
    | none => rw [decode_reservedOpc hr] at h; cases h
    | some row =>
      rw [decode_of_row hr] at h
      split at h
      · cases h
      · next hinst =>
        refine ⟨row, inst, body, rowOfOpc_mem hr, by rw [rowOfOpc_opc hr],
          fun hres => not_not.mp fun h0 => hinst ⟨hres, h0⟩, ?_⟩
        cases hb : instrOfBody inst body row.mnemonic with
        | none => simp [hb] at h
        | some j => simpa [hb] using h

/-- Settles O52: the row that decoded the string is the row of its mnemonic, and so spells the command again. -/
theorem decodedStringIsTheEncoding : Obligations.DecodedStringIsTheEncoding := by
  unfold Obligations.DecodedStringIsTheEncoding
  intro cmd i h
  obtain ⟨row, inst, body, hrow, rfl, hinst, hbody⟩ := exists_row_of_decode_eq_ok h
  have henc := encode_of_instrOfBody hbody
  rw [row_mnemonic row hrow] at henc
  exact henc hinst

/-- Settles O54: nine strings, each decoded as written. -/
theorem workedEncodings : Obligations.WorkedEncodings := by
  unfold Obligations.WorkedEncodings
  decide

namespace Machine

/-! ## The step of a running block -/

section
variable {s : State} {cmd : Bytes} {rest : List Bytes} (hs : s.stopped = false) (hp : s.pending = cmd :: rest)
include hs hp

theorem step_of_decode_ok {i : Instr} (hd : decode cmd = .ok i) : step s = exec i { s with pending := rest } := by
  rw [step, hp]
  simp only [hs, hd, Bool.false_eq_true, if_false, State.takeCommand, hp, List.tail_cons]

theorem step_of_decode_error {why : Reject} (hd : decode cmd = .error why) :
    step s = .next { s with pending := rest, refused := some (.malformed why) } := by
  rw [step, hp]
  simp only [hs, hd, Bool.false_eq_true, if_false, State.takeCommand, State.raiseRefusal, hp, List.tail_cons]

end

/-- Settles O45: the refusal arm of the step. -/
theorem refusedStringSetsTheMark : Obligations.RefusedStringSetsTheMark := by
  unfold Obligations.RefusedStringSetsTheMark
  exact fun _ _ _ _ hp hs hd => step_of_decode_error hs hp hd

/-- Settles O49: the execution arm of the step; the encoding of a well-formed command decodes to it. -/
theorem stepRunsTheDecodedCommand : Obligations.StepRunsTheDecodedCommand := by
  unfold Obligations.StepRunsTheDecodedCommand
  exact ⟨fun _ _ _ _ hp hs hd => step_of_decode_ok hs hp hd,
    fun _ _ i hp hs hw => step_of_decode_ok hs hp (decodeOfEncodeIsTheCommand i hw)⟩

/-- A table word reads as the command that its bytes decode to (log 13). -/
theorem decode_tableBytes {nbits w : Nat} {i : Instr} (h : decodeTableWord nbits w = some i) :
    decode (tableBytes nbits w) = .ok i := by
  rw [decodeTableWord] at h
  cases hd : decode (tableBytes nbits w) with
  | ok j => simpa [hd] using h
  | error why => simp [hd] at h

/-- Settles O50: the word's bytes stand first among the issued commands, and taking them leaves the block. -/
theorem tableWordIsTheNextCommand : Obligations.TableWordIsTheNextCommand := by
  unfold Obligations.TableWordIsTheNextCommand
  intro s nbits w i hs h
  have hp : (s.withFetchWord nbits w).pending = tableBytes nbits w :: s.pending := rfl
  have hrun : (s.withFetchWord nbits w).stopped = false := hs
  exact step_of_decode_ok hrun hp (decode_tableBytes h)

end Machine
end Sys2Proof
end

section
/-! PROOFS. What every step keeps (10_state.md R13, R22, R28, R32, R36, R40; 20_memory.md R67, R75): the invariant, the
frame of a command, the earlier responses and the marks. -/

namespace Sys2Proof.Machine

/-! ## The invariant at power-on (R41, R331) -/

theorem DecUnit.inv_powerOn : DecUnit.powerOn.Inv where
  ofLive h := by cases h
  ofDead _ := ⟨rfl, rfl⟩

theorem Rx.inv_powerOn (maxCap : Nat) : Rx.powerOn.Inv maxCap := Rx.inv_released Rx.powerOn maxCap

theorem Rb.inv_powerOn (maxCap : Nat) : Rb.powerOn.Inv maxCap := Rb.inv_released Rb.powerOn maxCap

/-- The open parameters lie in R7's ranges (log 6). -/
theorem paramsInv_config : ParamsInv Config.params where
  enc := Config.encMaxPayloadChoice.isLt
  rx := ⟨Nat.le_max_left .., Nat.max_lt.mpr ⟨by decide, Config.rxMaxCapChoice.isLt⟩⟩
  rb := ⟨Nat.le_max_left .., Nat.max_lt.mpr ⟨by decide, Config.rbMaxCapChoice.isLt⟩⟩

/-- Settles O56: every unit is a power-on record, which is not live and holds no store. -/
theorem invariantHoldsAtPowerOn : Obligations.InvariantHoldsAtPowerOn := by
  unfold Obligations.InvariantHoldsAtPowerOn
  refine ⟨paramsInv_config, ⟨?_, ?_, ?_⟩, fun u hu => ?_, fun r hr => ?_, fun b hb => ?_, .inl rfl⟩
  · simpa using Config.nDec_range
  · simpa using Config.nRx_range
  · simpa using Config.nRb_range
  · exact State.eq_powerOn_of_mem_reset_decs hu ▸ DecUnit.inv_powerOn
  · exact State.eq_powerOn_of_mem_reset_rxs hr ▸ Rx.inv_powerOn _
  · exact State.eq_powerOn_of_mem_reset_rbs hb ▸ Rb.inv_powerOn _

/-! ## The invariant under each update of the block -/

namespace State.Inv

variable {s : State} (h : s.Inv)
include h

theorem of_decAt {k : Byte} {u : DecUnit} (hu : s.decAt k = some u) : u.Inv :=
  h.decoders u (List.mem_of_getElem? hu)

theorem of_rxAt {k : Byte} {r : Rx} (hr : s.rxAt k = some r) : r.Inv s.par.rxMaxCap :=
  h.receivers r (List.mem_of_getElem? hr)

theorem of_rbAt {k : Byte} {b : Rb} (hb : s.rbAt k = some b) : b.Inv s.par.rbMaxCap :=
  h.rings b (List.mem_of_getElem? hb)

/-- The commands, the responses and the draws are no part of the invariant. -/
theorem respond (r : Bytes) : (s.respond r).Inv :=
  ⟨h.params, h.counts, h.decoders, h.receivers, h.rings, h.oneMark⟩

theorem setEnv (e : Env) : (s.setEnv e).Inv :=
  ⟨h.params, h.counts, h.decoders, h.receivers, h.rings, h.oneMark⟩

theorem takeCommand : s.takeCommand.Inv :=
  ⟨h.params, h.counts, h.decoders, h.receivers, h.rings, h.oneMark⟩

theorem setDec {u : DecUnit} (hu : u.Inv) (k : Byte) : (s.setDec k u).Inv where
  params := h.params
  counts := by simpa using h.counts
  decoders v hv := (List.mem_or_eq_of_mem_set hv).elim (h.decoders v) fun e => e ▸ hu
  receivers := h.receivers
  rings := h.rings
  oneMark := h.oneMark

theorem setRx {r : Rx} (hr : r.Inv s.par.rxMaxCap) (k : Byte) : (s.setRx k r).Inv where
  params := h.params
  counts := by simpa using h.counts
  decoders := h.decoders
  receivers v hv := (List.mem_or_eq_of_mem_set hv).elim (h.receivers v) fun e => e ▸ hr
  rings := h.rings
  oneMark := h.oneMark

theorem setRb {b : Rb} (hb : b.Inv s.par.rbMaxCap) (k : Byte) : (s.setRb k b).Inv where
  params := h.params
  counts := by simpa using h.counts
  decoders := h.decoders
  receivers := h.receivers
  rings v hv := (List.mem_or_eq_of_mem_set hv).elim (h.rings v) fun e => e ▸ hb
  oneMark := h.oneMark

/-- A fault is the only mark where nothing was refused before. -/
theorem raiseFault (hr : s.refused = none) (why : Fault) : (s.raiseFault why).Inv :=
  ⟨h.params, h.counts, h.decoders, h.receivers, h.rings, .inr hr⟩

/-- A refusal is the only mark where nothing faulted before. -/
theorem raiseRefusal (hf : s.faulted = none) (why : Refusal) : (s.raiseRefusal why).Inv :=
  ⟨h.params, h.counts, h.decoders, h.receivers, h.rings, .inl hf⟩

/-! ## The invariant under a command and its checks -/

section
variable (hr : s.refused = none) {k : Byte}
include hr

theorem onDec {f : DecUnit → State} (hf : ∀ u, (f u).Inv) : (onDec k s f).Inv := by
  unfold Machine.onDec
  split
  · exact h.raiseFault hr _
  · exact hf _

theorem onLiveDec {f : Dec → State} (hf : ∀ d : Dec, d.Inv → (f d).Inv) : (onLiveDec k s f).Inv := by
  rcases onLiveDec_cases k s f with ⟨-, e⟩ | ⟨-, -, -, e⟩ | ⟨d, hd, e⟩ <;> rw [e]
  · exact h.raiseFault hr _
  · exact h.raiseFault hr _
  · exact hf d ((h.of_decAt hd).ofLive rfl)

theorem onLiveRx {f : Rx → State} (hf : ∀ r : Rx, r.Inv s.par.rxMaxCap → r.live = true → (f r).Inv) :
    (onLiveRx k s f).Inv := by
  rcases onLiveRx_cases k s f with ⟨-, e⟩ | ⟨-, -, -, e⟩ | ⟨r, hrx, hl, e⟩ <;> rw [e]
  · exact h.raiseFault hr _
  · exact h.raiseFault hr _
  · exact hf r (h.of_rxAt hrx) hl

theorem onNewRx {f : Rx → State} (hf : ∀ r, (f r).Inv) : (onNewRx k s f).Inv := by
  rcases onNewRx_cases k s f with ⟨-, e⟩ | ⟨-, -, -, e⟩ | ⟨r, -, -, e⟩ <;> rw [e]
  · exact h.raiseFault hr _
  · exact h.raiseFault hr _
  · exact hf r

theorem onLiveRb {f : Rb → State} (hf : ∀ b : Rb, b.Inv s.par.rbMaxCap → b.live = true → (f b).Inv) :
    (onLiveRb k s f).Inv := by
  rcases onLiveRb_cases k s f with ⟨-, e⟩ | ⟨-, -, -, e⟩ | ⟨b, hrb, hl, e⟩ <;> rw [e]
  · exact h.raiseFault hr _
  · exact h.raiseFault hr _
  · exact hf b (h.of_rbAt hrb) hl

theorem onNewRb {f : Rb → State} (hf : ∀ b, (f b).Inv) : (onNewRb k s f).Inv := by
  rcases onNewRb_cases k s f with ⟨-, e⟩ | ⟨-, -, -, e⟩ | ⟨b, -, -, e⟩ <;> rw [e]
  · exact h.raiseFault hr _
  · exact h.raiseFault hr _
  · exact hf b

end

theorem afterParse {d : Dec} (hd : d.Inv) (k b : Byte) : (s.afterParse k b d).Inv := by
  have hstep := hd.closeWindow.decStep d.outValid_closeWindow b s.env
  have hunit : DecUnit.Inv ⟨true, (decStep d.closeWindow b s.env).dec⟩ := ⟨fun _ => hstep, fun h => nomatch h⟩
  exact ((h.setDec hunit k).setEnv _).respond _

theorem afterAppend {r : Rx} (hr : r.Inv s.par.rxMaxCap) (hl : r.live = true) (k : Byte) (data : Bytes) :
    (s.afterAppend k data r).Inv := by
  obtain ⟨hroom, hlive, hfits, -⟩ := makeRoom_spec hr hl data s.env
  have hparse := Room.parse_inv hroom hlive hfits
  rw [← recheck_of_fits hfits] at hparse
  exact ((h.setRx hparse k).setEnv _).respond _

theorem afterRxInit (k : Byte) (c : Word) : (s.afterRxInit k c).Inv := by
  unfold State.afterRxInit
  split
  · exact h.respond _
  · next h0 =>
    split
    · next hg =>
      have hc : 1 ≤ c.toNat := Nat.pos_of_ne_zero fun hz => h0 (BitVec.eq_of_toNat_eq hz)
      have hmax := of_decide_eq_true ((Env.grants_iff _ _).mp hg).1
      exact ((h.setRx (Rx.inv_fresh ⟨hc, hmax⟩ _) k).setEnv _).respond _
    · exact (h.setEnv _).respond _

theorem exec_rbInit (hr : s.refused = none) (k : Byte) (c : Word) : ∃ t, exec (.rbInit k c) s = .next t ∧ t.Inv := by
  refine ⟨_, rfl, h.onNewRb hr fun _ => ?_⟩
  split
  · exact h.respond _
  · next h0 =>
    split
    · next hg =>
      have hc : 1 ≤ c.toNat := Nat.pos_of_ne_zero fun hz => h0 (BitVec.eq_of_toNat_eq hz)
      have hmax := of_decide_eq_true ((Env.grants_iff _ _).mp hg).1
      exact ((h.setRb (Rb.inv_fresh ⟨hc, hmax⟩ _) k).setEnv _).respond _
    · exact (h.setEnv _).respond _

theorem exec_encode (t : Byte) (data : Bytes) : ∃ u, exec (.encode t data) s = .next u ∧ u.Inv := by
  rcases Nat.lt_or_ge s.par.encMaxPayload data.length with hlt | hle
  · exact ⟨_, exec_encode_of_limit_lt t hlt, h.respond _⟩
  · exact ⟨_, exec_encode_of_le_limit t hle, (h.setEnv _).respond _⟩

/-- Every command of a block without a refusal keeps the invariant. -/
theorem exists_exec (hr : s.refused = none) (i : Instr) : ∃ t, exec i s = .next t ∧ t.Inv := by
  cases i with
  | crc16 | crc16Cont => exact ⟨_, rfl, h.respond _⟩
  | encode t data => exact h.exec_encode t data
  | decReset k =>
    have hreset : DecUnit.Inv ⟨true, Dec.reset⟩ := ⟨fun _ => Dec.inv_reset, fun h => nomatch h⟩
    exact ⟨_, exec_decReset k s, h.onDec hr fun _ => (h.setDec hreset k).respond _⟩
  | decParse k b => exact ⟨_, exec_decParse k b s, h.onLiveDec hr fun d hd => h.afterParse hd k b⟩
  | decStatus k => exact ⟨_, exec_decStatus k s, h.onLiveDec hr fun _ _ => h.respond _⟩
  | decRead k =>
    refine ⟨_, exec_decRead k s, h.onLiveDec hr fun d _ => ?_⟩
    split
    · exact h.respond _
    · exact h.raiseFault hr _
  | rxInit k c => exact ⟨_, exec_rxInit k c s, h.onNewRx hr fun _ => h.afterRxInit k c⟩
  | rxAppend k data => exact ⟨_, exec_rxAppend k data s, h.onLiveRx hr fun _ hrx hl => h.afterAppend hrx hl k data⟩
  | rxQuery k => exact ⟨_, exec_rxQuery k s, h.onLiveRx hr fun _ _ _ => h.respond _⟩
  | rxDestroy k => exact ⟨_, rfl, h.onLiveRx hr fun r _ _ => (h.setRx (r.inv_released _) k).respond _⟩
  | rbInit k c => exact h.exec_rbInit hr k c
  | rbWrite k data =>
    refine ⟨_, exec_rbWrite k data s, h.onLiveRb hr fun b hb hl => ?_⟩
    split
    · exact h.respond _
    · next hfree => exact (h.setRb (hb.enqueue hl (Nat.not_lt.mp hfree)) k).respond _
  | rbRead k m =>
    exact ⟨_, exec_rbRead k m s, h.onLiveRb hr fun b hb hl =>
      (h.setRb (hb.dequeue hl (Nat.min_le_right _ _)) k).respond _⟩
  | rbFreeSpace k | rbUsedSpace k | rbIsEmpty k | rbIsFull k | rbDump k =>
    exact ⟨_, rfl, h.onLiveRb hr fun _ _ _ => h.respond _⟩
  | rbDestroy k => exact ⟨_, rfl, h.onLiveRb hr fun b _ _ => (h.setRb (b.inv_released _) k).respond _⟩

end State.Inv

/-- A block runs where neither mark is set (R40). -/
theorem State.stopped_eq_false_iff {s : State} : s.stopped = false ↔ s.faulted = none ∧ s.refused = none := by
  simp only [stopped, Bool.or_eq_false_iff, Option.isSome_eq_false_iff, Option.isNone_iff_eq_none]

/-- Settles O57: a step that takes a string of a running block sets at most one mark, and every unit's command keeps
the unit's invariant. -/
theorem stepKeepsInvariant : Obligations.StepKeepsInvariant := by
  unfold Obligations.StepKeepsInvariant
  intro s t h he
  rcases step_cases s with ⟨-, e⟩ | ⟨cmd, rest, -, -, e⟩ | ⟨cmd, rest, i, -, hs, -, e⟩ | ⟨cmd, rest, why, -, hs, -, e⟩
  · exact Host.Outcome.next.inj (e.symm.trans he) ▸ h
  · exact Host.Outcome.next.inj (e.symm.trans he) ▸ h.takeCommand
  · obtain ⟨u, hu, hinv⟩ := h.takeCommand.exists_exec (State.stopped_eq_false_iff.mp hs).2 i
    exact Host.Outcome.next.inj ((e.trans hu).symm.trans he) ▸ hinv
  · exact Host.Outcome.next.inj (e.symm.trans he) ▸
      h.takeCommand.raiseRefusal (State.stopped_eq_false_iff.mp hs).1 _

/-! ## Responses and marks (R13, R40, R75) -/

/-- How a command ends: one response with the marks as before, or a fault (R94). -/
theorem exec_ends (i : Instr) (s : State) :
    ∃ t, exec i s = .next t ∧ ((∃ why, t = s.raiseFault why) ∨
      t.pending = s.pending ∧ t.par = s.par ∧ (∃ r, t.out = s.out ++ [r]) ∧ t.faulted = s.faulted ∧
        t.refused = s.refused) := by
  obtain ⟨t, he, hw | ha⟩ := exec_cases i s
  · exact ⟨t, he, .inl hw⟩
  · obtain ⟨r, _, _, _, _, rfl, -⟩ := ha.form
    exact ⟨_, he, .inr ⟨rfl, rfl, ⟨r, rfl⟩, rfl, rfl⟩⟩

/-- Settles O47: the string decodes, and its command answers or faults, or it is refused. -/
theorem commandEndsInOneOfThreeWays : Obligations.CommandEndsInOneOfThreeWays := by
  unfold Obligations.CommandEndsInOneOfThreeWays
  intro s cmd rest hp hf hr
  have hs : s.stopped = false := State.stopped_eq_false_iff.mpr ⟨hf, hr⟩
  cases hd : decode cmd with
  | error why => exact ⟨_, step_of_decode_error hs hp hd, rfl, rfl, .inr (.inr ⟨_, rfl⟩)⟩
  | ok i =>
    rw [step_of_decode_ok hs hp hd]
    obtain ⟨t, he, ⟨why, rfl⟩ | ⟨hpend, hpar, hout, hfault, href⟩⟩ := exec_ends i { s with pending := rest }
    · exact ⟨_, he, rfl, rfl, .inr (.inl ⟨why, rfl⟩)⟩
    · exact ⟨t, he, hpend, hpar, .inl (hout.imp fun r hr' => ⟨hr', hfault.trans hf, href.trans hr⟩)⟩

/-- Settles O60: a step that takes a string appends at most one response, and only a running block, which has no mark,
gets one. -/
theorem responsesAndMarksAreKept : Obligations.ResponsesAndMarksAreKept := by
  unfold Obligations.ResponsesAndMarksAreKept
  intro s t he
  have unmarked (hs : s.stopped = false) : s.faulted = none ∧ s.refused = none := State.stopped_eq_false_iff.mp hs
  rcases step_cases s with ⟨-, e⟩ | ⟨cmd, rest, -, -, e⟩ | ⟨cmd, rest, i, -, hs, -, e⟩ | ⟨cmd, rest, why, -, hs, -, e⟩
  · obtain rfl := Host.Outcome.next.inj (e.symm.trans he)
    exact ⟨List.prefix_rfl, fun _ => id, fun _ => id⟩
  · obtain rfl := Host.Outcome.next.inj (e.symm.trans he)
    exact ⟨List.prefix_rfl, fun _ => id, fun _ => id⟩
  · obtain ⟨u, hu, hend⟩ := exec_ends i s.takeCommand
    obtain rfl := Host.Outcome.next.inj ((e.trans hu).symm.trans he)
    refine ⟨?_, by simp [unmarked hs], by simp [unmarked hs]⟩
    rcases hend with ⟨why, rfl⟩ | ⟨-, -, ⟨r, hr⟩, -⟩
    · exact List.prefix_rfl
    · exact hr ▸ List.prefix_append _ _
  · obtain rfl := Host.Outcome.next.inj (e.symm.trans he)
    exact ⟨List.prefix_rfl, by simp [unmarked hs], by simp [unmarked hs]⟩

/-! ## The frame of a command (R22) -/

namespace Answered

variable {i : Instr} {s t : State} (h : Answered i s t)
include h

theorem pending_par_refused : t.pending = s.pending ∧ t.par = s.par ∧ t.refused = s.refused := by
  obtain ⟨_, _, _, _, _, rfl, -⟩ := h.form
  exact ⟨rfl, rfl, rfl⟩

theorem decs_frame : t.decs.length = s.decs.length ∧ ∀ k, i.decInst ≠ some k → t.decAt k = s.decAt k := by
  rcases h.decs with e | ⟨j, u, hj, e⟩
  · exact ⟨congrArg _ e, fun k _ => State.decAt_congr e k⟩
  · refine ⟨by rw [e, List.length_set], fun k hk => ?_⟩
    have hne : k ≠ j := fun hkj => hk (hkj ▸ hj)
    exact (State.decAt_congr (s := s.setDec j u) e k).trans (State.decAt_setDec_ne s hne u)

theorem rxs_frame : t.rxs.length = s.rxs.length ∧ ∀ k, i.rxInst ≠ some k → t.rxAt k = s.rxAt k := by
  rcases h.rxs with e | ⟨j, r, hj, e⟩
  · exact ⟨congrArg _ e, fun k _ => State.rxAt_congr e k⟩
  · refine ⟨by rw [e, List.length_set], fun k hk => ?_⟩
    have hne : k ≠ j := fun hkj => hk (hkj ▸ hj)
    exact (State.rxAt_congr (s := s.setRx j r) e k).trans (State.rxAt_setRx_ne s hne r)

theorem rbs_frame : t.rbs.length = s.rbs.length ∧ ∀ k, i.rbInst ≠ some k → t.rbAt k = s.rbAt k := by
  rcases h.rbs with e | ⟨j, b, hj, e⟩
  · exact ⟨congrArg _ e, fun k _ => State.rbAt_congr e k⟩
  · refine ⟨by rw [e, List.length_set], fun k hk => ?_⟩
    have hne : k ≠ j := fun hkj => hk (hkj ▸ hj)
    exact (State.rbAt_congr (s := s.setRb j b) e k).trans (State.rbAt_setRb_ne s hne b)

/-- Five commands draw (R12). -/
theorem env_frame (hencode : ∀ ty d, i ≠ .encode ty d) (hparse : ∀ k b, i ≠ .decParse k b)
    (hrxInit : ∀ k c, i ≠ .rxInit k c) (happend : ∀ k d, i ≠ .rxAppend k d) (hrbInit : ∀ k c, i ≠ .rbInit k c) :
    t.env = s.env := by
  rcases h.env with e | ⟨_, _, e⟩ | ⟨_, _, e⟩ | ⟨_, _, e⟩ | ⟨_, _, e⟩ | ⟨_, _, e⟩
  · exact e
  · exact absurd e (hencode _ _)
  · exact absurd e (hparse _ _)
  · exact absurd e (hrxInit _ _)
  · exact absurd e (happend _ _)
  · exact absurd e (hrbInit _ _)

end Answered

/-- Settles O59: a fault changes no unit, and an answered command sets at most the one unit it addresses. -/
theorem commandChangesOnlyItsInstance : Obligations.CommandChangesOnlyItsInstance := by
  unfold Obligations.CommandChangesOnlyItsInstance
  intro i s t he
  obtain ⟨t', he', hend⟩ := exec_cases i s
  obtain rfl := Host.Outcome.next.inj (he'.symm.trans he)
  rcases hend with ⟨why, rfl⟩ | ha
  · exact ⟨rfl, rfl, rfl, rfl, rfl, rfl, fun _ _ => rfl, fun _ _ => rfl, fun _ _ => rfl, fun _ _ _ _ _ => rfl⟩
  · obtain ⟨hpend, hpar, href⟩ := ha.pending_par_refused
    obtain ⟨hdecs, hdecAt⟩ := ha.decs_frame
    obtain ⟨hrxs, hrxAt⟩ := ha.rxs_frame
    obtain ⟨hrbs, hrbAt⟩ := ha.rbs_frame
    exact ⟨hpend, hpar, href, hdecs, hrxs, hrbs, hdecAt, hrxAt, hrbAt, ha.env_frame⟩

/-! ## Queries (20_memory.md R67) -/

/-- `i` on `s` answers a response alone and answers it again, or it faults (R67). -/
def AnswersAgain (i : Instr) (s : State) : Prop :=
  (∃ r, exec i s = .next (s.respond r) ∧ exec i (s.respond r) = .next ((s.respond r).respond r)) ∨
    ∃ why, exec i s = .next (s.raiseFault why)

section
variable {i : Instr} {k : Byte} (s : State)

/-- A command under the check of `live` whose answer is read off the decoder. -/
theorem answersAgain_of_onLiveDec {g : Dec → Bytes}
    (h : ∀ s, exec i s = .next (onLiveDec k s fun d => s.respond (g d))) : AnswersAgain i s := by
  rcases onLiveDec_cases k s fun d => s.respond (g d) with ⟨-, e⟩ | ⟨-, -, -, e⟩ | ⟨d, hd, e⟩
  · exact .inr ⟨_, (h s).trans (congrArg _ e)⟩
  · exact .inr ⟨_, (h s).trans (congrArg _ e)⟩
  · exact .inl ⟨g d, (h s).trans (congrArg _ e), (h _).trans (congrArg _ (onLiveDec_live hd))⟩

theorem answersAgain_of_onLiveRx {g : Rx → Bytes}
    (h : ∀ s, exec i s = .next (onLiveRx k s fun r => s.respond (g r))) : AnswersAgain i s := by
  rcases onLiveRx_cases k s fun r => s.respond (g r) with ⟨-, e⟩ | ⟨-, -, -, e⟩ | ⟨r, hr, hl, e⟩
  · exact .inr ⟨_, (h s).trans (congrArg _ e)⟩
  · exact .inr ⟨_, (h s).trans (congrArg _ e)⟩
  · exact .inl ⟨g r, (h s).trans (congrArg _ e), (h _).trans (congrArg _ (onLiveRx_live hr hl))⟩

theorem answersAgain_of_onLiveRb {g : Rb → Bytes}
    (h : ∀ s, exec i s = .next (onLiveRb k s fun b => s.respond (g b))) : AnswersAgain i s := by
  rcases onLiveRb_cases k s fun b => s.respond (g b) with ⟨-, e⟩ | ⟨-, -, -, e⟩ | ⟨b, hb, hl, e⟩
  · exact .inr ⟨_, (h s).trans (congrArg _ e)⟩
  · exact .inr ⟨_, (h s).trans (congrArg _ e)⟩
  · exact .inl ⟨g b, (h s).trans (congrArg _ e), (h _).trans (congrArg _ (onLiveRb_live hb hl))⟩

end

/-- DEC_READ has one check more: without a readable frame it faults. -/
theorem answersAgain_decRead (k : Byte) (s : State) : AnswersAgain (.decRead k) s := by
  match hu : s.decAt k with
  | none => exact .inr ⟨_, exec_of_decAt_eq_none rfl hu⟩
  | some ⟨false, d⟩ => exact .inr ⟨_, exec_of_dec_dead rfl rfl hu rfl⟩
  | some ⟨true, d⟩ =>
    cases hv : d.outValid with
    | false => exact .inr ⟨_, exec_decRead_of_no_frame hu hv⟩
    | true => exact .inl ⟨_, exec_decRead_of_frame hu hv, exec_decRead_of_frame hu hv⟩

/-- Settles O58: a query's answer is read off its unit, which a response does not change. -/
theorem queriesChangeNothing : Obligations.QueriesChangeNothing := by
  unfold Obligations.QueriesChangeNothing
  intro i s hq
  show AnswersAgain i s
  cases i with
  | crc16 | crc16Cont => exact .inl ⟨_, rfl, rfl⟩
  | decStatus k => exact answersAgain_of_onLiveDec s (exec_decStatus k)
  | decRead k => exact answersAgain_decRead k s
  | rxQuery k => exact answersAgain_of_onLiveRx s (exec_rxQuery k)
  | rbFreeSpace k => exact answersAgain_of_onLiveRb s (exec_rbFreeSpace k)
  | rbUsedSpace k => exact answersAgain_of_onLiveRb s (exec_rbUsedSpace k)
  | rbIsEmpty k => exact answersAgain_of_onLiveRb s (exec_rbIsEmpty k)
  | rbIsFull k => exact answersAgain_of_onLiveRb s (exec_rbIsFull k)
  | rbDump k => exact answersAgain_of_onLiveRb s (exec_rbDump k)
  | encode | decReset | decParse | rxInit | rxAppend | rxDestroy | rbInit | rbWrite | rbRead | rbDestroy =>
    exact nomatch hq

end Sys2Proof.Machine
end

section
/-! PROOFS. Single commands and steps: CRC over two spans (40_crc.md R123, R124), a second DEC_RESET
(70_reset_and_hazards.md R332), a stray header byte and a payload byte (42_decoder.md R166, R175), the destroys (R202,
R252), the growth draw and the re-check of RX_APPEND (43_receiver.md R208, R210). -/

namespace Sys2Proof.Machine

/-! ## CRC unit -/

/-- Settles O3: the three pairs of commands answer the same CRC, by the fold over an append. -/
theorem crcContinuesOverSpans : Obligations.CrcContinuesOverSpans := by
  unfold Obligations.CrcContinuesOverSpans
  intro c a b s
  refine ⟨?_, ?_, (exec_crc16_eq_crc16Cont a s).symm⟩
  · rw [exec_crc16Cont, exec_crc16Cont, crc16Cont_append]
  · rw [exec_crc16_eq_crc16Cont, exec_crc16Cont, exec_crc16Cont, crc16Cont_append]
    rfl

/-! ## Decoder unit -/

/-- Setting a decoder to what it is changes nothing. -/
theorem State.setDec_of_decAt {s : State} {k : Byte} {u : DecUnit} (h : s.decAt k = some u) : s.setDec k u = s := by
  have hset : s.decs.set k.toNat u = s.decs := by
    obtain ⟨hk, rfl⟩ := List.getElem?_eq_some_iff.mp h
    exact List.set_getElem_self hk
  rw [State.setDec, hset]

/-- Settles O7: the first reset leaves the decoder in its reset state, which the second one writes again. -/
theorem decResetIsIdempotent : Obligations.DecResetIsIdempotent := by
  unfold Obligations.DecResetIsIdempotent
  intro k s hk
  obtain ⟨u, hu⟩ := Option.isSome_iff_exists.mp hk
  refine ⟨(s.setDec k ⟨true, Dec.reset⟩).respond (statusResponse .ok), ?_, rfl, rfl, ?_⟩
  · rw [exec_decReset, onDec_present hu]
  · have hreset : ((s.setDec k ⟨true, Dec.reset⟩).respond (statusResponse .ok)).decAt k = some ⟨true, Dec.reset⟩ :=
      State.decAt_setDec hu _
    rw [exec_decReset, onDec_present hreset, State.setDec_of_decAt hreset]
    rfl

/-- One byte fed to a decoder without a readable frame, where its step reports pending. -/
theorem Feed.byte_of_pending {d d' : Dec} {e e' : Env} {b : Byte} (h : decStep d b e = pendingStep d' e')
    (hv : d.outValid = false) (results : List Bool) :
    (Feed.mk d e results).byte b = ⟨d', e', results ++ [false]⟩ := by
  simp only [Feed.byte, Dec.closeWindow_of_invalid hv, h, pendingStep]

/-- Settles O15: the stray byte opens a header, its successor closes it without being looked at as a header byte, and
the third byte opens none. -/
theorem strayHeaderByteLosesNextHeader : Obligations.StrayHeaderByteLosesNextHeader := by
  unfold Obligations.StrayHeaderByteLosesNextHeader
  intro d e hst hv
  have hback : ({ d with st := .waitH1 } : Dec) = d := by rw [← hst]
  have hopen : decStep d 0x55 e = pendingStep { d with st := .waitH2 } e := decStep_waitH1 0x55 e hst
  have hclose : decStep { d with st := .waitH2 } 0x55 e = pendingStep d e :=
    (decStep_waitH2 0x55 e rfl).trans (congrArg (pendingStep · e) hback)
  have hstay : decStep d 0xAA e = pendingStep d e := decStep_waitH1 0xAA e hst
  simp only [Feed.bytes, List.foldl_cons, List.foldl_nil]
  rw [Feed.byte_of_pending hopen hv, Feed.byte_of_pending hclose hv, Feed.byte_of_pending hstay hv]
  rfl

/-- Settles O11: the step in PAYLOAD writes one byte of the buffer, at `cur`. -/
theorem payloadByteIsStoredAtCursor : Obligations.PayloadByteIsStoredAtCursor := by
  unfold Obligations.PayloadByteIsStoredAtCursor
  intro k b s d m hd hst hv hp hsz hc
  have hstep := (decStep_payload b s.env hst).trans (congrArg (pendingStep · s.env) (takePayload_eq hp hc b))
  have hread := Memory.read_write (hsz ▸ hc) b
  refine ⟨s.afterParse k b d, _, m.write d.cur.toNat b, ?_, State.decAt_afterParse hd b d, ?_,
    by simp [hread], fun a ha => by simp [hread, ha], Memory.size_write m _ b, ?_⟩
  · rw [exec_decParse, onLiveDec_live hd]
  · rw [Dec.closeWindow_of_invalid hv, hstep]
    rfl
  · rw [State.afterParse, Dec.closeWindow_of_invalid hv, hstep]
    exact ⟨rfl, rfl, rfl, hv, rfl⟩

/-! ## The destroys -/

/-- Settles O19: RX_DESTROY is the check of `live` around the release. -/
theorem rxDestroyReleases : Obligations.RxDestroyReleases := by
  unfold Obligations.RxDestroyReleases
  exact fun k => answersOnLiveRx_of_exec_eq fun _ => rfl

/-- Settles O40: RB_DESTROY is the check of `live` around the release. -/
theorem rbDestroyReleases : Obligations.RbDestroyReleases := by
  unfold Obligations.RbDestroyReleases
  exact fun k => answersOnLiveRb_of_exec_eq (fun _ => rfl) fun _ _ => rfl

/-! ## Room in the receiver -/

/-- Settles O23: the draw is the smaller of the answer and the largest allowed count, so the answer j draws j. -/
theorem growthDrawsExactlyTheAllowedCounts : Obligations.GrowthDrawsExactlyTheAllowedCounts := by
  unfold Obligations.GrowthDrawsExactlyTheAllowedCounts
  intro cap maxCap k hcap
  refine ⟨fun e => ⟨growthDraw_le e cap maxCap k, growthDraw_fits hcap e k⟩, fun j hj hfits => ⟨⟨[j], 0⟩, ?_⟩⟩
  exact Nat.min_eq_left (le_growthLimit hj hfits)

/-- After step 1 the data fits, on any receiver whose cursors are in order (R210). -/
theorem makeRoom_fits {r : Rx} (hpp : r.pp ≤ r.wp) (hwc : r.wp ≤ r.cap) (hpos : 1 ≤ r.cap) (maxCap : Nat) (data : Bytes)
    (e : Env) :
    (makeRoom maxCap r data e).rx.wp + (makeRoom maxCap r data e).data.length ≤ (makeRoom maxCap r data e).rx.cap := by
  rcases Nat.lt_or_ge r.cap (r.wp + data.length) with hfull | hfit
  · rcases Nat.lt_or_ge r.cap (r.wp - r.pp + data.length) with hgrow | hcompact
    · have hcap : r.cap ≤ r.cap * 2 ^ growthDraw e r.cap maxCap (growthTarget r.cap (r.wp - r.pp + data.length)) :=
        Nat.le_mul_of_pos_right _ (Nat.two_pow_pos _)
      rw [makeRoom_of_compact_full maxCap e hpos hgrow rfl]
      simp only [Rx.wp_grow, Rx.wp_compact, Rx.cap_grow, Rx.cap_compact, List.length_take]
      omega
    · rw [makeRoom_of_compact_fits maxCap e hfull hcompact]
      simpa using hcompact
  · rw [makeRoom_of_fits maxCap e hfit]
    exact hfit

/-- Settles O24: the re-check clips exactly where the data does not fit, which it does after step 1. -/
theorem recheckClipsAndNeverFires : Obligations.RecheckClipsAndNeverFires := by
  unfold Obligations.RecheckClipsAndNeverFires
  exact ⟨fun m h => if_pos h, fun m h => recheck_of_fits h,
    fun maxCap r data e hpp hwc hpos => makeRoom_fits hpp hwc hpos maxCap data e⟩

end Sys2Proof.Machine
end

section
/-! PROOFS. The ring's contents (44_ringbuffer.md R254, R256, R262, R263): an accepted write appends its data, a read
takes the oldest bytes, and so the bytes read are the first of the bytes accepted. -/

namespace Sys2Proof.Machine

namespace Rb

@[simp] theorem cap_enqueue (b : Rb) (data : Bytes) : (b.enqueue data).cap = b.cap := rfl
@[simp] theorem tail_enqueue (b : Rb) (data : Bytes) : (b.enqueue data).tail = b.tail := rfl
@[simp] theorem length_enqueue (b : Rb) (data : Bytes) : (b.enqueue data).length = b.length + data.length := rfl

@[simp] theorem cap_dequeue (b : Rb) (n : Nat) : (b.dequeue n).cap = b.cap := rfl
@[simp] theorem tail_dequeue (b : Rb) (n : Nat) : (b.dequeue n).tail = (b.tail + n) % b.cap := rfl
@[simp] theorem length_dequeue (b : Rb) (n : Nat) : (b.dequeue n).length = b.length - n := rfl
@[simp] theorem store_dequeue (b : Rb) (n : Nat) : (b.dequeue n).store = b.store := rfl

section
variable {maxCap : Nat} {b : Rb} (h : b.Inv maxCap) (hl : b.live = true)
include h hl

/-! ## Contents -/

/-- The offset `i` bytes from `head` is the one `length + i` bytes from `tail` (10_state.md R36). -/
theorem Inv.head_add_mod (i : Nat) : (b.head + i) % b.cap = (b.tail + (b.length + i)) % b.cap := by
  rw [h.headOfTail hl, Nat.mod_add_mod, Nat.add_assoc]

/-- The free offsets from `head` on hold no unread byte. -/
theorem Inv.head_add_ne_tail_add {i j : Nat} (hi : i < b.cap - b.length) (hj : j < b.length) :
    (b.head + i) % b.cap ≠ (b.tail + j) % b.cap := by
  obtain ⟨-, htail, hlen⟩ := h.offsets hl
  rw [h.head_add_mod hl]
  intro heq
  have := ring_offset_inj htail (by omega) (by omega) heq
  omega

/-- Every offset of the store lies some bytes from `head`. -/
theorem Inv.exists_head_add_mod {a : Nat} (ha : a < b.cap) : ∃ i < b.cap, (b.head + i) % b.cap = a := by
  obtain ⟨hhead, -, -⟩ := h.offsets hl
  rcases Nat.lt_or_ge a b.head with hlt | hge
  · exact ⟨b.cap - b.head + a, by omega, by rw [mod_once (by omega), if_neg (by omega)]; omega⟩
  · exact ⟨a - b.head, by omega, by rw [mod_once (by omega), if_pos (by omega)]; omega⟩

/-- What each offset of the store reads as after an accepted write (R254). -/
theorem Inv.read_enqueue {data : Bytes} (hn : data.length ≤ b.freeSpace) {i : Nat} (hi : i < b.cap) :
    (storeOf (b.enqueue data).store).read ((b.head + i) % b.cap) =
      if i < data.length then data.getD i 0 else (storeOf b.store).read ((b.head + i) % b.cap) := by
  obtain ⟨m, hm, -, hsz⟩ := h.backing hl
  obtain ⟨hhead, -, -⟩ := h.offsets hl
  rw [Rb.read_enqueue hm hsz hhead (hn.trans (Nat.sub_le _ _)) hi, hm, storeOf_some]

theorem Inv.contents_enqueue {data : Bytes} (hn : data.length ≤ b.freeSpace) :
    (b.enqueue data).contents = b.contents ++ data := by
  obtain ⟨-, htail, hlen⟩ := h.offsets hl
  have hfree : data.length ≤ b.cap - b.length := hn
  simp only [contents, length_enqueue, tail_enqueue, cap_enqueue, List.range_add, List.map_append, List.map_map]
  congr 1
  · refine List.map_congr_left fun j hj => ?_
    have hj : j < b.length := List.mem_range.mp hj
    obtain ⟨i, hi, heq⟩ := h.exists_head_add_mod hl (Nat.mod_lt (b.tail + j) (by omega : 0 < b.cap))
    have hdata : ¬ i < data.length := fun hlt => h.head_add_ne_tail_add hl (by omega) hj heq
    rw [← heq, h.read_enqueue hl hn hi, if_neg hdata]
  · refine List.ext_getElem? fun i => ?_
    rcases Nat.lt_or_ge i data.length with hi | hi
    · have hread := h.read_enqueue hl hn (i := i) (by omega)
      rw [h.head_add_mod hl, if_pos hi] at hread
      simpa [hi] using hread
    · simp [hi]

/-- A read takes the contents apart (R256). -/
theorem Inv.contents_eq_oldest_append {n : Nat} (hn : n ≤ b.length) :
    b.contents = b.oldest n ++ (b.dequeue n).contents := by
  obtain ⟨-, htail, hlen⟩ := h.offsets hl
  obtain ⟨k, hk⟩ := Nat.exists_eq_add_of_le hn
  have hrest : b.length - n = k := by omega
  rw [oldest_eq htail (by omega)]
  simp only [contents, length_dequeue, tail_dequeue, cap_dequeue, store_dequeue, hrest]
  simp only [hk, List.range_add, List.map_append, List.map_map, Function.comp_def, Nat.mod_add_mod, Nat.add_assoc]

theorem Inv.oldest_eq_take {n : Nat} (hn : n ≤ b.length) : b.oldest n = b.contents.take n := by
  rw [h.contents_eq_oldest_append hl hn, List.take_left' (length_oldest b n)]

theorem Inv.contents_dequeue {n : Nat} (hn : n ≤ b.length) : (b.dequeue n).contents = b.contents.drop n := by
  rw [h.contents_eq_oldest_append hl hn, List.drop_left' (length_oldest b n)]

end
end Rb

/-! ## The data path on a live ring -/

section
variable {k : Byte} {s : State} {b : Rb} (hb : s.rbAt k = some b) (hl : b.live = true)
include hb hl

theorem exec_rbWrite_accepted {data : Bytes} (hn : data.length ≤ b.freeSpace) :
    exec (.rbWrite k data) s = .next ((s.setRb k (b.enqueue data)).respond [0]) := by
  rw [exec_rbWrite, onLiveRb_live hb hl, if_neg (Nat.not_lt.mpr hn)]
  rfl

theorem exec_rbWrite_refused {data : Bytes} (hn : b.freeSpace < data.length) :
    exec (.rbWrite k data) s = .next (s.respond [3]) := by
  rw [exec_rbWrite, onLiveRb_live hb hl, if_pos hn]
  rfl

theorem exec_rbRead_live (m : Word) :
    exec (.rbRead k m) s = .next ((s.setRb k (b.dequeue (min m.toNat b.length))).respond
      (bytesResponse (b.oldest (min m.toNat b.length)))) := by
  rw [exec_rbRead, onLiveRb_live hb hl]

end

/-- Settles O35: the offsets from `head` are all the store's offsets, and the written ones among them are free. -/
theorem rbWriteStoresFromHead : Obligations.RbWriteStoresFromHead := by
  unfold Obligations.RbWriteStoresFromHead
  intro k data s b m hs hb hl hm hn
  have h := hs.of_rbAt hb
  obtain ⟨m', hm', -⟩ := (h.enqueue hl hn).backing hl
  have hfree : data.length ≤ b.freeSpace := hn
  have hread {i : Nat} (hi : i < b.cap) :
      m'.read ((b.head + i) % b.cap) = if i < data.length then data.getD i 0 else m.read ((b.head + i) % b.cap) := by
    simpa [hm', hm] using h.read_enqueue hl hfree hi
  refine ⟨_, b.enqueue data, m', exec_rbWrite_accepted hb hl hn, State.rbAt_setRb hb _, hm', fun i hi => ?_,
    fun a ha hout => ?_, fun i j hi hj => h.head_add_ne_tail_add hl (by omega) hj, hl, rfl, rfl,
    h.contents_enqueue hl hn⟩
  · rw [hread (by omega), if_pos hi, List.getD_eq_getElem _ _ hi, List.getElem?_eq_getElem hi]
  · obtain ⟨i, hi, rfl⟩ := h.exists_head_add_mod hl ha
    rw [hread hi, if_neg fun hlt => hout i hlt rfl]

/-- Settles O37: the answered bytes and what stays are the contents taken apart. -/
theorem rbReadReturnsOldestBytes : Obligations.RbReadReturnsOldestBytes := by
  unfold Obligations.RbReadReturnsOldestBytes
  intro k m s b hs hb hl n
  have h := hs.of_rbAt hb
  have hn : n ≤ b.length := Nat.min_le_right _ _
  refine ⟨_, b.dequeue n, exec_rbRead_live hb hl m, State.rbAt_setRb hb _, ?_, h.contents_dequeue hl hn, rfl, rfl, rfl⟩
  rw [← h.oldest_eq_take hl hn, State.respond_out, bytesResponse, Rb.length_oldest]
  rfl

/-- Settles O41: `length` and `cap - length` are below 2^32, so their fields are exact. -/
theorem usedAndFreeAddUpToCapacity : Obligations.UsedAndFreeAddUpToCapacity := by
  unfold Obligations.UsedAndFreeAddUpToCapacity
  intro k s b hs hb hl
  have h := hs.of_rbAt hb
  have hmax := hs.params.rb.2
  have hcap := (h.capRange hl).2
  have hlen := (h.offsets hl).2.2
  have hexact {v : Nat} (hv : v ≤ b.cap) : (BitVec.ofNat 32 v).toNat = v :=
    (BitVec.toNat_ofNat v 32).trans (Nat.mod_eq_of_lt (by omega))
  refine ⟨⟨BitVec.ofNat 32 b.length, BitVec.ofNat 32 b.freeSpace, ?_, ?_, ?_⟩,
    fun data hn => exec_rbWrite_refused hb hl hn⟩
  · rw [exec_rbUsedSpace, onLiveRb_live hb hl]
    rfl
  · rw [exec_rbFreeSpace, onLiveRb_live hb hl]
    rfl
  · rw [hexact hlen, hexact (v := b.freeSpace) (Nat.sub_le _ _)]
    exact Nat.add_sub_cancel' hlen

/-! ## First in, first out (R263) -/

/-- Ring `k` is live, and the bytes read from it and those it holds are the bytes written to it, in order. -/
structure RingHistory.Fifo (k : Byte) (maxCap : Nat) (h : RingHistory) (b : Rb) : Prop where
  present : h.state.rbAt k = some b
  live : b.live = true
  inv : b.Inv maxCap
  balance : h.got ++ b.contents = h.written

theorem RingHistory.Fifo.write {k : Byte} {maxCap : Nat} {h : RingHistory} {b : Rb} (hf : h.Fifo k maxCap b)
    (data : Bytes) : ∃ b', (h.after k (.write data)).Fifo k maxCap b' := by
  obtain ⟨hb, hl, hi, hbal⟩ := hf
  rcases Nat.lt_or_ge b.freeSpace data.length with hn | hn
  · have hafter : h.after k (.write data) = ⟨h.state.respond [3], h.written, h.got⟩ := by
      simp [after, exec_rbWrite_refused hb hl hn]
    rw [hafter]
    exact ⟨b, hb, hl, hi, hbal⟩
  · have hafter : h.after k (.write data) =
        ⟨(h.state.setRb k (b.enqueue data)).respond [0], h.written ++ data, h.got⟩ := by
      simp [after, exec_rbWrite_accepted hb hl hn]
    rw [hafter]
    refine ⟨b.enqueue data, State.rbAt_setRb hb _, hl, hi.enqueue hl hn, ?_⟩
    rw [hi.contents_enqueue hl hn, ← List.append_assoc, hbal]

theorem RingHistory.Fifo.read {k : Byte} {maxCap : Nat} {h : RingHistory} {b : Rb} (hf : h.Fifo k maxCap b)
    (m : Word) : ∃ b', (h.after k (.read m)).Fifo k maxCap b' := by
  obtain ⟨hb, hl, hi, hbal⟩ := hf
  obtain ⟨n, hmin⟩ : ∃ n, min m.toNat b.length = n := ⟨_, rfl⟩
  have hn : n ≤ b.length := hmin ▸ Nat.min_le_right _ _
  have hexec := exec_rbRead_live hb hl m
  rw [hmin] at hexec
  have hafter : h.after k (.read m) =
      ⟨(h.state.setRb k (b.dequeue n)).respond (bytesResponse (b.oldest n)), h.written, h.got ++ b.oldest n⟩ := by
    simp [after, hexec, bytesResponse, u32Field, le32]
  rw [hafter]
  refine ⟨b.dequeue n, State.rbAt_setRb hb _, hl, hi.dequeue hl hn, ?_⟩
  rw [List.append_assoc, ← hi.contents_eq_oldest_append hl hn, hbal]

theorem RingHistory.Fifo.foldl {k : Byte} {maxCap : Nat} (ops : List RingOp) {h : RingHistory} {b : Rb}
    (hf : h.Fifo k maxCap b) : ∃ b', (ops.foldl (RingHistory.after k) h).Fifo k maxCap b' := by
  induction ops generalizing h b with
  | nil => exact ⟨b, hf⟩
  | cons op ops ih =>
    cases op with
    | write data =>
      obtain ⟨b', hf'⟩ := hf.write data
      exact ih hf'
    | read m =>
      obtain ⟨b', hf'⟩ := hf.read m
      exact ih hf'

/-- Settles O42: every command keeps the balance of the bytes read, held and written, and an empty ring starts with
it. -/
theorem ringIsFirstInFirstOut : Obligations.RingIsFirstInFirstOut := by
  unfold Obligations.RingIsFirstInFirstOut
  intro k s b ops hs hb hl hempty h
  have hstart : RingHistory.Fifo k s.par.rbMaxCap ⟨s, [], []⟩ b :=
    ⟨hb, hl, hs.of_rbAt hb, by simp [Rb.contents, hempty]⟩
  obtain ⟨b', hf⟩ := hstart.foldl ops
  exact ⟨b'.contents, hf.balance⟩

end Sys2Proof.Machine
end

section
/-! PROOFS. A decoder fed with bytes (42_decoder.md R145, R162 to R176): what it has received of the frame it is in, and
its run through a whole wire frame. -/

namespace Sys2Proof.Machine

/-! ## Halves and their bytes -/

@[simp] theorem lo8_zeroExtend (b : Byte) : lo8 (b.zeroExtend 16) = b := by
  apply BitVec.eq_of_toNat_eq
  have := b.isLt
  rw [lo8_toNat, BitVec.toNat_setWidth]
  omega

/-- The bytes of a u16 whose second byte was just put in (R164, R167). -/
theorem le16_withHighByte_of_low {v : Half} (h : v.toNat < 2 ^ 8) (b : Byte) :
    le16 (withHighByte v b) = [lo8 v, b] := by
  have hv : v = (lo8 v).zeroExtend 16 := by
    apply BitVec.eq_of_toNat_eq
    rw [BitVec.toNat_setWidth, lo8_toNat]
    omega
  rw [hv, le16_withHighByte, lo8_zeroExtend]

/-- A byte stored behind the first `n` of a store follows them. -/
theorem loadBytes_storeBytes_singleton {m : Option Memory} {size n : Nat} (hm : HasStore m size) (hn : n < size)
    (b : Byte) : loadBytes (storeBytes m n [b]) 0 (n + 1) = loadBytes m 0 n ++ [b] := by
  obtain ⟨x, rfl, -, rfl⟩ := hm
  have hspan : n + [b].length ≤ x.size := hn
  have hbyte := Memory.readBytes_writeBytes [b] hspan
  simp only [storeBytes_some, loadBytes_some, Memory.readBytes_add, Nat.zero_add]
  rw [Memory.readBytes_writeBytes_outside [b] hspan (.inl (by omega))]
  exact congrArg _ hbyte

/-! ## What a decoder has received (R176) -/

/-- The bytes of the current frame that a decoder record stands for, by state: those it has taken since it last waited
for a header. -/
def Dec.received (d : Dec) : Bytes :=
  match d.st with
  | .waitH1 => []
  | .waitH2 => [Config.hdr0]
  | .waitType => [Config.hdr0, Config.hdr1]
  | .waitLen1 => [Config.hdr0, Config.hdr1, d.typ]
  | .waitLen2 => [Config.hdr0, Config.hdr1, d.typ, lo8 d.len]
  | .payload => frameHeader d.typ d.len ++ loadBytes d.pay 0 d.cur.toNat
  | .waitCrc1 => frameHeader d.typ d.len ++ d.payload
  | .waitCrc2 => frameHeader d.typ d.len ++ d.payload ++ [lo8 d.crcRx]
  | .waitT1 => frameHeader d.typ d.len ++ d.payload ++ le16 d.crcRx
  | .waitT2 => frameHeader d.typ d.len ++ d.payload ++ le16 d.crcRx ++ [Config.tail0]

theorem Dec.received_of_waitH1 {d : Dec} (h : d.st = .waitH1) : d.received = [] := by
  simp only [received, h]

/-- The second length byte closes the header, with no payload byte received (R164, R165). -/
theorem finishLength_received {d : Dec} (h : d.st = .waitLen2) (hlow : d.len.toNat < 2 ^ 8) (b : Byte) (e : Env) :
    (finishLength d b e).dec.st = .waitH1 ∨ (finishLength d b e).dec.received = d.received ++ [b] := by
  have hheader : frameHeader d.typ (withHighByte d.len b) = d.received ++ [b] := by
    simp only [frameHeader, le16_withHighByte_of_low hlow, Dec.received, h]
    rfl
  by_cases hz : withHighByte d.len b = 0
  · right
    rw [finishLength_of_zero hz, ← hheader, hz]
    rfl
  · rw [finishLength_of_ne_zero hz]
    by_cases ha : e.answer = 0
    · left
      rw [allocPayload_of_denied _ ha]
      rfl
    · right
      rw [allocPayload_of_granted _ ha, ← hheader]
      exact List.append_nil _

/-- A payload byte follows those received before it (R166). -/
theorem Dec.Inv.received_takePayload {d : Dec} (hd : d.Inv) (h : d.st = .payload) (b : Byte) :
    (Machine.takePayload d b).received = d.received ++ [b] := by
  have hcur := hd.payloadCursor h
  have hbuf := hd.payPresent (.inl (by rw [h]; rfl))
  have hbytes := loadBytes_storeBytes_singleton hbuf hcur b
  have hnext : (d.cur + 1).toNat = d.cur.toNat + 1 := by
    have := d.len.isLt
    rw [BitVec.toNat_add, show (1 : Half).toNat = 1 from rfl]
    omega
  rw [← hnext] at hbytes
  have hold : d.received = frameHeader d.typ d.len ++ loadBytes d.pay 0 d.cur.toNat := by simp only [received, h]
  rw [hold, List.append_assoc, ← hbytes]
  by_cases hend : d.cur + 1 = d.len
  · rw [received, Machine.takePayload, if_pos hend, hend]
    rfl
  · rw [received, Machine.takePayload, if_neg hend]

/-- One step either receives its byte or waits for a header afterwards (R162 to R171). -/
theorem Dec.Inv.received_decStep {d : Dec} (hd : d.Inv) (b : Byte) (e : Env) :
    (Machine.decStep d b e).dec.st = .waitH1 ∨ (Machine.decStep d b e).dec.received = d.received ++ [b] := by
  cases h : d.st with
  | waitH1 =>
    rw [decStep_waitH1 b e h]
    by_cases hb : b = Config.hdr0
    · rw [if_pos hb, received_of_waitH1 h, hb]
      exact .inr rfl
    · rw [if_neg hb]
      exact .inl h
  | waitH2 =>
    rw [decStep_waitH2 b e h]
    by_cases hb : b = Config.hdr1
    · rw [if_pos hb, received, received, h, hb]
      exact .inr rfl
    · rw [if_neg hb]
      exact .inl rfl
  | waitType =>
    rw [decStep_waitType b e h, received, received, h]
    exact .inr rfl
  | waitLen1 =>
    right
    rw [decStep_waitLen1 b e h]
    simp only [received, pendingStep, lo8_zeroExtend, h]
    rfl
  | waitLen2 =>
    rw [decStep_waitLen2 b e h]
    exact finishLength_received h (hd.lenLowByte h) b e
  | payload =>
    rw [decStep_payload b e h]
    exact .inr (hd.received_takePayload h b)
  | waitCrc1 =>
    right
    rw [decStep_waitCrc1 b e h]
    simp only [received, pendingStep, lo8_zeroExtend, h]
    rfl
  | waitCrc2 =>
    right
    rw [decStep_waitCrc2 b e h]
    simp only [received, pendingStep, le16_withHighByte_of_low (hd.crcLowByte h), h, List.append_assoc]
    rfl
  | waitT1 =>
    rw [decStep_waitT1 b e h]
    by_cases hb : b = Config.tail0
    · rw [if_pos hb, received, received, h, hb]
      exact .inr rfl
    · rw [if_neg hb]
      exact .inl rfl
  | waitT2 =>
    rw [decStep_waitT2 b e h]
    by_cases hb : b = Config.tail1
    · by_cases hc : d.calcCrc = d.crcRx
      · rw [finishFrame_of_match e hb hc]
        exact .inl rfl
      · rw [finishFrame_of_wrongCrc e hc]
        exact .inl rfl
    · rw [finishFrame_of_wrongTail e hb]
      exact .inl rfl

/-- The completing byte is the last of the wire frame that the decoder holds (R169, R171). -/
theorem received_of_complete {d : Dec} {b : Byte} {e : Env} (h : (decStep d b e).complete = true) :
    d.received ++ [b] = wireFrame d.typ d.payload := by
  obtain ⟨hst, rfl, hcrc⟩ := (decStep_complete_iff d b e).mp h
  have hlen : BitVec.ofNat 16 d.payload.length = d.len := by
    rw [Dec.length_payload, BitVec.ofNat_toNat, BitVec.setWidth_eq]
  simp only [Dec.received, hst, wireFrame, hlen, ← hcrc, Dec.calcCrc_eq, List.append_assoc]
  rfl

/-! ## A completion means that a frame arrived (R176) -/

/-- A feed from a reset decoder after the bytes `bs`: they end with what the decoder has received, and after a
completion with its frame. -/
structure Feed.Tracks (f : Feed) (bs : Bytes) : Prop where
  inv : f.dec.Inv
  received : f.dec.received <:+ bs
  completed : f.results.getLast? = some true → f.dec.outValid = true ∧ wireFrame f.dec.typ f.dec.payload <:+ bs

theorem Feed.tracks_reset (e : Env) : (Feed.mk Dec.reset e []).Tracks [] where
  inv := Dec.inv_reset
  received := List.suffix_rfl
  completed h := by cases h

theorem Feed.Tracks.byte {f : Feed} {bs : Bytes} (h : f.Tracks bs) (b : Byte) : (f.byte b).Tracks (bs ++ [b]) := by
  have hinv := h.inv.closeWindow
  have hv := f.dec.outValid_closeWindow
  have hreceived : f.dec.closeWindow.received <:+ bs := by
    rw [Dec.closeWindow]
    split
    · exact List.nil_suffix
    · exact h.received
  have happend : f.dec.closeWindow.received ++ [b] <:+ bs ++ [b] := by
    obtain ⟨front, rfl⟩ := hreceived
    exact ⟨front, by rw [List.append_assoc]⟩
  refine ⟨hinv.decStep hv b f.env, ?_, fun hlast => ?_⟩
  · rcases hinv.received_decStep b f.env with hst | hnext
    · exact (Dec.received_of_waitH1 hst) ▸ List.nil_suffix
    · exact hnext ▸ happend
  · have hc : (decStep f.dec.closeWindow b f.env).complete = true := by simpa [Feed.byte] using hlast
    have hframe := received_of_complete hc
    simp only [Feed.byte, decStep_of_complete hc]
    exact ⟨trivial, hframe ▸ happend⟩

theorem Feed.tracks_bytes (e : Env) (bs : Bytes) : ((Feed.mk Dec.reset e []).bytes bs).Tracks bs := by
  induction bs using List.reverseRecOn with
  | nil => exact Feed.tracks_reset e
  | append_singleton bs b ih =>
    rw [Feed.bytes, List.foldl_append]
    exact ih.byte b

/-- Settles O17: at every byte the bytes fed end with what the decoder has received, and a completing byte makes that a
wire frame. -/
theorem completionMeansAWholeFrameArrived : Obligations.CompletionMeansAWholeFrameArrived := by
  unfold Obligations.CompletionMeansAWholeFrameArrived
  intro e bs f hlast
  obtain ⟨hvalid, hframe⟩ := (Feed.tracks_bytes e bs).completed hlast
  exact ⟨hvalid, hframe, f.dec.length_payload⟩

end Sys2Proof.Machine
end

section
/-! PROOFS. A decoder through a whole wire frame (42_decoder.md R145): every byte but the last reports pending, the last
one completes; and the commands that feed it (00_scope.md R6). -/

namespace Sys2Proof.Machine

/-! ## Runs of bytes that all report pending -/

/-- Feeding the bytes from `d`, with the draws `e`, reports pending at each and leaves `d'` and `e'`. -/
inductive PendingRun : Dec → Env → Bytes → Dec → Env → Prop where
  | nil (d : Dec) (e : Env) : PendingRun d e [] d e
  | cons {d d₁ d' : Dec} {e e₁ e' : Env} {b : Byte} {bs : Bytes} (step : decStep d b e = pendingStep d₁ e₁)
      (rest : PendingRun d₁ e₁ bs d' e') : PendingRun d e (b :: bs) d' e'

namespace PendingRun

theorem single {d d' : Dec} {e e' : Env} {b : Byte} (h : decStep d b e = pendingStep d' e') :
    PendingRun d e [b] d' e' := .cons h (.nil d' e')

theorem append {d d₁ d' : Dec} {e e₁ e' : Env} {xs ys : Bytes} (h : PendingRun d e xs d₁ e₁)
    (h' : PendingRun d₁ e₁ ys d' e') : PendingRun d e (xs ++ ys) d' e' := by
  induction h with
  | nil => exact h'
  | cons step _ ih => exact .cons step (ih h')

theorem split {d d' : Dec} {e e' : Env} {xs ys : Bytes} (h : PendingRun d e (xs ++ ys) d' e') :
    ∃ d₁ e₁, PendingRun d e xs d₁ e₁ ∧ PendingRun d₁ e₁ ys d' e' := by
  induction xs generalizing d e with
  | nil => exact ⟨d, e, .nil d e, h⟩
  | cons x xs ih =>
    cases h with
    | cons step rest =>
      obtain ⟨d₁, e₁, hx, hy⟩ := ih rest
      exact ⟨d₁, e₁, .cons step hx, hy⟩

/-- A pending step from a decoder without a readable frame leaves none. -/
theorem outValid_of_step {d d' : Dec} {e e' : Env} {b : Byte} (h : decStep d b e = pendingStep d' e')
    (hv : d.outValid = false) : d'.outValid = false := by
  have := decStep_outValid hv b e
  rwa [h] at this

theorem outValid {d d' : Dec} {e e' : Env} {bs : Bytes} (h : PendingRun d e bs d' e') (hv : d.outValid = false) :
    d'.outValid = false := by
  induction h with
  | nil => exact hv
  | cons step _ ih => exact ih (outValid_of_step step hv)

end PendingRun

/-! ## The parts of a frame (30_encoding.md R80) -/

/-- A wire frame without its last byte. -/
def frameButLast (t : Byte) (p : Bytes) : Bytes :=
  frameHeader t (BitVec.ofNat 16 p.length) ++
    (p ++ (le16 (frameCrc t (BitVec.ofNat 16 p.length) p) ++ [Config.tail0]))

theorem wireFrame_eq_butLast (t : Byte) (p : Bytes) : wireFrame t p = frameButLast t p ++ [Config.tail1] := by
  simp only [wireFrame, frameButLast, List.append_assoc]
  rfl

@[simp] theorem length_frameButLast (t : Byte) (p : Bytes) : (frameButLast t p).length = p.length + 8 := by
  have h := congrArg List.length (wireFrame_eq_butLast t p)
  simp only [length_wireFrame, List.length_append, List.length_singleton] at h
  omega

section
variable {d : Dec} (e : Env) (t : Byte)

/-- The header's first four bytes, from any decoder that waits for one (R162 to R164). -/
theorem pendingRun_fourHeaderBytes (h : d.st = .waitH1) (len : Half) :
    PendingRun d e [Config.hdr0, Config.hdr1, t, lo8 len]
      { d with st := .waitLen2, typ := t, len := (lo8 len).zeroExtend 16 } e :=
  .cons (decStep_waitH1 Config.hdr0 e h) <| .cons (decStep_waitH2 Config.hdr1 e rfl) <|
    .cons (decStep_waitType t e rfl) <| .single (decStep_waitLen1 (lo8 len) e rfl)

/-- A header with length 0 draws nothing (R165). -/
theorem pendingRun_emptyHeader (h : d.st = .waitH1) :
    PendingRun d e (frameHeader t 0)
      { d with st := .waitCrc1, typ := t, len := 0, cur := 0, pay := some (Memory.new 0 0) } e := by
  have hlast := decStep_waitLen2 (d := { d with st := .waitLen2, typ := t, len := (lo8 0).zeroExtend 16 }) (hi8 0) e rfl
  rw [finishLength_of_zero (withHighByte_split 0)] at hlast
  simp only [withHighByte_split] at hlast
  exact (pendingRun_fourHeaderBytes e t h 0).append (.single hlast)

/-- A header with another length draws the payload's buffer (R165). -/
theorem pendingRun_header (h : d.st = .waitH1) {len : Half} (hlen : len ≠ 0) (ha : e.answer ≠ 0) :
    PendingRun d e (frameHeader t len)
      { d with
        st := .payload, typ := t, len := len, cur := 0, pay := some (Memory.new len.toNat e.advance.count) }
      e.advance.afterNew := by
  have hsplit := withHighByte_split len
  have hlast := decStep_waitLen2 (d := { d with st := .waitLen2, typ := t, len := (lo8 len).zeroExtend 16 })
    (hi8 len) e rfl
  rw [finishLength_of_ne_zero (hsplit.trans_ne hlen), allocPayload_of_granted _ ha] at hlast
  simp only [hsplit] at hlast
  exact (pendingRun_fourHeaderBytes e t h len).append (.single hlast)

end

/-- The payload's bytes from the cursor on (R166). -/
theorem pendingRun_payload {d : Dec} {m : Memory} {b : Byte} {bs : Bytes} (e : Env) (h : d.st = .payload)
    (hp : d.pay = some m) (hend : d.cur.toNat + (b :: bs).length = d.len.toNat) :
    PendingRun d e (b :: bs)
      { d with st := .waitCrc1, cur := d.len, pay := some (m.writeBytes d.cur.toNat (b :: bs)) } e := by
  induction bs generalizing d m b with
  | nil =>
    have hlast : d.cur.toNat + 1 = d.len.toNat := hend
    have hstep := decStep_payload b e h
    rw [takePayload_eq hp (by omega), if_pos hlast, hlast, BitVec.ofNat_toNat, BitVec.setWidth_eq] at hstep
    exact .single hstep
  | cons c bs ih =>
    simp only [List.length_cons] at hend ih
    have hstep := decStep_payload b e h
    rw [takePayload_eq hp (by omega), if_neg (by omega)] at hstep
    have hcur : (BitVec.ofNat 16 (d.cur.toNat + 1) : Half).toNat = d.cur.toNat + 1 := by
      have := d.len.isLt
      rw [BitVec.toNat_ofNat]
      omega
    refine .cons hstep ?_
    have hrest := ih (d := { d with
      pay := some (m.write d.cur.toNat b), cur := BitVec.ofNat 16 (d.cur.toNat + 1), st := .payload }) rfl rfl
      (b := c) (by simp only [hcur]; omega)
    simpa only [hcur, Memory.writeBytes, h] using hrest

/-- The CRC bytes and the first tail byte (R167, R168). -/
theorem pendingRun_trailer {d : Dec} (e : Env) (h : d.st = .waitCrc1) (c : Half) :
    PendingRun d e (le16 c ++ [Config.tail0]) { d with st := .waitT2, crcRx := c } e := by
  have hsecond := decStep_waitCrc2 (d := { d with st := .waitCrc2, crcRx := (lo8 c).zeroExtend 16 }) (hi8 c) e rfl
  rw [withHighByte_split] at hsecond
  exact .cons (decStep_waitCrc1 (lo8 c) e h) <| .cons hsecond <| .single (decStep_waitT1 Config.tail0 e rfl)

/-- Header and payload leave a decoder that waits for the CRC with the payload stored. -/
theorem exists_pendingRun_headerAndPayload {d : Dec} {e : Env} (t : Byte) {p : Bytes} (h : d.st = .waitH1)
    (hp : p.length ≤ 65535) (hdraw : p = [] ∨ e.answer ≠ 0) :
    ∃ d' e', PendingRun d e (frameHeader t (BitVec.ofNat 16 p.length) ++ p) d' e' ∧ d'.st = .waitCrc1 ∧
      d'.frame = ⟨t, BitVec.ofNat 16 p.length, p⟩ := by
  match p with
  | [] => exact ⟨_, e, (pendingRun_emptyHeader e t h).append (.nil _ _), rfl, rfl⟩
  | b :: bs =>
    have hlen : (BitVec.ofNat 16 (b :: bs).length : Half).toNat = (b :: bs).length :=
      (BitVec.toNat_ofNat _ 16).trans (Nat.mod_eq_of_lt (by omega))
    have hne : (BitVec.ofNat 16 (b :: bs).length : Half) ≠ 0 := fun h0 => by
      rw [h0] at hlen
      exact absurd hlen.symm (Nat.succ_ne_zero _)
    have ha : e.answer ≠ 0 := hdraw.resolve_left (List.cons_ne_nil b bs)
    have hheader := pendingRun_header e t h hne ha
    have hpayload := pendingRun_payload (b := b) (bs := bs) e.advance.afterNew (d := { d with
      st := .payload, typ := t, len := BitVec.ofNat 16 (b :: bs).length, cur := 0,
      pay := some (Memory.new (BitVec.ofNat 16 (b :: bs).length : Half).toNat e.advance.count) }) rfl rfl
      ((Nat.zero_add _).trans hlen.symm)
    refine ⟨_, _, hheader.append hpayload, rfl, ?_⟩
    have hstored := Memory.readBytes_writeBytes (m := Memory.new (b :: bs).length e.advance.count) (a := 0) (b :: bs)
      (Nat.le_of_eq (Nat.zero_add _))
    simp only [Dec.frame, Dec.payload, loadBytes_some, hlen]
    exact congrArg _ hstored

/-- Every byte of a wire frame but the last reports pending, and the last one completes with the frame (R145). -/
theorem exists_pendingRun_frame {d : Dec} {e : Env} (t : Byte) {p : Bytes} (h : d.st = .waitH1)
    (hp : p.length ≤ 65535) (hdraw : p = [] ∨ e.answer ≠ 0) :
    ∃ d' e', PendingRun d e (frameButLast t p) d' e' ∧ (decStep d' Config.tail1 e').complete = true ∧
      d'.frame = ⟨t, BitVec.ofNat 16 p.length, p⟩ := by
  obtain ⟨d₁, e', hrun, hst, hframe⟩ := exists_pendingRun_headerAndPayload t h hp hdraw
  have htrailer := pendingRun_trailer e' hst (frameCrc t (BitVec.ofNat 16 p.length) p)
  refine ⟨_, e', (List.append_assoc _ _ _ ▸ hrun.append htrailer :), ?_, hframe⟩
  obtain ⟨htyp, hlen, hpay⟩ := FrameEvent.mk.injEq .. ▸ hframe
  rw [decStep_complete_iff, Dec.calcCrc_eq]
  refine ⟨rfl, rfl, ?_⟩
  show frameCrc d₁.typ d₁.len d₁.payload = _
  rw [htyp, hlen, hpay]

/-! ## Runs of issued commands -/

/-- A run of a running block executes the oldest command and goes on from what that leaves. -/
theorem run_issued_cons {i : Instr} {s t : State} {rest : List Bytes} (n : Nat) (hs : s.stopped = false)
    (hw : i.wf = true) (hp : s.pending = encode i :: rest) (he : exec i s.takeCommand = .next t) :
    Host.Core.run core (n + 1) s = Host.Core.run core n t := by
  have htake : { s with pending := rest } = s.takeCommand := by rw [State.takeCommand, hp, List.tail_cons]
  have hstep : core.step s = .next t :=
    (step_of_decode_ok hs hp (decodeOfEncodeIsTheCommand i hw)).trans (htake ▸ he)
  simp only [Host.Core.run, hstep]

section
variable {k b : Byte} {s : State} {d : Dec} (hd : s.decAt k = some ⟨true, d⟩) (hv : d.outValid = false)
include hd hv

theorem exec_decParse_of_pending {d' : Dec} {e' : Env} (h : decStep d b s.env = pendingStep d' e') :
    exec (.decParse k b) s = .next (((s.setDec k ⟨true, d'⟩).setEnv e').respond [0, 0]) := by
  rw [exec_decParse, onLiveDec_live hd, State.afterParse, Dec.closeWindow_of_invalid hv, h]
  rfl

theorem exec_decParse_of_complete (h : (decStep d b s.env).complete = true) :
    exec (.decParse k b) s =
      .next ((s.setDec k ⟨true, { d with st := .waitH1, outValid := true }⟩).respond [0, 1]) := by
  rw [exec_decParse, onLiveDec_live hd, State.afterParse, Dec.closeWindow_of_invalid hv, decStep_of_complete h]
  rfl

end

/-- The DEC_PARSEs of bytes that all report pending. -/
theorem run_decParse_pending {k : Byte} {d d' : Dec} {e e' : Env} {bs : Bytes} (hrun : PendingRun d e bs d' e')
    (n : Nat) {s : State} {rest : List Bytes} (hv : d.outValid = false) (hs : s.stopped = false)
    (hd : s.decAt k = some ⟨true, d⟩) (he : s.env = e)
    (hp : s.pending = (bs.map (Instr.decParse k)).map encode ++ rest) :
    ∃ u, Host.Core.run core (bs.length + n) s = Host.Core.run core n u ∧ u.pending = rest ∧ u.stopped = false ∧
      u.decAt k = some ⟨true, d'⟩ ∧ u.env = e' ∧ u.out = s.out ++ List.replicate bs.length [0, 0] := by
  induction hrun generalizing s with
  | nil => exact ⟨s, by rw [List.length_nil, Nat.zero_add], hp, hs, hd, he, (List.append_nil _).symm⟩
  | @cons d d₁ d' e e₁ e' b bs step _ ih =>
    have hexec := exec_decParse_of_pending (b := b) (s := s.takeCommand) hd hv (he ▸ step)
    have hnext := run_issued_cons (bs.length + n) hs rfl hp hexec
    obtain ⟨u, hu, hrest, hstop, hdec, henv, hout⟩ := ih (PendingRun.outValid_of_step step hv)
      (s := ((s.takeCommand.setDec k ⟨true, d₁⟩).setEnv e₁).respond [0, 0]) hs (State.decAt_setDec hd _) rfl
      (congrArg List.tail hp)
    refine ⟨u, ?_, hrest, hstop, hdec, henv, ?_⟩
    · rw [List.length_cons, Nat.add_right_comm, hnext, hu]
    · rw [hout, List.length_cons, List.replicate_succ]
      exact List.append_assoc _ [[0, 0]] _

/-- Settles O16: the frame's bytes but the last report pending, the last completes, and the completed decoder holds the
frame that DEC_READ answers. -/
theorem decodingAFrameGivesItBack : Obligations.DecodingAFrameGivesItBack := by
  unfold Obligations.DecodingAFrameGivesItBack
  intro k t p s hp hpend hs hd hdraw
  obtain ⟨d', e', hrun, hcomplete, hframe⟩ := exists_pendingRun_frame (d := Dec.reset) t rfl hp hdraw
  let is := (wireFrame t p).map (Instr.decParse k) ++ [.decRead k]
  have hissue : (s.issue is).pending = ((frameButLast t p).map (Instr.decParse k)).map encode ++
      [encode (.decParse k Config.tail1), encode (.decRead k)] := by
    simp [is, State.issue, wireFrame_eq_butLast]
  have hsteps : is.length = (frameButLast t p).length + 2 := by simp [is]
  obtain ⟨u, hu, hrest, hstop, hdec, henv, hout⟩ := run_decParse_pending hrun 2 (s := s.issue is) rfl hs hd rfl hissue
  have hv : d'.outValid = false := hrun.outValid rfl
  let done : Dec := { d' with st := .waitH1, outValid := true }
  let u₁ := (u.takeCommand.setDec k ⟨true, done⟩).respond [0, 1]
  have hlast : Host.Core.run core 2 u = Host.Core.run core 1 u₁ :=
    run_issued_cons 1 hstop rfl hrest (exec_decParse_of_complete (s := u.takeCommand) hdec hv (henv ▸ hcomplete))
  have hread : Host.Core.run core 1 u₁ = Host.Core.run core 0 (u₁.takeCommand.respond (decReadResponse done.frame)) :=
    run_issued_cons 0 hstop rfl (congrArg List.tail hrest)
      (exec_decRead_of_frame (s := u₁.takeCommand) (State.decAt_setDec hdec _) rfl)
  refine ⟨u₁.takeCommand.respond (decReadResponse done.frame), ?_, ?_, hstop⟩
  · show Host.Core.run core is.length (s.issue is) = _
    rw [hsteps, hu, hlast, hread]
    rfl
  · have hdone : done.frame = ⟨t, BitVec.ofNat 16 p.length, p⟩ := hframe
    rw [length_frameButLast] at hout
    rw [hdone]
    show u.out ++ [[0, 1]] ++ [_] = _
    rw [hout]
    rfl

end Sys2Proof.Machine
end

section
/-! PROOFS. RX_APPEND without capacity pressure (43_receiver.md R204, R219): the bytes that a receiver holds through
steps 3 to 5, and what the buffer reads as afterwards. -/

namespace Sys2Proof.Machine

/-! ## Spans of a store -/

theorem loadBytes_add (m : Option Memory) (a n k : Nat) :
    loadBytes m a (n + k) = loadBytes m a n ++ loadBytes m (a + n) k := (storeOf m).readBytes_add a n k

theorem loadBytes_drop (m : Option Memory) (n k : Nat) : (loadBytes m 0 n).drop k = loadBytes m k (n - k) := by
  rcases Nat.lt_or_ge n k with h | h
  · rw [List.drop_eq_nil_of_le (by simp; omega), Nat.sub_eq_zero_of_le (Nat.le_of_lt h)]
    rfl
  · obtain ⟨j, rfl⟩ := Nat.exists_eq_add_of_le h
    rw [loadBytes_add, List.drop_left' (length_loadBytes m 0 k), Nat.zero_add, Nat.add_sub_cancel_left]

/-! ## The bytes held (R211, R217) -/

/-- The buffered bytes, `buf[0 : wp]`. -/
def Rx.held (r : Rx) : Bytes := loadBytes r.buf 0 r.wp

@[simp] theorem Rx.length_held (r : Rx) : r.held.length = r.wp := length_loadBytes _ _ _

section
variable {r : Rx} (hst : HasStore r.buf r.cap)
include hst

/-- The bytes of a put read back at `wp`. -/
theorem Rx.load_put {data : Bytes} (hf : r.wp + data.length ≤ r.cap) :
    loadBytes (r.put data).buf r.wp data.length = data := by
  obtain ⟨m, hm, -, hsz⟩ := hst
  rw [Rx.buf_put, hm]
  exact Memory.readBytes_writeBytes data (hsz ▸ hf)

theorem Rx.held_put {data : Bytes} (hf : r.wp + data.length ≤ r.cap) : (r.put data).held = r.held ++ data := by
  have hdata := Rx.load_put hst hf
  obtain ⟨m, hm, -, hsz⟩ := hst
  have hold : loadBytes (r.put data).buf 0 r.wp = r.held := by
    rw [Rx.buf_put, Rx.held, hm]
    exact Memory.readBytes_writeBytes_outside data (hsz ▸ hf) (.inl (by omega))
  rw [Rx.held, Rx.wp_put, loadBytes_add, hold, Nat.zero_add, hdata]

theorem Rx.held_dropPrefix (hwc : r.wp ≤ r.cap) (marker : Nat) : (r.dropPrefix marker).held = r.held.drop marker := by
  rw [Rx.held, Rx.wp_dropPrefix, Rx.load_dropPrefix hst hwc, Rx.held, loadBytes_drop]

end

/-! ## The scan of an append (R212) -/

/-- The scan of a put starts at the appended bytes, where everything before was fed (R218). -/
theorem scanAll_put {r : Rx} (hpw : r.pp = r.wp) (data : Bytes) (e : Env) :
    scanAll (r.put data) e = Scan.turns data.length ⟨r.put data, e, [], 0⟩ := by
  rw [scanAll, Rx.wp_put, Rx.pp_put, hpw, Nat.add_sub_cancel_left]

/-- What the scan of an append leaves of the receiver, and where its marker stands. -/
theorem scanAll_put_spec {r : Rx} (hpw : r.pp = r.wp) (data : Bytes) (e : Env) :
    (scanAll (r.put data) e).rx.cap = r.cap ∧ (scanAll (r.put data) e).rx.wp = r.wp + data.length ∧
      (scanAll (r.put data) e).rx.pp = r.wp + data.length ∧ (scanAll (r.put data) e).rx.buf = (r.put data).buf ∧
      (scanAll (r.put data) e).marker ≤ r.wp + data.length := by
  have hle : (r.put data).pp ≤ (r.put data).wp := by simp [hpw]
  obtain ⟨-, hcap, hwp, hbuf, hpp, hmarker⟩ := scanAll_spec (r.put data) e hle
  exact ⟨hcap, hwp, hpp, hbuf, hmarker⟩

/-- The receiver that an append of `data` leaves where the data fits: steps 3 to 5 (R211 to R217). -/
def Rx.appended (r : Rx) (data : Bytes) (e : Env) : Rx :=
  (scanAll (r.put data) e).rx.dropPrefix (scanAll (r.put data) e).marker

theorem Rx.live_appended {r : Rx} (hpw : r.pp = r.wp) (data : Bytes) (e : Env) :
    (r.appended data e).live = r.live := by
  have hle : (r.put data).pp ≤ (r.put data).wp := by simp [hpw]
  exact (Rx.live_dropPrefix _ _).trans (scanAll_spec (r.put data) e hle).1

section
variable {maxCap : Nat} {r : Rx} (h : r.Inv maxCap) (hl : r.live = true) {data : Bytes}
  (hf : r.wp + data.length ≤ r.cap) (e : Env)
include h hl hf

theorem Rx.Inv.appended : (r.appended data e).Inv maxCap := Room.parse_inv (m := ⟨r, e, data, 0⟩) h hl hf

/-- The cursors and the bytes that an append without capacity pressure leaves (R219). -/
theorem Rx.Inv.appended_spec :
    (r.appended data e).cap = r.cap ∧ (r.appended data e).pp = (r.appended data e).wp ∧
      (r.appended data e).wp = r.wp + data.length - (scanAll (r.put data) e).marker ∧
      (r.appended data e).held = (r.held ++ data).drop (scanAll (r.put data) e).marker := by
  obtain ⟨hcap, hwp, hpp, hbuf, -⟩ := scanAll_put_spec (h.cursors hl).1 data e
  have hst : HasStore (scanAll (r.put data) e).rx.buf (scanAll (r.put data) e).rx.cap := by
    rw [hbuf, hcap]
    exact (h.buffer hl).storeBytes r.wp data
  have hheld : (scanAll (r.put data) e).rx.held = r.held ++ data := by
    rw [← Rx.held_put (h.buffer hl) hf, Rx.held, Rx.held, hbuf, hwp, Rx.wp_put]
  refine ⟨(Rx.cap_dropPrefix _ _).trans hcap, ?_, ?_, ?_⟩
  · rw [Rx.appended, Rx.pp_dropPrefix, Rx.wp_dropPrefix, hpp, hwp]
  · rw [Rx.appended, Rx.wp_dropPrefix, hwp]
  · rw [Rx.appended, Rx.held_dropPrefix hst (by omega), hheld]

/-- Offsets that an append without capacity pressure neither wrote in step 3 nor moved to in step 5 read as before. -/
theorem Rx.Inv.read_appended {a : Nat} (hout : a < r.wp ∨ r.wp + data.length ≤ a)
    (hkept : (scanAll (r.put data) e).marker = 0 ∨ r.wp + data.length - (scanAll (r.put data) e).marker ≤ a) :
    (storeOf (r.appended data e).buf).read a = (storeOf r.buf).read a := by
  obtain ⟨hcap, hwp, -, hbuf, -⟩ := scanAll_put_spec (h.cursors hl).1 data e
  have hput : (storeOf (r.put data).buf).read a = (storeOf r.buf).read a := by
    obtain ⟨m, hm, -, hsz⟩ := h.buffer hl
    rw [Rx.buf_put, hm, storeBytes_some, storeOf_some, storeOf_some, Memory.read_writeBytes data (hsz ▸ hf),
      if_neg (by omega)]
  rw [← hput, ← hbuf, Rx.appended]
  rcases hkept with h0 | hle
  · rw [h0, Rx.dropPrefix_zero]
  · have hst : HasStore (scanAll (r.put data) e).rx.buf (scanAll (r.put data) e).rx.cap := by
      rw [hbuf, hcap]
      exact (h.buffer hl).storeBytes r.wp data
    exact Rx.read_dropPrefix_of_le hst (by omega) (by omega)

end

/-- Settles O28: steps 3 to 5 append the data to the bytes held and drop those up to the marker, which is past offset 0
exactly where an event was delivered. -/
theorem bufferHoldsBytesAfterLastFrame : Obligations.BufferHoldsBytesAfterLastFrame := by
  unfold Obligations.BufferHoldsBytesAfterLastFrame
  intro k data s r m hs hr hl hm hf events removed
  have h := hs.of_rxAt hr
  have hpw := (h.cursors hl).1
  obtain ⟨-, -, -, -, hmarker⟩ := scanAll_put_spec hpw data s.env
  obtain ⟨m', hm', -⟩ := (h.appended hl hf s.env).buffer ((Rx.live_appended hpw data s.env).trans hl)
  obtain ⟨hcap, hpp, hwp, hheld⟩ := h.appended_spec hl hf s.env
  have hread {a : Nat} (hout : a < r.wp ∨ r.wp + data.length ≤ a)
      (hkept : removed = 0 ∨ r.wp + data.length - removed ≤ a) : m'.read a = m.read a := by
    have := h.read_appended hl hf s.env hout hkept
    rwa [hm', hm] at this
  have hsilent (he : events = []) : removed = 0 := (Scan.turns_silent _ _ he).2
  refine ⟨_, r.appended data s.env, m', exec_rxAppend_fits hr hl hf, State.rxAt_setRx hr _, hm', rfl, hcap, hpp,
    hmarker, hwp, ?_, fun a ha => hread (by omega) (by omega),
    fun he => ⟨hsilent he, fun a ha => hread (.inl ha) (.inl (hsilent he))⟩,
    fun he => Scan.turns_marker_pos _ (fun hne => absurd rfl hne) he⟩
  rw [Rx.held, Rx.held, hm', hm] at hheld
  exact hheld

end Sys2Proof.Machine
end

section
/-! PROOFS. RX_APPEND of a frame (43_receiver.md R204, R222): an append whose bytes all report pending gives no event,
and one whose last byte completes gives the frame's; so a frame in pieces gives one event, with its last piece. -/

namespace Sys2Proof.Machine

theorem storeBytes_nil (m : Option Memory) (a : Nat) : storeBytes m a [] = m := by
  cases m <;> rfl

/-- Setting a receiver to what it is changes nothing. -/
theorem State.setRx_of_rxAt {s : State} {k : Byte} {r : Rx} (h : s.rxAt k = some r) : s.setRx k r = s := by
  have hset : s.rxs.set k.toNat r = s.rxs := by
    obtain ⟨hk, rfl⟩ := List.getElem?_eq_some_iff.mp h
    exact List.set_getElem_self hk
  rw [State.setRx, hset]

/-! ## Scans over bytes that all report pending -/

/-- The scan of bytes that all report pending moves the cursor and the decoder, and nothing else (R212). -/
theorem Scan.turns_of_pendingRun {d d' : Dec} {e e' : Env} {bs : Bytes} (hrun : PendingRun d e bs d' e') {c : Scan}
    (hd : c.rx.dec = d) (he : c.env = e) (hbytes : loadBytes c.rx.buf c.rx.pp bs.length = bs) :
    c.turns bs.length = { c with rx := { c.rx with dec := d', pp := c.rx.pp + bs.length }, env := e' } := by
  induction hrun generalizing c with
  | nil =>
    subst hd he
    rfl
  | @cons d d₁ d' e e₁ e' b bs step _ ih =>
    obtain ⟨hbyte, hrest⟩ := List.cons.inj hbytes
    have hstep : decStep c.rx.dec c.rx.scanned c.env = pendingStep d₁ e₁ := by
      rw [hd, he, Rx.scanned, hbyte, step]
    let c₁ : Scan := { c with rx := { c.rx with dec := d₁, pp := c.rx.pp + 1 }, env := e₁ }
    have hturn : c.turn = c₁ := Scan.turn_of_pending hstep rfl
    have hpp : c.rx.pp + 1 + bs.length = c.rx.pp + (bs.length + 1) := by omega
    rw [List.length_cons, Scan.turns, hturn, ih (c := c₁) rfl rfl hrest, ← hpp]

/-! ## Appends without capacity pressure, by their events -/

section
variable {k : Byte} {s : State} {r : Rx} {d' : Dec} {e' : Env} (h : s.Inv) (hr : s.rxAt k = some r)
  (hl : r.live = true)
include h hr hl

theorem exec_rxAppend_of_pendingRun {data : Bytes} (hrun : PendingRun r.dec s.env data d' e')
    (hf : r.wp + data.length ≤ r.cap) :
    exec (.rxAppend k data) s =
      .next (((s.setRx k { r.put data with dec := d', pp := r.pp + data.length }).setEnv e').respond
        (appendResponse 0 [])) := by
  have hrx := h.of_rxAt hr
  have hpw := (hrx.cursors hl).1
  have hturns := Scan.turns_of_pendingRun hrun (c := ⟨r.put data, s.env, [], 0⟩) rfl rfl
    (hpw ▸ Rx.load_put (hrx.buffer hl) hf)
  rw [exec_rxAppend_fits hr hl hf, scanAll_put hpw, hturns, Rx.dropPrefix_zero]
  rfl

/-- The frame lies in the buffer where the bytes held and appended are at least its length (R213). -/
theorem exec_rxAppend_of_complete {bs : Bytes} {b : Byte} (hrun : PendingRun r.dec s.env bs d' e')
    (hc : (decStep d' b e').complete = true) (hf : r.wp + (bs ++ [b]).length ≤ r.cap)
    (hin : d'.len.toNat + 9 ≤ r.wp + (bs ++ [b]).length) :
    ∃ r', exec (.rxAppend k (bs ++ [b])) s =
        .next (((s.setRx k r').setEnv e').respond (appendResponse 0 [d'.frame])) ∧
      r'.wp = 0 ∧ r'.pp = 0 ∧ r'.cap = r.cap ∧ r'.dec = Dec.reset := by
  have hrx := h.of_rxAt hr
  have hpw := (hrx.cursors hl).1
  have hload := Rx.load_put (hrx.buffer hl) hf
  rw [List.length_append, List.length_singleton, loadBytes_add] at hload
  obtain ⟨hbytes, hlast⟩ := List.append_inj' hload (length_loadBytes _ _ 1)
  let c : Scan := ⟨r.put (bs ++ [b]), s.env, [], 0⟩
  let c₁ : Scan := { c with rx := { c.rx with dec := d', pp := r.wp + bs.length }, env := e' }
  have hturns : c.turns bs.length = c₁ :=
    (Scan.turns_of_pendingRun hrun rfl rfl (hpw ▸ hbytes)).trans (by rw [show c.rx.pp = r.wp from hpw])
  have hstep : decStep c₁.rx.dec c₁.rx.scanned c₁.env = decStep d' b e' := by
    rw [show c₁.rx.scanned = b from (List.cons.inj hlast).1]
  have hinside : frameInBuffer c₁.rx.pp c₁.rx.wp (decStep d' b e').dec.len = true := by
    have hend : c₁.rx.pp + 1 = r.wp + (bs ++ [b]).length := by simp [c₁, Nat.add_assoc]
    rw [decStep_of_complete hc, frameInBuffer_iff (by simp [c₁, c]), hend]
    exact hin
  have hscan : scanAll (r.put (bs ++ [b])) s.env =
      ⟨{ c₁.rx with dec := Dec.reset, pp := c₁.rx.pp + 1 }, (decStep d' b e').env, [(decStep d' b e').dec.frame],
        c₁.rx.pp + 1⟩ := by
    rw [scanAll_put hpw, List.length_append, Scan.turns_add, hturns]
    exact (Scan.turn_of_complete hstep hc).trans (Scan.deliver_of_inside _ hinside)
  rw [exec_rxAppend_fits hr hl hf, hscan, decStep_of_complete hc]
  exact ⟨_, rfl, by simp [c₁, c, Nat.add_assoc], by simp [c₁, c, Nat.add_assoc], by simp [c₁, c], by simp [c₁, c]⟩

end

/-- Settles O29: with nothing to scan, the receiver is as it was. -/
theorem appendOfNothingChangesNothing : Obligations.AppendOfNothingChangesNothing := by
  unfold Obligations.AppendOfNothingChangesNothing
  intro k s r hs hr hl
  have hwc := ((hs.of_rxAt hr).cursors hl).2
  have hsame : { r.put [] with dec := r.dec, pp := r.pp + 0 } = r := by
    rw [Rx.put, storeBytes_nil]
    rfl
  rw [exec_rxAppend_of_pendingRun hs hr hl (.nil _ _) hwc, List.length_nil, hsame, State.setRx_of_rxAt hr]
  rfl

/-- Settles O30: the frame's last byte completes, with the whole frame in the buffer. -/
theorem wholeFrameIsDelivered : Obligations.WholeFrameIsDelivered := by
  unfold Obligations.WholeFrameIsDelivered
  intro k t p s r hs hr hl hst hp hf hdraw
  obtain ⟨d', e', hrun, hc, hframe⟩ := exists_pendingRun_frame t hst hp hdraw
  obtain ⟨-, hlen, -⟩ := FrameEvent.mk.injEq .. ▸ hframe
  have hsize : (frameButLast t p ++ [Config.tail1]).length = p.length + 9 := by simp
  have hin : d'.len.toNat + 9 ≤ r.wp + (p.length + 9) := by
    rw [hlen, BitVec.toNat_ofNat]
    omega
  obtain ⟨r', he, hwp, hpp, hcap, hdec⟩ := exec_rxAppend_of_complete hs hr hl hrun hc (hsize ▸ hf) (hsize ▸ hin)
  rw [wireFrame_eq_butLast, he, hframe]
  exact ⟨_, r', rfl, State.rxAt_setRx hr _, rfl, hwp, hpp, hcap, hdec ▸ rfl⟩

/-! ## A frame in pieces (R222) -/

/-- A running block that meets the invariant, with the live receiver `r` at `k`. -/
structure State.Receiving (s : State) (k : Byte) (r : Rx) : Prop where
  inv : s.Inv
  running : s.stopped = false
  present : s.rxAt k = some r
  live : r.live = true

theorem State.Receiving.of_exec {s t : State} {k : Byte} {r r' : Rx} {i : Instr} (h : s.Receiving k r)
    (he : exec i s = .next t) (hmarks : t.stopped = s.stopped) (hr' : t.rxAt k = some r') (hl' : r'.live = true) :
    t.Receiving k r' := by
  obtain ⟨u, hu, hinv⟩ := h.inv.exists_exec (State.stopped_eq_false_iff.mp h.running).2 i
  exact ⟨Host.Outcome.next.inj (hu.symm.trans he) ▸ hinv, hmarks.trans h.running, hr', hl'⟩

theorem State.Receiving.issue {s : State} {k : Byte} {r : Rx} (h : s.Receiving k r) (is : List Instr) :
    (s.issue is).Receiving k r :=
  ⟨⟨h.inv.params, h.inv.counts, h.inv.decoders, h.inv.receivers, h.inv.rings, h.inv.oneMark⟩, h.running, h.present,
    h.live⟩

theorem State.Receiving.takeCommand {s : State} {k : Byte} {r : Rx} (h : s.Receiving k r) :
    s.takeCommand.Receiving k r := ⟨h.inv.takeCommand, h.running, h.present, h.live⟩

/-- The appends of pieces whose bytes all report pending answer no event, and the receiver holds their bytes. -/
theorem run_rxAppend_pending {k : Byte} {d' : Dec} {e' : Env} (pieces : List Bytes) (n : Nat) {s : State} {r : Rx}
    {rest : List Bytes} (h : s.Receiving k r) (hrun : PendingRun r.dec s.env pieces.flatten d' e')
    (hf : r.wp + pieces.flatten.length ≤ r.cap) (hshort : pieces.flatten.length < 2 ^ 32)
    (hp : s.pending = (pieces.map (Instr.rxAppend k)).map encode ++ rest) :
    ∃ u r', Host.Core.run core (pieces.length + n) s = Host.Core.run core n u ∧ u.pending = rest ∧
      u.Receiving k r' ∧ r'.dec = d' ∧ r'.cap = r.cap ∧ r'.wp = r.wp + pieces.flatten.length ∧ u.env = e' ∧
      u.out = s.out ++ List.replicate pieces.length (appendResponse 0 []) := by
  induction pieces generalizing s r with
  | nil =>
    cases hrun
    exact ⟨s, r, by rw [List.length_nil, Nat.zero_add], hp, h, rfl, rfl, rfl, rfl, (List.append_nil _).symm⟩
  | cons piece pieces ih =>
    rw [List.flatten_cons] at hrun hf hshort
    rw [List.length_append] at hf hshort
    obtain ⟨d₁, e₁, hpiece, hpieces⟩ := hrun.split
    have hexec := exec_rxAppend_of_pendingRun h.inv.takeCommand h.present h.live hpiece (by omega)
    have hwf : (Instr.rxAppend k piece).wf = true := decide_eq_true (by omega)
    have hnext := run_issued_cons (pieces.length + n) h.running hwf hp hexec
    have hafter := h.takeCommand.of_exec hexec rfl (State.rxAt_setRx h.present _) h.live
    have hput : (r.put piece).wp + pieces.flatten.length ≤ r.cap := by rw [Rx.wp_put]; omega
    obtain ⟨u, r', hu, hrest, hrecv, hdec, hcap, hwp, henv, hout⟩ := ih hafter hpieces hput (by omega)
      (congrArg List.tail hp)
    refine ⟨u, r', ?_, hrest, hrecv, hdec, hcap, ?_, henv, ?_⟩
    · rw [List.length_cons, Nat.add_right_comm, hnext, hu]
    · rw [hwp, List.flatten_cons, List.length_append]
      exact Nat.add_assoc _ _ _
    · rw [hout, List.length_cons, List.replicate_succ]
      exact List.append_assoc _ [_] _

/-- Non-empty pieces of a non-empty string: the last piece ends with the string's last byte, and the pieces without that
byte make up the string without it. -/
theorem exists_pieces_split {pieces : List Bytes} {front : Bytes} {b : Byte} (h : pieces.flatten = front ++ [b])
    (hne : ∀ x ∈ pieces, x ≠ []) :
    ∃ init bs, pieces = init ++ [bs ++ [b]] ∧ init.flatten ++ bs = front := by
  obtain rfl | ⟨init, last, rfl⟩ := List.eq_nil_or_concat' pieces
  · exact absurd h.symm (List.append_ne_nil_of_right_ne_nil _ (List.cons_ne_nil _ _))
  · obtain hnil | ⟨bs, c, rfl⟩ := List.eq_nil_or_concat' last
    · exact absurd hnil (hne last (by simp))
    · rw [List.flatten_append, List.flatten_singleton, ← List.append_assoc] at h
      obtain ⟨hfront, hlast⟩ := List.append_inj' h rfl
      obtain rfl := List.singleton_injective hlast
      exact ⟨init, bs, rfl, hfront⟩

/-- Settles O32: the pieces but the last, and the last but its last byte, are the frame but its last byte, which all
report pending. -/
theorem fragmentsDeliverExactlyOneFrame : Obligations.FragmentsDeliverExactlyOneFrame := by
  unfold Obligations.FragmentsDeliverExactlyOneFrame
  intro k t p pieces s r hs _ hrunning hr hl hst hp hpieces hne hf hdraw
  obtain ⟨init, bs, rfl, hfront⟩ := exists_pieces_split (hpieces.trans (wireFrame_eq_butLast t p)) hne
  obtain ⟨d', e', hrun, hc, hframe⟩ := exists_pendingRun_frame t hst hp hdraw
  obtain ⟨-, hlen, -⟩ := FrameEvent.mk.injEq .. ▸ hframe
  obtain ⟨d₁, e₁, hinit, hbs⟩ := (hfront ▸ hrun).split
  have hsize : init.flatten.length + bs.length = p.length + 8 := by
    rw [← List.length_append, hfront, length_frameButLast]
  let last := Instr.rxAppend k (bs ++ [Config.tail1])
  let is := (init ++ [bs ++ [Config.tail1]]).map (Instr.rxAppend k)
  have hissue : (s.issue is).pending = (init.map (Instr.rxAppend k)).map encode ++ [encode last] := by
    simp [is, last, State.issue]
  have hsteps : is.length = init.length + 1 := by simp [is]
  have hstart : (s.issue is).Receiving k r := State.Receiving.issue ⟨hs, hrunning, hr, hl⟩ is
  obtain ⟨u, r', hu, hrest, hrecv, hdec, hcap, hwp, henv, hout⟩ :=
    run_rxAppend_pending init 1 hstart hinit (by omega) (by omega) hissue
  have hwp' : r'.wp + (bs ++ [Config.tail1]).length = r.wp + (p.length + 9) := by
    rw [hwp, List.length_append, List.length_singleton]
    omega
  have hin : d'.len.toNat + 9 ≤ r.wp + (p.length + 9) := by
    rw [hlen, BitVec.toNat_ofNat]
    omega
  obtain ⟨r'', hexec, -⟩ := exec_rxAppend_of_complete (s := u.takeCommand) hrecv.inv.takeCommand hrecv.present
    hrecv.live (hdec ▸ henv ▸ hbs) hc (hwp' ▸ hcap ▸ hf) (hwp' ▸ hin)
  have hwf : last.wf = true := decide_eq_true (by omega)
  let u₁ := ((u.takeCommand.setRx k r'').setEnv e').respond (appendResponse 0 [d'.frame])
  have hlast : Host.Core.run core 1 u = Host.Core.run core 0 u₁ := run_issued_cons 0 hrecv.running hwf hrest hexec
  refine ⟨u₁, ?_, ?_⟩
  · show Host.Core.run core is.length (s.issue is) = _
    rw [hsteps, hu, hlast]
    rfl
  · rw [List.length_append, List.length_singleton, Nat.add_sub_cancel, ← hframe]
    exact congrArg (· ++ _) hout

end Sys2Proof.Machine
end

section
/-! PROOFS. One append and the same bytes in two (43_receiver.md R205 to R217): the scan of the second append runs in
the coordinates of a buffer from which the first one's delivered bytes were removed, and otherwise step by step with the
scan of the one append. -/

namespace Sys2Proof.Machine

/-! ## A frame lies behind the marker (R213, R215) -/

/-- What the scan's decoder has received was fed since the marker moved: the decoder was reset there. -/
def Scan.ReceivedSinceMarker (c : Scan) : Prop := c.marker = 0 ∨ c.rx.dec.received.length + c.marker ≤ c.rx.pp

/-- A step receives at most its own byte. -/
theorem Dec.Inv.length_received_decStep {d : Dec} (h : d.Inv) (b : Byte) (e : Env) :
    (Machine.decStep d b e).dec.received.length ≤ d.received.length + 1 := by
  rcases h.received_decStep b e with hst | hnext
  · rw [received_of_waitH1 hst]
    exact Nat.zero_le _
  · rw [hnext, List.length_append, List.length_singleton]

/-- At a completion the decoder has received the whole frame. -/
theorem length_received_of_complete {d : Dec} {b : Byte} {e : Env} (h : (decStep d b e).complete = true) :
    d.received.length + 1 = (decStep d b e).dec.len.toNat + 9 := by
  have hframe := congrArg List.length (received_of_complete h)
  rw [decStep_of_complete h]
  simpa using hframe

theorem Scan.ReceivedSinceMarker.turn {c : Scan} (h : c.ReceivedSinceMarker) (hd : c.rx.dec.Inv) :
    c.turn.ReceivedSinceMarker := by
  unfold ReceivedSinceMarker at *
  cases hc : (decStep c.rx.dec c.rx.scanned c.env).complete with
  | false =>
    have hnext := hd.length_received_decStep c.rx.scanned c.env
    rw [Scan.turn_of_pending rfl hc]
    show c.marker = 0 ∨ (decStep c.rx.dec c.rx.scanned c.env).dec.received.length + c.marker ≤ c.rx.pp + 1
    omega
  | true =>
    rw [Scan.turn_of_complete rfl hc]
    by_cases hin : frameInBuffer c.rx.pp c.rx.wp (decStep c.rx.dec c.rx.scanned c.env).dec.len = true
    · rw [Scan.deliver_of_inside _ hin]
      exact .inr (Nat.zero_add _).le
    · rw [Scan.deliver_of_outside _ hin]
      show c.marker = 0 ∨ 0 + c.marker ≤ c.rx.pp + 1
      omega

/-! ## Two scans in different coordinates -/

/-- `c` and `c'` have the same `n` bytes before them, the same decoder and the same draws. In `c` every offset is
`shift` higher, and the events of `c` begin with `earlier`. -/
structure Scan.Shifted (shift : Nat) (earlier : List FrameEvent) (n : Nat) (c c' : Scan) : Prop where
  dec : c.rx.dec = c'.rx.dec
  env : c.env = c'.env
  events : c.events = earlier ++ c'.events
  cursor : c.rx.pp = c'.rx.pp + shift
  marker : c.marker = c'.marker + shift
  bytes : loadBytes c.rx.buf c.rx.pp n = loadBytes c'.rx.buf c'.rx.pp n
  room : c.rx.pp + n ≤ c.rx.wp
  room' : c'.rx.pp + n ≤ c'.rx.wp
  since : c.ReceivedSinceMarker
  inv : c.rx.dec.Inv ∧ c.rx.dec.outValid = false

namespace Scan.Shifted

variable {shift n : Nat} {earlier : List FrameEvent} {c c' : Scan}

theorem scanned (h : Shifted shift earlier (n + 1) c c') : c.rx.scanned = c'.rx.scanned :=
  (List.cons.inj h.bytes).1

/-- A completed frame is in the buffer of `c` where it is in that of `c'`: it was received behind `shift`. -/
theorem frameInBuffer_iff (h : Shifted shift earlier (n + 1) c c')
    (hc : (decStep c.rx.dec c.rx.scanned c.env).complete = true) :
    frameInBuffer c.rx.pp c.rx.wp (decStep c.rx.dec c.rx.scanned c.env).dec.len = true ↔
      frameInBuffer c'.rx.pp c'.rx.wp (decStep c.rx.dec c.rx.scanned c.env).dec.len = true := by
  have hroom := h.room
  have hroom' := h.room'
  have hcursor := h.cursor
  have hmarker := h.marker
  have hsince : c.marker = 0 ∨ c.rx.dec.received.length + c.marker ≤ c.rx.pp := h.since
  have hlen := length_received_of_complete hc
  rw [Machine.frameInBuffer_iff (by omega), Machine.frameInBuffer_iff (by omega)]
  omega

theorem turn (h : Shifted shift earlier (n + 1) c c') : Shifted shift earlier n c.turn c'.turn := by
  obtain ⟨hbuf, hwp, hpp⟩ : c.turn.rx.buf = c.rx.buf ∧ c.turn.rx.wp = c.rx.wp ∧ c.turn.rx.pp = c.rx.pp + 1 := by
    obtain ⟨-, -, hwp, hbuf, hpp, -⟩ := c.turn_spec
    exact ⟨hbuf, hwp, hpp⟩
  obtain ⟨hbuf', hwp', hpp'⟩ : c'.turn.rx.buf = c'.rx.buf ∧ c'.turn.rx.wp = c'.rx.wp ∧
      c'.turn.rx.pp = c'.rx.pp + 1 := by
    obtain ⟨-, -, hwp, hbuf, hpp, -⟩ := c'.turn_spec
    exact ⟨hbuf, hwp, hpp⟩
  have hcursor := h.cursor
  have hroom := h.room
  have hroom' := h.room'
  have hstep : decStep c'.rx.dec c'.rx.scanned c'.env = decStep c.rx.dec c.rx.scanned c.env := by
    rw [h.dec, h.scanned, h.env]
  obtain ⟨hdec, henv, hevents, hmarker⟩ : c.turn.rx.dec = c'.turn.rx.dec ∧ c.turn.env = c'.turn.env ∧
      c.turn.events = earlier ++ c'.turn.events ∧ c.turn.marker = c'.turn.marker + shift := by
    cases hc : (decStep c.rx.dec c.rx.scanned c.env).complete with
    | false =>
      rw [Scan.turn_of_pending rfl hc, Scan.turn_of_pending hstep hc]
      exact ⟨rfl, rfl, h.events, h.marker⟩
    | true =>
      have hiff := h.frameInBuffer_iff hc
      rw [Scan.turn_of_complete rfl hc, Scan.turn_of_complete hstep hc]
      by_cases hin : frameInBuffer c.rx.pp c.rx.wp (decStep c.rx.dec c.rx.scanned c.env).dec.len = true
      · rw [Scan.deliver_of_inside _ hin, Scan.deliver_of_inside _ (hiff.mp hin)]
        refine ⟨rfl, rfl, ?_, ?_⟩
        · show c.events ++ [_] = earlier ++ (c'.events ++ [_])
          rw [h.events, List.append_assoc]
        · show c.rx.pp + 1 = c'.rx.pp + 1 + shift
          omega
      · rw [Scan.deliver_of_outside _ hin, Scan.deliver_of_outside _ (mt hiff.mpr hin)]
        exact ⟨rfl, rfl, h.events, h.marker⟩
  refine ⟨hdec, henv, hevents, by omega, hmarker, ?_, by omega, by omega, h.since.turn h.inv.1, Scan.turn_dec h.inv⟩
  rw [hbuf, hbuf', hpp, hpp']
  exact (List.cons.inj h.bytes).2

theorem turns (m : Nat) (h : Shifted shift earlier (m + n) c c') :
    Shifted shift earlier n (c.turns m) (c'.turns m) := by
  induction m generalizing c c' with
  | zero => rwa [Nat.zero_add] at h
  | succ m ih =>
    rw [Nat.succ_add] at h
    exact ih h.turn

end Scan.Shifted

/-! ## The scans of the two appends and of the one -/

section
variable {maxCap : Nat} {r : Rx} (h : r.Inv maxCap) (hl : r.live = true) {a b : Bytes}
  (hf : r.wp + (a ++ b).length ≤ r.cap) (e : Env)
include h hl hf

/-- The bytes of the one append, at the offsets of each part. -/
theorem Rx.Inv.load_put_append :
    loadBytes (r.put (a ++ b)).buf r.wp a.length = a ∧
      loadBytes (r.put (a ++ b)).buf (r.wp + a.length) b.length = b := by
  have hload := Rx.load_put (h.buffer hl) hf
  rw [List.length_append, loadBytes_add] at hload
  exact List.append_inj hload (length_loadBytes _ _ _)

/-- The scan of the first append goes step by step with the first turns of the one append's. -/
theorem Rx.Inv.shifted_first :
    Scan.Shifted 0 [] 0 (Scan.turns a.length ⟨r.put (a ++ b), e, [], 0⟩) (scanAll (r.put a) e) := by
  have hpw := (h.cursors hl).1
  rw [List.length_append] at hf
  rw [scanAll_put hpw]
  refine Scan.Shifted.turns (n := 0) a.length ⟨rfl, rfl, rfl, rfl, rfl, ?_, ?_, ?_, .inl rfl, h.decoder hl⟩
  · show loadBytes (r.put (a ++ b)).buf r.pp a.length = loadBytes (r.put a).buf r.pp a.length
    rw [hpw, (h.load_put_append hl (by simpa using hf)).1, Rx.load_put (h.buffer hl) (by omega)]
  · simp [hpw]
  · simp [hpw]

/-- The scan of the second append goes step by step with the other turns of the one append's, in the coordinates of the
buffer that the first append left. -/
theorem Rx.Inv.shifted_second :
    Scan.Shifted (scanAll (r.put a) e).marker (scanAll (r.put a) e).events 0 (scanAll (r.put (a ++ b)) e)
      (scanAll ((r.appended a e).put b) (scanAll (r.put a) e).env) := by
  obtain ⟨hpw, -⟩ := h.cursors hl
  have hload := (h.load_put_append hl hf).2
  obtain ⟨c, hc⟩ : ∃ c, Scan.turns a.length ⟨r.put (a ++ b), e, [], 0⟩ = c := ⟨_, rfl⟩
  have hfirst : Scan.Shifted 0 [] 0 c (scanAll (r.put a) e) := hc ▸ h.shifted_first hl hf e
  rw [List.length_append] at hf
  obtain ⟨hbuf, hwp, hpp⟩ : c.rx.buf = (r.put (a ++ b)).buf ∧ c.rx.wp = r.wp + (a.length + b.length) ∧
      c.rx.pp = r.wp + a.length := by
    obtain ⟨-, -, hwp, hbuf, hpp, -⟩ := Scan.turns_spec a.length ⟨r.put (a ++ b), e, [], 0⟩ (Nat.zero_le _)
    rw [← hc, hbuf, hwp, hpp]
    simp [hpw]
  have hfa : r.wp + a.length ≤ r.cap := by omega
  obtain ⟨-, -, -, -, hmarker⟩ := scanAll_put_spec hpw a e
  obtain ⟨hcap', hpw', hwp', -⟩ := h.appended_spec hl hfa e
  have hst' : HasStore (r.appended a e).buf (r.appended a e).cap :=
    (h.appended hl hfa e).buffer ((Rx.live_appended hpw a e).trans hl)
  have hload' : loadBytes ((r.appended a e).put b).buf (r.appended a e).wp b.length = b :=
    Rx.load_put hst' (by omega)
  rw [scanAll_put hpw (a ++ b), List.length_append, Scan.turns_add, scanAll_put hpw', hc]
  refine Scan.Shifted.turns (n := 0) b.length ⟨?_, hfirst.env, ?_, ?_, ?_, ?_, ?_, ?_, hfirst.since, hfirst.inv⟩
  · exact hfirst.dec.trans (Rx.dec_dropPrefix _ _).symm
  · exact hfirst.events.trans (List.append_nil _).symm
  · show c.rx.pp = (r.appended a e).pp + (scanAll (r.put a) e).marker
    omega
  · exact hfirst.marker.trans (Nat.add_comm _ _)
  · show loadBytes c.rx.buf c.rx.pp b.length = loadBytes ((r.appended a e).put b).buf (r.appended a e).pp b.length
    rw [hbuf, hpp, hpw', hload, hload']
  · rw [hpp, hwp]
    exact (Nat.add_assoc _ _ _).le
  · simp [hpw']

end

/-- The receiver after the two appends and the one after the one: same cursor, capacity, decoder and bytes. -/
theorem Rx.Inv.appended_appended {maxCap : Nat} {r : Rx} (h : r.Inv maxCap) (hl : r.live = true) {a b : Bytes}
    (hf : r.wp + (a ++ b).length ≤ r.cap) (e : Env) :
    let r₂ := (r.appended a e).appended b (scanAll (r.put a) e).env
    let r₁₂ := r.appended (a ++ b) e
    r₂.wp = r₁₂.wp ∧ r₂.pp = r₁₂.pp ∧ r₂.cap = r₁₂.cap ∧ r₂.dec = r₁₂.dec ∧ r₂.held = r₁₂.held := by
  intro r₂ r₁₂
  have hshift := h.shifted_second hl hf e
  have hsplit : (a ++ b).length = a.length + b.length := List.length_append
  have hfa : r.wp + a.length ≤ r.cap := by omega
  obtain ⟨hpw, -⟩ := h.cursors hl
  obtain ⟨-, -, -, -, hmarker₁⟩ := scanAll_put_spec hpw a e
  obtain ⟨hcap₁, -, hwp₁, hheld₁⟩ := h.appended_spec hl hfa e
  have hl₁ := (Rx.live_appended hpw a e).trans hl
  obtain ⟨hcap₂, hpw₂, hwp₂, hheld₂⟩ :=
    (h.appended hl hfa e).appended_spec hl₁ (data := b) (by omega) (scanAll (r.put a) e).env
  obtain ⟨hcap₁₂, hpw₁₂, hwp₁₂, hheld₁₂⟩ := h.appended_spec hl hf e
  have hwp : r₂.wp = r₁₂.wp := by
    rw [hwp₂, hwp₁, hwp₁₂, hshift.marker]
    omega
  refine ⟨hwp, (hpw₂.trans hwp).trans hpw₁₂.symm, (hcap₂.trans hcap₁).trans hcap₁₂.symm, ?_, ?_⟩
  · exact (Rx.dec_dropPrefix _ _).trans (hshift.dec.symm.trans (Rx.dec_dropPrefix _ _).symm)
  · have hdrop : (r.held ++ a).drop (scanAll (r.put a) e).marker ++ b =
        (r.held ++ a ++ b).drop (scanAll (r.put a) e).marker :=
      (List.drop_append_of_le_length (by simpa using hmarker₁)).symm
    rw [hheld₂, hheld₁, hheld₁₂, hshift.marker, hdrop, List.drop_drop, List.append_assoc, Nat.add_comm]

/-- Settles O31: the two scans run step by step with the one, and dropping a delivered part first and the rest later
leaves the same bytes. -/
theorem splittingAnAppendChangesNothing : Obligations.SplittingAnAppendChangesNothing := by
  unfold Obligations.SplittingAnAppendChangesNothing
  intro k a b s r hs hr hl hcap
  have h := hs.of_rxAt hr
  have hf : r.wp + (a ++ b).length ≤ r.cap := by rw [List.length_append]; omega
  have hfa : r.wp + a.length ≤ r.cap := by omega
  obtain ⟨hcap₁, -, hwp₁, -⟩ := h.appended_spec hl hfa s.env
  have hl₁ := (Rx.live_appended (h.cursors hl).1 a s.env).trans hl
  have hfb : (r.appended a s.env).wp + b.length ≤ (r.appended a s.env).cap := by omega
  have hshift := h.shifted_second hl hf s.env
  obtain ⟨hwp, hpp, hcap', hdec, hheld⟩ := h.appended_appended hl hf s.env
  let s₁ := ((s.setRx k (r.appended a s.env)).setEnv (scanAll (r.put a) s.env).env).respond
    (appendResponse 0 (scanAll (r.put a) s.env).events)
  have hr₁ : s₁.rxAt k = some (r.appended a s.env) := State.rxAt_setRx hr _
  refine ⟨s₁, _, _, _, _, _, _, exec_rxAppend_fits hr hl hfa, exec_rxAppend_fits hr₁ hl₁ hfb,
    exec_rxAppend_fits hr hl hf, rfl, rfl, ?_, State.rxAt_setRx hr₁ _, State.rxAt_setRx hr _, hshift.env.symm, hwp,
    hpp, hcap', hdec, hheld⟩
  rw [State.respond_out, hshift.events]
  rfl

end Sys2Proof.Machine
end
